-- ==== Sys2Proof/Word.lean ====
section
/-! DEFINITION. The words of the block: the 32-bit port word, the binary32 pattern, and the dibit (00_scope.md
rules R7, R12; 30_encoding.md rules R80, R86, R87). Nothing here computes; arithmetic on binary32 patterns is
Machine/Float.lean, and the numbering of the dibits is Decode.lean. -/

namespace Sys2Proof

/-- One 32-bit word of the command port (R87). -/
abbrev Word := BitVec 32

/-- An `F32` of the spec, held as its IEEE-754 binary32 bit pattern: sign bit 31, exponent bits 30:23, fraction bits
22:0 (R7, R86). Signed zeros, infinities and every NaN pattern are distinct values of this type. -/
abbrev F32 := BitVec 32

/-- A dibit, a two-bit symbol (R80). The spec gives it a value and an ideal phase and no other attribute (R81, D40). -/
inductive Dibit where
  | d00Plus1
  | d01Plus3
  | d10Minus1
  | d11Minus3
deriving DecidableEq, Repr

end Sys2Proof
end

