-- ==== Sys2Proof/Syntax.lean ====
section
/-! DEFINITION. The instructions of the block, one constructor per row of spec/opcode_table.json: the five host commands
(30_encoding.md rule R88) and the seventeen unit operations (30_encoding.md rule R96), with the operands their rules give
them. -/

namespace Sys2Proof

/-- The sequences of F32 that `INTERP` may be given (R110): the two sample memories and the phase delay line. -/
inductive Space where
  | ibuf
  | qbuf
  | dly
deriving DecidableEq, Repr

/-- One instruction: a host command, or a unit operation with the values it is called with. -/
inductive Instr where
  /-- `CFG symbol_rate, sample_rate, flags` (R171). -/
  | cfg (retune : Bool) (symbolRate : Word) (sampleRate : F32)
  /-- `SETFS fs` (R173). -/
  | setfs (fs : F32)
  /-- `RST` (R174). -/
  | rst
  /-- `RECV n, ts, I, Q` (R167). Sample `k` is the pair `(I[k], Q[k])`: one `n` sizes both arrays (R89). -/
  | recv (ts : BitVec 64) (batch : List (F32 × F32))
  /-- `RDCSR addr` (R175). -/
  | rdcsr (addr : BitVec 12)
  /-- `INTERP(S, off, mu)` (R110). -/
  | interp (sp : Space) (off : Nat) (mu : F32)
  /-- `CMULC(pI, pQ, cI, cQ)` (R120). -/
  | cmulc (pI pQ cI cQ : F32)
  /-- `PHASE(dQ, dI)` (R123). -/
  | phase (dQ dI : F32)
  /-- `DIFF(x)` (R122). -/
  | diff (x : Nat)
  /-- `UNWRAP(c, p)` (R135). -/
  | unwrap (c p : F32)
  /-- `SPSAMPLE(phi_in)` (R131). -/
  | spsample (phiIn : F32)
  /-- `SYMBOL()` (R134). -/
  | symbol
  /-- `LOOPUPD(eps)` (R136). -/
  | loopupd (eps : F32)
  /-- `EQPROC(d, phase)` (R152). -/
  | eqproc (d : Dibit) (ph : F32)
  /-- `EQNOUPD(d, phase)` (R153). -/
  | eqnoupd (d : Dibit) (ph : F32)
  /-- `EQSYNC(T[0..23])` (R154). -/
  | eqsync (t : List Dibit)
  /-- `UPDOBS(s)` (R166). -/
  | updobs (sps : F32)
  /-- `DECIDE(phi)` (R185). -/
  | decidePhi (phi : F32)
  /-- `TERR(d, prec, this, foll)` (R190). -/
  | terr (d : Dibit) (prec cur foll : F32)
  /-- `SYNCCORR(phase)` (R196). -/
  | synccorr (ph : F32)
  /-- `DDLPUSH(d)` (R198). -/
  | ddlpush (d : Dibit)
  /-- `DDLSYNC()` (R199). -/
  | ddlsync
deriving DecidableEq, Repr

/-- A host command, which travels over the command port; every other instruction is a unit operation (R15, R96). -/
def Instr.isCommand : Instr → Bool
  | .cfg _ _ _ => true
  | .setfs _ => true
  | .rst => true
  | .recv _ _ => true
  | .rdcsr _ => true
  | .interp _ _ _ => false
  | .cmulc _ _ _ _ => false
  | .phase _ _ => false
  | .diff _ => false
  | .unwrap _ _ => false
  | .spsample _ => false
  | .symbol => false
  | .loopupd _ => false
  | .eqproc _ _ => false
  | .eqnoupd _ _ => false
  | .eqsync _ => false
  | .updobs _ => false
  | .decidePhi _ => false
  | .terr _ _ _ _ => false
  | .synccorr _ => false
  | .ddlpush _ => false
  | .ddlsync => false

end Sys2Proof
end

