-- ==== Sys2Proof/WellFormed.lean ====
section
/-! DEFINITION. Which instructions are well formed: those the encodings of Decode.lean can carry. A batch length is an
unsigned 24-bit number (R88), `EQSYNC` takes 24 dibits (R154), and an index given to `INTERP` or `DIFF` is carried as
one word (assumption log 7). -/

namespace Sys2Proof

/-- The instruction is one that an encoding carries. Only the four forms named here can fail it. -/
def Instr.wellFormed : Instr → Bool
  | .recv _ batch => batch.length < 16777216
  | .interp _ off _ => off < 4294967296
  | .diff x => x < 4294967296
  | .eqsync t => t.length == 24
  | .cfg _ _ _ => true
  | .setfs _ => true
  | .rst => true
  | .rdcsr _ => true
  | .cmulc _ _ _ _ => true
  | .phase _ _ => true
  | .unwrap _ _ => true
  | .spsample _ => true
  | .symbol => true
  | .loopupd _ => true
  | .eqproc _ _ => true
  | .eqnoupd _ _ => true
  | .updobs _ => true
  | .decidePhi _ => true
  | .terr _ _ _ _ => true
  | .synccorr _ => true
  | .ddlpush _ => true
  | .ddlsync => true

/-- `wellFormed` as a proposition. -/
abbrev Instr.WellFormed (i : Instr) : Prop := i.wellFormed = true

end Sys2Proof
end

