-- ==== Sys2Proof/Decode.lean ====
section
/-! DEFINITION. Decoding and encoding (30_encoding.md). The command port carries 32-bit words (R87 to R89, R95). The
unit operations have no port encoding; their micro-operation numbers (R96) are read here from the micro-sequencer's slot,
in a word of their own followed by one word per operand, a layout of the model (assumption log 7). -/

namespace Sys2Proof

/-! Dibits. -/

/-- `value(d)`, the two digits of the dibit's name (R80). -/
def Dibit.value : Dibit → BitVec 2
  | .d00Plus1 => 0#2
  | .d01Plus3 => 1#2
  | .d10Minus1 => 2#2
  | .d11Minus3 => 3#2

/-- The dibit of a number taken mod 4 (R80). -/
def dibitOfNat (v : Nat) : Dibit :=
  match v % 4 with
  | 0 => .d00Plus1
  | 1 => .d01Plus3
  | 2 => .d10Minus1
  | _ => .d11Minus3

/-- The number whose base-4 digits are the dibits, the first the most significant (R83, R85). -/
def packDibits (ds : List Dibit) : Nat := ds.foldl (fun a d => a * 4 + d.value.toNat) 0

/-- The last `n` base-4 digits of a number as dibits, the most significant first (R83). -/
def unpackDibits : Nat → Nat → List Dibit
  | 0, _ => []
  | n + 1, v => unpackDibits n (v / 4) ++ [dibitOfNat v]

/-! What a decoder refuses, by name. -/

/-- Why no instruction was read. -/
inductive DecodeError where
  /-- There is no word. -/
  | empty
  /-- The header is legal and operand words are still missing; the reader waits for them. -/
  | incomplete (header : Word)
  /-- The header is none of R88's: an illegal command (R95). In the micro slot: not a number of R96. -/
  | illegal (header : Word)
  /-- Micro slot only: an operand word that names no sequence or no dibit. -/
  | badOperand (header : Word)
deriving DecidableEq, Repr

/-! The command port (R87, R88). Match and mask of each header are R88's. -/

def isCfgHeader (h : Word) : Bool := h &&& 0xFFFFFEFF#32 == 0x00000001#32
def isSetfsHeader (h : Word) : Bool := h == 0x00000002#32
def isRstHeader (h : Word) : Bool := h == 0x00000003#32
def isRecvHeader (h : Word) : Bool := h &&& 0x000000FF#32 == 0x00000004#32
def isRdcsrHeader (h : Word) : Bool := h &&& 0xFFF000FF#32 == 0x00000005#32

/-- `n = zext(header[31:8])` (R89). -/
def recvCount (h : Word) : Nat := h.toNat / 256

/-- The operands of `RECV` at the front of the words after its header (R88, R89): `ts = ts_hi ++ ts_lo`, then the I rail,
then the Q rail. -/
def recvOperands (n : Nat) : List Word → Option (BitVec 64 × List (F32 × F32) × List Word)
  | lo :: hi :: ws =>
    if ws.length < 2 * n then none
    else some (hi ++ lo, (ws.take n).zip ((ws.drop n).take n), ws.drop (2 * n))
  | _ => none

/-- The command at the front of the port's words, with the words after it. -/
def decode : List Word → Except DecodeError (Instr × List Word)
  | [] => .error .empty
  | h :: ws =>
    if isCfgHeader h then
      match ws with
      | sr :: fs :: rest => .ok (.cfg (h.getLsbD 8) sr fs, rest)
      | _ => .error (.incomplete h)
    else if isSetfsHeader h then
      match ws with
      | fs :: rest => .ok (.setfs fs, rest)
      | _ => .error (.incomplete h)
    else if isRstHeader h then .ok (.rst, ws)
    else if isRecvHeader h then
      match recvOperands (recvCount h) ws with
      | some (ts, batch, rest) => .ok (.recv ts batch, rest)
      | none => .error (.incomplete h)
    else if isRdcsrHeader h then .ok (.rdcsr (h.extractLsb' 8 12), ws)
    else .error (.illegal h)

/-! The micro-sequencer's slot (R96; operand words: assumption log 7). -/

/-- The sequence an operand word of `INTERP` names. -/
def spaceOfWord (w : Word) : Option Space :=
  if w = 0#32 then some .ibuf else if w = 1#32 then some .qbuf else if w = 2#32 then some .dly else none

/-- The operand word that names a sequence. -/
def Space.toWord : Space → Word
  | .ibuf => 0#32
  | .qbuf => 1#32
  | .dly => 2#32

/-- The dibit an operand word holds in bits 1:0, the others being zero. -/
def dibitOfWord (w : Word) : Option Dibit := if w.toNat < 4 then some (dibitOfNat w.toNat) else none

/-- A dibit in bits 1:0 of a word (R90: bits 31:2 zero). -/
def Dibit.toWord (d : Dibit) : Word := d.value.setWidth 32

/-- The instruction made of a checked operand, or the error that the operand is none. -/
def withOperand {α : Type} (h : Word) (o : Option α) (rest : List Word) (f : α → Instr) :
    Except DecodeError (Instr × List Word) :=
  match o with
  | some a => .ok (f a, rest)
  | none => .error (.badOperand h)

/-- The unit operation at the front of the micro-sequencer's words, with the words after it. -/
def decodeMicro : List Word → Except DecodeError (Instr × List Word)
  | [] => .error .empty
  | h :: ws =>
    if h = 0x10#32 then
      match ws with
      | sp :: off :: mu :: rest => withOperand h (spaceOfWord sp) rest (fun s => .interp s off.toNat mu)
      | _ => .error (.incomplete h)
    else if h = 0x11#32 then
      match ws with
      | pI :: pQ :: cI :: cQ :: rest => .ok (.cmulc pI pQ cI cQ, rest)
      | _ => .error (.incomplete h)
    else if h = 0x12#32 then
      match ws with
      | dQ :: dI :: rest => .ok (.phase dQ dI, rest)
      | _ => .error (.incomplete h)
    else if h = 0x13#32 then
      match ws with
      | x :: rest => .ok (.diff x.toNat, rest)
      | _ => .error (.incomplete h)
    else if h = 0x14#32 then
      match ws with
      | c :: p :: rest => .ok (.unwrap c p, rest)
      | _ => .error (.incomplete h)
    else if h = 0x15#32 then
      match ws with
      | phi :: rest => .ok (.spsample phi, rest)
      | _ => .error (.incomplete h)
    else if h = 0x16#32 then .ok (.symbol, ws)
    else if h = 0x17#32 then
      match ws with
      | eps :: rest => .ok (.loopupd eps, rest)
      | _ => .error (.incomplete h)
    else if h = 0x18#32 then
      match ws with
      | d :: ph :: rest => withOperand h (dibitOfWord d) rest (fun d => .eqproc d ph)
      | _ => .error (.incomplete h)
    else if h = 0x19#32 then
      match ws with
      | d :: ph :: rest => withOperand h (dibitOfWord d) rest (fun d => .eqnoupd d ph)
      | _ => .error (.incomplete h)
    else if h = 0x1A#32 then
      match ws with
      | lo :: hi :: rest =>
        if hi.toNat < 65536 then .ok (.eqsync (unpackDibits 24 (hi.toNat * 4294967296 + lo.toNat)), rest)
        else .error (.badOperand h)
      | _ => .error (.incomplete h)
    else if h = 0x1B#32 then
      match ws with
      | sps :: rest => .ok (.updobs sps, rest)
      | _ => .error (.incomplete h)
    else if h = 0x1C#32 then
      match ws with
      | phi :: rest => .ok (.decidePhi phi, rest)
      | _ => .error (.incomplete h)
    else if h = 0x1D#32 then
      match ws with
      | d :: prec :: cur :: foll :: rest => withOperand h (dibitOfWord d) rest (fun d => .terr d prec cur foll)
      | _ => .error (.incomplete h)
    else if h = 0x1E#32 then
      match ws with
      | ph :: rest => .ok (.synccorr ph, rest)
      | _ => .error (.incomplete h)
    else if h = 0x1F#32 then
      match ws with
      | d :: rest => withOperand h (dibitOfWord d) rest .ddlpush
      | _ => .error (.incomplete h)
    else if h = 0x20#32 then .ok (.ddlsync, ws)
    else .error (.illegal h)

/-! Lengths: the number of words after a header is a function of the header alone (R87). -/

/-- How many operand words follow a header on the command port; none follow an illegal one (R88, R95). -/
def portOperandWords (h : Word) : Nat :=
  if isCfgHeader h then 2
  else if isSetfsHeader h then 1
  else if isRecvHeader h then 2 + 2 * recvCount h
  else 0

/-- The header is a micro-operation number (R96). -/
def isMicroNumber (h : Word) : Bool := Nat.ble 0x10 h.toNat && Nat.ble h.toNat 0x20

/-- How many operand words follow a micro-operation number in the slot (assumption log 7). -/
def microOperandWords (h : Word) : Nat :=
  match h.toNat with
  | 0x10 => 3
  | 0x11 => 4
  | 0x12 => 2
  | 0x13 => 1
  | 0x14 => 2
  | 0x15 => 1
  | 0x17 => 1
  | 0x18 => 2
  | 0x19 => 2
  | 0x1A => 2
  | 0x1B => 1
  | 0x1C => 1
  | 0x1D => 4
  | 0x1E => 1
  | 0x1F => 1
  | _ => 0

/-! Encoding. -/

/-- The words of an instruction: a command's as R88 lays them out, a unit operation's as the slot holds them. -/
def encode : Instr → List Word
  | .cfg retune sr fs => [if retune then 0x00000101#32 else 0x00000001#32, sr, fs]
  | .setfs fs => [0x00000002#32, fs]
  | .rst => [0x00000003#32]
  | .recv ts batch =>
    [BitVec.ofNat 32 (batch.length * 256 + 4), ts.extractLsb' 0 32, ts.extractLsb' 32 32] ++
      (batch.map Prod.fst ++ batch.map Prod.snd)
  | .rdcsr addr => [BitVec.ofNat 32 (addr.toNat * 256 + 5)]
  | .interp sp off mu => [0x10#32, sp.toWord, BitVec.ofNat 32 off, mu]
  | .cmulc pI pQ cI cQ => [0x11#32, pI, pQ, cI, cQ]
  | .phase dQ dI => [0x12#32, dQ, dI]
  | .diff x => [0x13#32, BitVec.ofNat 32 x]
  | .unwrap c p => [0x14#32, c, p]
  | .spsample phi => [0x15#32, phi]
  | .symbol => [0x16#32]
  | .loopupd eps => [0x17#32, eps]
  | .eqproc d ph => [0x18#32, d.toWord, ph]
  | .eqnoupd d ph => [0x19#32, d.toWord, ph]
  | .eqsync t => [0x1A#32, BitVec.ofNat 32 (packDibits t % 4294967296), BitVec.ofNat 32 (packDibits t / 4294967296)]
  | .updobs sps => [0x1B#32, sps]
  | .decidePhi phi => [0x1C#32, phi]
  | .terr d prec cur foll => [0x1D#32, d.toWord, prec, cur, foll]
  | .synccorr ph => [0x1E#32, ph]
  | .ddlpush d => [0x1F#32, d.toWord]
  | .ddlsync => [0x20#32]

/-! The host's table words. -/

/-- The first word of a table word of `nbits` bits. -/
def tableHeader (nbits w : Nat) : Word := BitVec.ofNat 32 (w % Nat.pow 2 nbits)

/-- The words of a table word: those its `nbits` bits give, continued with zero words to the instruction's length. -/
def tableWords (nbits w : Nat) : List Word :=
  let h := tableHeader nbits w
  let k := if isMicroNumber h then microOperandWords h else portOperandWords h
  (List.range (max ((nbits + 31) / 32) (k + 1))).map
    (fun j => BitVec.ofNat 32 ((w % Nat.pow 2 nbits) / Nat.pow 2 (32 * j)))

/-- The instruction the decoders read from a table word. A micro-operation number goes to the micro-sequencer's decoder
and everything else to the command port's: on the port those numbers are illegal headers (R95, R96). -/
def decodeTableWord (nbits w : Nat) : Option Instr :=
  let ws := tableWords nbits w
  match if isMicroNumber (tableHeader nbits w) then decodeMicro ws else decode ws with
  | .ok (i, _) => some i
  | .error _ => none

end Sys2Proof
end

