-- ==== Sys2Proof/Config.lean ====
section
/-! DEFINITION. The implementation parameters of the block (00_scope.md rules R6, R7; 10_state.md rule R49;
92_eei_decisions.md, "Open parameters, collected"; 93_implementation_defined.md I1 to I8).

`Cfg` is the record of them, and every operation of the machine takes one, so a fact may be stated for every choice.
What no source fixes is an `opaque` constant: it has no body, so nothing in Lean can evaluate it and whatever is proved
holds for every value of it. `Machine/Constants.lean` builds the hardware's own record `hw` from these and from the
defaults the spec gives. -/

namespace Sys2Proof

/-- The operations of `Num` whose result may be a NaN. IEEE-754 and the spec leave the pattern of that NaN open. -/
inductive NanOp where
  | add | sub | mul | div | floor
deriving DecidableEq, Repr

/-- OPEN (D7, I1): the tap table `TAPS[row][column]` (R40, R112). Assumption log 2. -/
opaque Config.taps : Nat → Nat → F32

/-- OPEN (D6, I2): `NUM.atan2 y x` (R9). Assumption log 3. -/
opaque Config.atan2 : F32 → F32 → F32

/-- OPEN (D29, I6): by how much the sample memory's capacity `BUF_CAP` exceeds 15, the least the spec allows (R6, R44).
Assumption log 4. -/
opaque Config.bufCapExtra : Nat

/-- A free value: the bits from which the pattern of a NaN result of an operation on these operands is made. The spec
says such a result is a NaN and not which one (R7). Assumption log 5. -/
opaque Config.nanBits : NanOp → F32 → F32 → BitVec 32

/-- A free value: the natural that `UPDOBS` of this operand leaves in `OVERLAP` where `floor(s) + 4` is negative. R166 asks
for an operand of 4 or more and R25 for a natural, and no rule says what results below. Assumption log 13. -/
opaque Config.overlapBelow : F32 → Nat

/-- OPEN: whether an empty `RECV` leaves the sample memories and `BUF_LEN` as they were, as R170 says, or runs step 1 of the
pseudocode of R167 on them. The two differ after a `RECV` that left more than `OVERLAP` samples, and nothing in the spec
settles it. Assumption log 11. -/
opaque Config.emptyRecvKeeps : Bool

/-- The numerics record `NUM` of R7: total functions on binary32 patterns. `f2i` is defined on finite integral values
only, so it answers `none` elsewhere. -/
structure Num where
  fadd : F32 → F32 → F32
  fsub : F32 → F32 → F32
  fmul : F32 → F32 → F32
  fdiv : F32 → F32 → F32
  ffloor : F32 → F32
  fabs : F32 → F32
  fneg : F32 → F32
  flt : F32 → F32 → Bool
  fle : F32 → F32 → Bool
  fgt : F32 → F32 → Bool
  fge : F32 → F32 → Bool
  feq : F32 → F32 → Bool
  isfinite : F32 → Bool
  i2f : Int → F32
  f2i : F32 → Option Int
  atan2 : F32 → F32 → F32

/-- `EQ_OUTPUT_MODE` (R6, R155): `residual` is normative, `phase` is the spec's marked conjecture. -/
inductive EqMode where
  | residual
  | phase
deriving DecidableEq, Repr

/-- The parameters of R6 that are not fixed by the source. -/
structure Cfg where
  /-- `NUM`, the numerics record (R7, D4). -/
  num : Num
  /-- `TAPS` (R40). -/
  taps : Nat → Nat → F32
  /-- `N`, the equalizer half length, 12 by default (R6, D19). -/
  n : Nat
  /-- `STEP`, the equalizer step (R6). -/
  step : F32
  /-- `OBS_GAIN`, the loop gain (R6). -/
  obsGain : F32
  /-- `NOISE_MULT`, the noise multiplier (R6). -/
  noiseMult : F32
  /-- `W`, the block width (R6, D28). -/
  w : Nat
  /-- `BUF_CAP`, the sample memory capacity (R6, D29). -/
  bufCap : Nat
  /-- `EQ_OUTPUT_MODE` (R6, D21). -/
  eqMode : EqMode

/-- `L = 2N + 1`, the equalizer length (R6). -/
def Cfg.len (c : Cfg) : Nat := 2 * c.n + 1

end Sys2Proof
end

