-- ==== Sys2Proof/Machine/Float.lean ====
section
/-! DEFINITION. IEEE-754 binary32 arithmetic on bit patterns: the default instance of the numerics record `NUM`
(00_scope.md rules R7, R8; 92_eei_decisions.md D4; the properties of binary32 are the spec's G5).

A finite pattern stands for an integer count of units of 2^-149 (`f32Mag` of a subnormal is that count; a normal's is
its significand shifted by its exponent field less one), so sums are exact integers, products and quotients exact
ratios, and one function, `f32Round`, rounds every result once, to nearest, ties to even. -/

namespace Sys2Proof.Machine

/-- 2^149: how many units of 2^-149 make 1. -/
def unitsPerOne : Nat := Nat.pow 2 149

/-- The exponent field, bits 30:23 (R86). -/
def f32Exp (x : F32) : Nat := x.toNat / 8388608 % 256

/-- The fraction field, bits 22:0 (R86). -/
def f32Frac (x : F32) : Nat := x.toNat % 8388608

/-- The sign bit, bit 31 (R86). -/
def f32Sign (x : F32) : Bool := Nat.ble 2147483648 x.toNat

/-- Bits 30:0. -/
def f32Body (x : F32) : Nat := x.toNat % 2147483648

/-- The pattern is a NaN. -/
def f32IsNaN (x : F32) : Bool := Nat.blt 2139095040 (f32Body x)

/-- The pattern is an infinity of either sign. -/
def f32IsInf (x : F32) : Bool := Nat.beq (f32Body x) 2139095040

/-- `isfinite` (R7): neither infinite nor NaN. -/
def f32IsFinite (x : F32) : Bool := Nat.blt (f32Body x) 2139095040

/-- The pattern is a zero of either sign. -/
def f32IsZero (x : F32) : Bool := Nat.beq (f32Body x) 0

/-- The magnitude of a finite pattern in units of 2^-149. -/
def f32Mag (x : F32) : Nat :=
  if f32Exp x = 0 then f32Frac x else (f32Frac x + 8388608) * Nat.pow 2 (f32Exp x - 1)

/-- The value of a finite pattern in units of 2^-149. -/
def f32Val (x : F32) : Int := if f32Sign x then -(f32Mag x : Int) else (f32Mag x : Int)

/-- The pattern with sign `neg` and bits 30:0 `body`. -/
def f32Pack (neg : Bool) (body : Nat) : F32 :=
  BitVec.ofNat 32 (if neg then body + 2147483648 else body)

/-- The infinity of sign `neg`. -/
def f32Inf (neg : Bool) : F32 := f32Pack neg 2139095040

/-- The zero of sign `neg`. -/
def f32Zero (neg : Bool) : F32 := f32Pack neg 0

/-- The NaN made of free bits: their sign and fraction, the fraction replaced by its top bit if it is zero. Every NaN
pattern is made of some bits, and nothing but a NaN is. -/
def f32NaNOf (bits : BitVec 32) : F32 :=
  f32Pack (f32Sign bits) (if f32Frac bits = 0 then 2143289344 else 2139095040 + f32Frac bits)

/-- The NaN an operation answers on these operands: a free value (assumption log 5). -/
def f32NaN (op : NanOp) (x y : F32) : F32 := f32NaNOf (Config.nanBits op x y)

/-- `num / den` rounded to the nearest integer, ties to even. -/
def roundHalfEven (num den : Nat) : Nat :=
  let q := num / den
  let r := num % den
  if Nat.blt den (2 * r) || (Nat.beq (2 * r) den && Nat.beq (q % 2) 1) then q + 1 else q

/-- How many low bits of a magnitude of integer part `t` units lie below a 24-bit significand. -/
def roundShift (t : Nat) : Nat := Nat.log2 t - 23

/-- Bits 30:0 of the binary32 nearest to `num / den` units of 2^-149, ties to even; an overflow is the infinity (R7).
`sh * 2^23 + q` is the pattern of `q * 2^sh` units for a significand `q` of at most 24 bits. -/
def f32RoundBody (num den : Nat) : Nat :=
  let sh := roundShift (num / den)
  let body := sh * 8388608 + roundHalfEven num (den * Nat.pow 2 sh)
  if Nat.blt body 2139095040 then body else 2139095040

/-- The binary32 of sign `neg` nearest to `num / den` units of 2^-149 (R7: rounds once, to nearest, ties to even). -/
def f32Round (neg : Bool) (num den : Nat) : F32 := f32Pack neg (f32RoundBody num den)

/-- `fneg` (R7, exact): the sign bit flipped, for every pattern. -/
def f32Neg (x : F32) : F32 := f32Pack (!f32Sign x) (f32Body x)

/-- `fabs` (R7, exact): the sign bit cleared, for every pattern. -/
def f32Abs (x : F32) : F32 := f32Pack false (f32Body x)

/-- The sum of two patterns that are not NaN and not opposite infinities. An exact zero sum is `-0` only where both
operands are negative. -/
def f32AddNum (x y : F32) : F32 :=
  if f32IsInf x then x
  else if f32IsInf y then y
  else
    let v := f32Val x + f32Val y
    if v = 0 then f32Zero (f32Sign x && f32Sign y)
    else f32Round (decide (v < 0)) v.natAbs 1

/-- `fadd` (R7). -/
def f32Add (x y : F32) : F32 :=
  if f32IsNaN x || f32IsNaN y || (f32IsInf x && f32IsInf y && (f32Sign x != f32Sign y)) then f32NaN .add x y
  else f32AddNum x y

/-- `fsub` (R7). -/
def f32Sub (x y : F32) : F32 :=
  if f32IsNaN x || f32IsNaN y || (f32IsInf x && f32IsInf y && (f32Sign x == f32Sign y)) then f32NaN .sub x y
  else f32AddNum x (f32Neg y)

/-- `fmul` (R7). -/
def f32Mul (x y : F32) : F32 :=
  if f32IsNaN x || f32IsNaN y || (f32IsInf x && f32IsZero y) || (f32IsZero x && f32IsInf y) then f32NaN .mul x y
  else if f32IsInf x || f32IsInf y then f32Inf (f32Sign x != f32Sign y)
  else f32Round (f32Sign x != f32Sign y) (f32Mag x * f32Mag y) unitsPerOne

/-- `fdiv` (R7). -/
def f32Div (x y : F32) : F32 :=
  if f32IsNaN x || f32IsNaN y || (f32IsInf x && f32IsInf y) || (f32IsZero x && f32IsZero y) then f32NaN .div x y
  else if f32IsInf x || f32IsZero y then f32Inf (f32Sign x != f32Sign y)
  else if f32IsInf y then f32Zero (f32Sign x != f32Sign y)
  else f32Round (f32Sign x != f32Sign y) (f32Mag x * unitsPerOne) (f32Mag y)

/-- `i2f` (R7): rounds to nearest even. -/
def f32OfInt (i : Int) : F32 := f32Round (decide (i < 0)) (i.natAbs * unitsPerOne) 1

/-- `ffloor` (R7, exact): the greatest integer not above a finite pattern; infinities and zeros are their own floor. -/
def f32Floor (x : F32) : F32 :=
  if f32IsNaN x then f32NaN .floor x x
  else if f32IsInf x || f32IsZero x then x
  else f32OfInt (f32Val x / (unitsPerOne : Int))

/-- `f2i` (R7): the integer a finite integral pattern stands for, `none` for any other pattern. -/
def f32ToInt (x : F32) : Option Int :=
  if f32IsFinite x && Nat.beq (f32Mag x % unitsPerOne) 0 then
    some (if f32Sign x then -((f32Mag x / unitsPerOne : Nat) : Int) else ((f32Mag x / unitsPerOne : Nat) : Int))
  else none

/-- The place of a pattern that is not NaN in the order of binary32; both zeros have place 0. -/
def f32Key (x : F32) : Int := if f32Sign x then -(f32Body x : Int) else (f32Body x : Int)

/-- `flt` (R7): false if either operand is NaN. -/
def f32Lt (x y : F32) : Bool := !f32IsNaN x && !f32IsNaN y && decide (f32Key x < f32Key y)

/-- `fle` (R7): false if either operand is NaN. -/
def f32Le (x y : F32) : Bool := !f32IsNaN x && !f32IsNaN y && decide (f32Key x ≤ f32Key y)

/-- `fgt` (R7). -/
def f32Gt (x y : F32) : Bool := f32Lt y x

/-- `fge` (R7). -/
def f32Ge (x y : F32) : Bool := f32Le y x

/-- `feq` (R7): `-0 = +0`, and a NaN equals nothing. -/
def f32Eq (x y : F32) : Bool := !f32IsNaN x && !f32IsNaN y && decide (f32Key x = f32Key y)

/-- The default instance of `NUM` (R7, D4), with the open `atan2` (R9, D6). -/
def ieee : Num where
  fadd := f32Add
  fsub := f32Sub
  fmul := f32Mul
  fdiv := f32Div
  ffloor := f32Floor
  fabs := f32Abs
  fneg := f32Neg
  flt := f32Lt
  fle := f32Le
  fgt := f32Gt
  fge := f32Ge
  feq := f32Eq
  isfinite := f32IsFinite
  i2f := f32OfInt
  f2i := f32ToInt
  atan2 := Config.atan2

end Sys2Proof.Machine
end

