-- ==== Sys2Proof/Machine/Constants.lean ====
section
/-! DEFINITION. The named constants (00_scope.md rule R10), the sync pattern (30_encoding.md rules R82 to R84), the ideal
phases (R80), and the hardware's own parameter record. A decimal literal of a rule is the binary32 nearest to it (R8). -/

namespace Sys2Proof.Machine

/-! Literals of the rules. -/

def zeroF : F32 := 0x00000000#32
def oneF : F32 := 0x3F800000#32
def twoF : F32 := 0x40000000#32
def fourF : F32 := 0x40800000#32
def fiveF : F32 := 0x40A00000#32
def twentyFourF : F32 := 0x41C00000#32
def rowsF : F32 := 0x43000000#32

/-! R10. -/

def piF : F32 := 0x40490FDB#32
def twoPiF : F32 := 0x40C90FDB#32
def halfPiF : F32 := 0x3FC90FDB#32
def quarterPiF : F32 := 0x3F490FDB#32
def threeQPiF : F32 := 0x4016CBE4#32
def eighthPiF : F32 := 0x3EC90FDB#32
def scGainF : F32 := 0x3D8F5C29#32
def obsGainF : F32 := 0x39807358#32
def clampFracF : F32 := 0x3A03126F#32
def noiseMultF : F32 := 0x3F99999A#32
def stepF : F32 := 0x3DCCCCCD#32
def syncThresholdF : F32 := 0x42A00000#32

/-- `ONE_MINUS_CF`, the formula of R10. -/
def oneMinusCf (c : Cfg) : F32 := c.num.fsub oneF clampFracF

/-- `ONE_PLUS_CF`, the formula of R10. -/
def onePlusCf (c : Cfg) : F32 := c.num.fadd oneF clampFracF

/-- `ideal(d)` (R80). -/
def ideal : Dibit → F32
  | .d00Plus1 => 0x3F490FDB#32
  | .d01Plus3 => 0x4016CBE4#32
  | .d10Minus1 => 0xBF490FDB#32
  | .d11Minus3 => 0xC016CBE4#32

/-- `SYNC_PATTERN` (R82), SRC's literal (G4 remarks on it). -/
def syncPattern : BitVec 48 := 0x755FD7DFD57D#48

/-- `SYNC_DIBITS[k] = SYNC_PATTERN[47-2k : 46-2k]` (R83). -/
def syncDibits : List Dibit := unpackDibits 24 syncPattern.toNat

/-- `SYNC_REF[k] = ideal(SYNC_DIBITS[k])` (R84). -/
def syncRef : List F32 := syncDibits.map ideal

/-- The block as the theorems about `exec` and `step` take it: the open parameters of Config.lean, and for every other
the default of R6. -/
def hw : Cfg where
  num := ieee
  taps := Config.taps
  n := 12
  step := stepF
  obsGain := obsGainF
  noiseMult := noiseMultF
  w := 1
  bufCap := Config.bufCapExtra + 15
  eqMode := .residual

end Sys2Proof.Machine
end

