-- ==== Sys2Proof/Machine/State.lean ====
section
/-! DEFINITION. The state of the block, plain data (10_state.md; 20_memory.md rule R60), why a step can stop, and the
state after power-on (10_state.md rule R48; 70_reset_and_hazards.md rules R230, R231). -/

namespace Sys2Proof.Machine

/-- The states of the symbol state machine (R33, D38). -/
inductive SeqState where
  | await
  | decide
  | updateLoop
  | equalize
  | correlate
  | emit
deriving DecidableEq, Repr

/-- The storage spaces an index may fall outside of (R13, R60). -/
inductive Store where
  | ibuf | qbuf | taps | dly | eqZ | eqA | eqQ | sdS | ddl | operand
deriving DecidableEq, Repr

/-- Why the machine stops with a fault. The spec's own command faults (R206) are not here: they end a command with a
response and the block goes on. -/
inductive Fault where
  /-- An access to an index a storage space does not have. Raised by the access operations of Ops.lean and Operands.lean
  wherever a rule indexes a space. R13 and R62 say that such a read has no meaning and must return no value (I10). Safe:
  the model stops where the spec gives nothing. Assumption log 8. -/
  | indexOutOfRange (store : Store) (index : Int)
deriving DecidableEq, Repr

/-- Why an instruction has no meaning on these values. -/
inductive Refusal where
  /-- An instruction with no meaning yet, by its mnemonic. Raised by `exec` only. Safe. -/
  | notModelled (mnemonic : String)
  /-- `INTERP` with a fraction outside `[0, 1)` (R114: "has no meaning; a model refuses it"). Raised by `interpOp`.
  Safe. -/
  | interpFraction (mu : F32)
  /-- `f2i` of a value that is not finite and integral (R7; I19 says refuse). Raised by `toInt`. Safe. -/
  | toIntUndefined (x : F32)
  /-- The micro-sequencer's slot holds no unit operation of R96. Raised by `step`. Safe. -/
  | badMicroOp (header : Word)
deriving DecidableEq, Repr

/-- The value a unit operation returned when it was run on its own (the model's own, assumption log 7). -/
inductive Ret where
  | none
  | f32 (x : F32)
  | pair (x y : F32)
  | dibit (d : Dibit)
deriving DecidableEq, Repr

/-- A sample memory (R44, R60): (sample index, F32) pairs, indices strictly rising, no pair holding what an unlisted index
reads as. -/
abbrev SampleMem := List (Nat × F32)

/-- What an unlisted index of a sample memory reads as: the `+0.0` that reset writes (R44, R48). -/
def sampleDefault : F32 := 0x00000000#32

/-- The canonical form of a sample memory: indices rise strictly from at least `lo`, and no cell holds the value an
unlisted index reads as. -/
def SampleMem.wfFrom : Nat → SampleMem → Bool
  | _, [] => true
  | lo, (i, v) :: m => Nat.ble lo i && (v != sampleDefault) && SampleMem.wfFrom (i + 1) m

/-- The canonical form holds. -/
def SampleMem.wf (m : SampleMem) : Bool := m.wfFrom 0

/-- The whole state. -/
structure State where
  /-- `SYMBOL_RATE`, signed 32-bit (R21). -/
  symbolRate : BitVec 32
  /-- `SAMPLE_RATE` (R22). -/
  sampleRate : F32
  /-- `MU` (R23). -/
  mu : F32
  /-- `IOFF` (R24). -/
  ioff : Int
  /-- `OVERLAP` (R25). -/
  overlap : Nat
  /-- `BUF_LEN` (R26). -/
  bufLen : Nat
  /-- `NOMINAL_SPS` (R27). `OBS_LO`, `OBS_HI`, `NOISE_THR` are functions of it, not state. -/
  nominalSps : F32
  /-- `OBSERVED_SPS` (R28). -/
  observedSps : F32
  /-- `SAMPLE_POINT` (R29). -/
  samplePoint : F32
  /-- `PREVIOUS_PHASE` (R30). -/
  previousPhase : F32
  /-- `SSR` (R31). -/
  ssr : BitVec 48
  /-- `NOISY`, the one status flag (R32). -/
  noisy : Bool
  /-- `SEQ` (R33). -/
  seq : SeqState
  /-- `DLY[0..15]` (R34). -/
  dly : List F32
  /-- `DLY_PTR` (R34). -/
  dlyPtr : Nat
  /-- `EQ_Z[0..2L-1]` (R35). -/
  eqZ : List F32
  /-- `EQ_A[0..2L-1]` (R36). -/
  eqA : List F32
  /-- `EQ_Q[0..L-1]` (R37). -/
  eqQ : List F32
  /-- `EQ_P` (R38). -/
  eqP : Nat
  /-- `SD_S[0..47]` (R39). -/
  sdS : List F32
  /-- `SD_I` (R39). -/
  sdI : Nat
  /-- `DDL[0..23]` (R41). -/
  ddl : List Dibit
  /-- `DDL_PTR` (R41). -/
  ddlPtr : Nat
  /-- `CTRL.SYNC_RETUNE_EN` (R43). -/
  retuneEn : Bool
  /-- `IBUF`, its valid entries (R44). -/
  ibuf : SampleMem
  /-- `QBUF`, its valid entries (R44). -/
  qbuf : SampleMem
  /-- `OUTQ` (R45). -/
  outq : List Dibit
  /-- The words the host has put on the command port and the block has not consumed (R87). -/
  port : List Word
  /-- The response to the last command, header first (R87, R90). -/
  resp : List Word
  /-- The model's own: the words in the micro-sequencer's slot, empty unless a unit operation is to be run on its own
  (R96; assumption log 7). -/
  micro : List Word
  /-- The model's own: the value the last unit operation run on its own returned (assumption log 7). -/
  ret : Ret
deriving DecidableEq, Repr

/-- `EQ_Q` at reset: the centre tap 1.0, every other `+0.0` (R37, R48). -/
def resetTaps (c : Cfg) : List F32 := List.replicate c.n zeroF ++ oneF :: List.replicate c.n zeroF

/-- The power-on state (R231): what `CFG 4800, 50000.0, 1` produces, with nothing on the port. -/
def State.reset : State where
  symbolRate := 4800#32
  sampleRate := 0x47435000#32
  mu := 0x3ED55560#32
  ioff := 6
  overlap := 14
  bufLen := 14
  nominalSps := 0x4126AAAB#32
  observedSps := 0x4126AAAB#32
  samplePoint := 0x4126AAAB#32
  previousPhase := zeroF
  ssr := 0#48
  noisy := false
  seq := .await
  dly := List.replicate 16 zeroF
  dlyPtr := 0
  eqZ := List.replicate (2 * hw.len) zeroF
  eqA := List.replicate (2 * hw.len) zeroF
  eqQ := resetTaps hw
  eqP := 0
  sdS := List.replicate 48 zeroF
  sdI := 0
  ddl := List.replicate 24 .d00Plus1
  ddlPtr := 0
  retuneEn := true
  ibuf := []
  qbuf := []
  outq := []
  port := []
  resp := []
  micro := []
  ret := .none

end Sys2Proof.Machine
end

