-- ==== Sys2Proof/Machine/Ops.lean ====
section
/-! DEFINITION. The shared operations: reading and writing the storage spaces (20_memory.md; 00_scope.md rule R13), sums
in the spec's order (R8), integer conversion (R7), responses and command faults (30_encoding.md rule R90; 60_exceptions.md
rules R206, R207), `UPDOBS` (44_facade_commands.md rule R166) and the procedure `RESET` (70_reset_and_hazards.md rule
R230). -/

namespace Sys2Proof.Machine

/-! Results. -/

/-- Why an operation stopped. -/
inductive Stop where
  | fault (f : Fault)
  | refused (r : Refusal)
deriving DecidableEq, Repr

/-- What an operation answers: a value, or why it stopped. -/
abbrev Res (α : Type) := Except Stop α

/-- The outcome of a step whose new state, if there is one, is the result. -/
def outcome : Res State → Host.Outcome State Fault Refusal
  | .ok s => .next s
  | .error (.fault f) => .fault f
  | .error (.refused r) => .refused r

/-- The outcome of a unit operation run on its own that returned a value and changed nothing else (assumption log 7). -/
def outcomeRet (s : State) : Res Ret → Host.Outcome State Fault Refusal
  | .ok r => .next { s with ret := r }
  | .error (.fault f) => .fault f
  | .error (.refused r) => .refused r

/-- The stop at an index a space does not have (R13). -/
def outOfRange {α : Type} (st : Store) (i : Int) : Res α := .error (.fault (.indexOutOfRange st i))

/-! Register files (R34 to R41): a list holds the cells, and an index outside it is refused (R13). -/

/-- `A[i]`. -/
def cellGet {α : Type} (st : Store) (xs : List α) (i : Nat) : Res α :=
  match xs[i]? with
  | some v => .ok v
  | none => outOfRange st i

/-- `A[i] <- v`. -/
def cellSet {α : Type} (st : Store) (xs : List α) (i : Nat) (v : α) : Res (List α) :=
  if i < xs.length then .ok (xs.set i v) else outOfRange st i

/-- The two cells of a pair of a duplicated ring of `m` entries written with one value in one step (R47). -/
def pairSet {α : Type} (st : Store) (xs : List α) (m i : Nat) (v : α) : Res (List α) := do
  let ys ← cellSet st xs i v
  cellSet st ys (i + m) v

/-- The index an integer is, if it is one. -/
def natIndex (st : Store) (i : Int) : Res Nat := if i < 0 then outOfRange st i else .ok i.toNat

/-- The `n` values read at indices `i, i+1, …, i+n-1`, in that order. -/
def readRun {α : Type} (f : Nat → Res α) (i : Nat) : Nat → Res (List α)
  | 0 => .ok []
  | n + 1 => do
    let v ← f i
    let vs ← readRun f (i + 1) n
    .ok (v :: vs)

/-! Sample memories (R44, R60). -/

/-- What a sample memory holds at an index: the listed value, or what an unlisted index reads as. -/
def SampleMem.get : SampleMem → Nat → F32
  | [], _ => sampleDefault
  | (j, v) :: m, i => if i < j then sampleDefault else if i = j then v else SampleMem.get m i

/-- A sample memory with one index written, in canonical form. -/
def SampleMem.set : SampleMem → Nat → F32 → SampleMem
  | [], i, v => if v = sampleDefault then [] else [(i, v)]
  | (j, w) :: m, i, v =>
    if i < j then (if v = sampleDefault then (j, w) :: m else (i, v) :: (j, w) :: m)
    else if i = j then (if v = sampleDefault then m else (i, v) :: m)
    else (j, w) :: SampleMem.set m i v

/-- A sample memory with a run of values written from an index on, in ascending order. -/
def SampleMem.setRun (m : SampleMem) : Nat → List F32 → SampleMem
  | _, [] => m
  | i, v :: vs => SampleMem.setRun (m.set i v) (i + 1) vs

/-- The sample memory after its cells `[0, BUF_LEN)` have been written with the given values. A cell at or beyond
`BUF_LEN` has no content the spec gives and is never read (R44, I9), so none is kept. Refused if the values do not fit
`BUF_CAP` (R13, R44). -/
def sampleLoad (c : Cfg) (st : Store) (vals : List F32) : Res SampleMem :=
  if vals.length ≤ c.bufCap then .ok (SampleMem.setRun [] 0 vals) else outOfRange st c.bufCap

/-- `MemRead(IBUF, i)`, with `[0, BUF_LEN)` the index range (R60). -/
def ibufRead (s : State) (i : Nat) : Res F32 := if i < s.bufLen then .ok (s.ibuf.get i) else outOfRange .ibuf i

/-- `MemRead(QBUF, i)`, with `[0, BUF_LEN)` the index range (R60). -/
def qbufRead (s : State) (i : Nat) : Res F32 := if i < s.bufLen then .ok (s.qbuf.get i) else outOfRange .qbuf i

/-- `TAPS[r][k]` (R40): 128 rows of 8. -/
def tapRead (c : Cfg) (r k : Nat) : Res F32 :=
  if r < 128 then (if k < 8 then .ok (c.taps r k) else outOfRange .taps k) else outOfRange .taps r

/-! Numerics (R7, R8). -/

/-- A sum accumulated in ascending index order from its first term (R8, D5). -/
def sumAsc (c : Cfg) : List F32 → F32
  | [] => zeroF
  | t :: ts => ts.foldl c.num.fadd t

/-- `sum_k xs[k] * ys[k]`, each product and each sum rounded (R8). -/
def dot (c : Cfg) (xs ys : List F32) : F32 := sumAsc c (List.zipWith c.num.fmul xs ys)

/-- `f2i` (R7), refused where it is not defined (I19). -/
def toInt (c : Cfg) (x : F32) : Res Int :=
  match c.num.f2i x with
  | some i => .ok i
  | none => .error (.refused (.toIntUndefined x))

/-! Values derived from `NOMINAL_SPS` (R27). -/

/-- `OBS_LO` for a nominal value. -/
def obsLoOf (c : Cfg) (nom : F32) : F32 := c.num.fmul nom (oneMinusCf c)

/-- `OBS_HI` for a nominal value. -/
def obsHiOf (c : Cfg) (nom : F32) : F32 := c.num.fmul nom (onePlusCf c)

/-- `OBS_LO`. -/
def obsLo (c : Cfg) (s : State) : F32 := obsLoOf c s.nominalSps

/-- `OBS_HI`. -/
def obsHi (c : Cfg) (s : State) : F32 := obsHiOf c s.nominalSps

/-- `NOISE_THR`. -/
def noiseThr (c : Cfg) (s : State) : F32 := c.num.fmul (c.num.fdiv twoPiF s.nominalSps) c.noiseMult

/-! Responses and command faults. -/

/-- The header of a response: `status` in bits 7:0, `count` in bits 31:8 (R90). -/
def respHeader (status count : Nat) : Word := BitVec.ofNat 32 (count * 256 + status)

/-- The command ends with status `OK` and this payload (R90). -/
def respondOk (payload : List Word) (s : State) : State := { s with resp := respHeader 0 payload.length :: payload }

/-- The command faults of R206. -/
inductive CmdFault where
  | illegalCommand
  | configError
  | batchTooLarge
  | badCsr
deriving DecidableEq, Repr

/-- The status code of a command fault (R206). -/
def CmdFault.status : CmdFault → Nat
  | .illegalCommand => 1
  | .configError => 2
  | .batchTooLarge => 3
  | .badCsr => 4

/-- Taking a command fault (R14, R206, R207, R211): the response is the fault's status with the one information word, and
the rest of the state is as it was when the command started. Nothing is saved, no mode changes, and there is no return
operation: the next command is accepted normally. -/
def raise (f : CmdFault) (info : Word) (s : State) : State := { s with resp := [respHeader f.status 1, info] }

/-- `emit d` (R15, R45). -/
def emit (d : Dibit) (s : State) : State := { s with outq := s.outq ++ [d] }

/-! `UPDOBS` and `RESET`. -/

/-- `OVERLAP` after `UPDOBS(s)` with `f` the floor of `s`: `f + 4` (R25, R166). Where that is negative, and so no natural,
the spec states no result, and it is a free value (DESIGN CHOICE, assumption log 13). -/
def overlapOf (sps : F32) (f : Int) : Nat := if f + 4 < 0 then Config.overlapBelow sps else (f + 4).toNat

/-- `UPDOBS(s)` (R166). -/
def updObsOp (c : Cfg) (sps : F32) (s : State) : Res State := do
  let fl := c.num.ffloor sps
  let f ← toInt c fl
  .ok { s with mu := c.num.fsub sps fl, ioff := f - 4, overlap := overlapOf sps f }

/-- The registers and register files that `RESET` writes without reading anything but `NOMINAL_SPS` (R230). -/
def resetRegs (c : Cfg) (s : State) : State :=
  { s with
    observedSps := s.nominalSps
    samplePoint := s.nominalSps
    previousPhase := zeroF
    ssr := 0#48
    noisy := false
    seq := .await
    dly := List.replicate 16 zeroF
    dlyPtr := 0
    eqZ := List.replicate (2 * c.len) zeroF
    eqA := List.replicate (2 * c.len) zeroF
    eqP := 0
    eqQ := resetTaps c
    sdS := List.replicate 48 zeroF
    sdI := 0
    ddl := List.replicate 24 .d00Plus1
    ddlPtr := 0
    outq := [] }

/-- The last line of `RESET` (R230): the first `OVERLAP` samples of both rails zero, and no others valid. -/
def resetBuffers (c : Cfg) (s : State) : Res State := do
  let m ← sampleLoad c .ibuf (List.replicate s.overlap zeroF)
  let q ← sampleLoad c .qbuf (List.replicate s.overlap zeroF)
  .ok { s with ibuf := m, qbuf := q, bufLen := s.overlap }

/-- The procedure `RESET` (R230), shared by `RST`, `CFG` and `SETFS`. -/
def resetOp (c : Cfg) (s : State) : Res State := do
  let s1 ← updObsOp c s.nominalSps (resetRegs c s)
  resetBuffers c s1

end Sys2Proof.Machine
end

