-- ==== Sys2Proof/Machine/Operands.lean ====
section
/-! DEFINITION. Operand forms: the three sequences `INTERP` reads (40_interpolator.md rule R110), the windows of the
equalizer (43_equalizer.md rule R150), and the payload words of a response (30_encoding.md rule R90). -/

namespace Sys2Proof.Machine

/-- `S[i]` for the sequence `S` an `INTERP` is given (R110). -/
def spaceRead (s : State) : Space → Nat → Res F32
  | .ibuf, i => ibufRead s i
  | .qbuf, i => qbufRead s i
  | .dly, i => cellGet .dly s.dly i

/-- The `L` entries of `EQ_Z` from `EQ_P` on, the oldest first (R150). -/
def eqWindowZ (c : Cfg) (s : State) : Res (List F32) := readRun (cellGet .eqZ s.eqZ) s.eqP c.len

/-- The `L` entries of `EQ_A` from `EQ_P` on, the oldest first (R150). -/
def eqWindowA (c : Cfg) (s : State) : Res (List F32) := readRun (cellGet .eqA s.eqA) s.eqP c.len

/-- The taps `EQ_Q[0..L-1]` (R37). -/
def eqTaps (c : Cfg) (s : State) : Res (List F32) := readRun (cellGet .eqQ s.eqQ) 0 c.len

/-- The residuals `r(l) = EQ_Z[EQ_P + l] - EQ_A[EQ_P + l]`, `l` from 0 to `L-1` (R150). -/
def eqResiduals (c : Cfg) (s : State) : Res (List F32) := do
  let z ← eqWindowZ c s
  let a ← eqWindowA c s
  .ok (List.zipWith c.num.fsub z a)

/-- An unsigned number as a payload word (R46). Of a number that does not fit the word, the low 32 bits (DESIGN CHOICE,
assumption log 25). -/
def natWord (n : Nat) : Word := BitVec.ofNat 32 n

/-- An integer as a payload word, sign-extended (R46). Of an integer that does not fit the word, the low 32 bits of its two's
complement (DESIGN CHOICE, assumption log 25). -/
def intWord (i : Int) : Word := BitVec.ofInt 32 i

/-- A bit as a payload word. -/
def bitWord (b : Bool) : Word := if b then 1#32 else 0#32

end Sys2Proof.Machine
end

