-- ==== Sys2Proof/Machine/Csr.lean ====
section
/-! DEFINITION. The register map that `RDCSR` reads (10_state.md rule R46). -/

namespace Sys2Proof.Machine

/-- `SEQ` as its number (R33, D38). -/
def SeqState.number : SeqState → Nat
  | .await => 0
  | .decide => 1
  | .updateLoop => 2
  | .equalize => 3
  | .correlate => 4
  | .emit => 5

/-- The scalar registers of the map, `0x000` to `0x015` (R46). -/
def csrScalar (c : Cfg) (s : State) (addr : Nat) : Option Word :=
  match addr with
  | 0x000 => some (bitWord s.retuneEn)
  | 0x001 => some s.symbolRate
  | 0x002 => some s.sampleRate
  | 0x003 => some s.nominalSps
  | 0x004 => some s.mu
  | 0x005 => some (intWord s.ioff)
  | 0x006 => some (natWord s.overlap)
  | 0x007 => some (natWord s.bufLen)
  | 0x008 => some s.observedSps
  | 0x009 => some s.samplePoint
  | 0x00A => some s.previousPhase
  | 0x00B => some (s.ssr.extractLsb' 0 32)
  | 0x00C => some ((s.ssr.extractLsb' 32 16).setWidth 32)
  | 0x00D => some (bitWord s.noisy)
  | 0x00E => some (natWord s.dlyPtr)
  | 0x00F => some (natWord s.eqP)
  | 0x010 => some (natWord s.sdI)
  | 0x011 => some (natWord s.ddlPtr)
  | 0x012 => some (obsLo c s)
  | 0x013 => some (obsHi c s)
  | 0x014 => some (noiseThr c s)
  | 0x015 => some (natWord s.seq.number)
  | _ => none

/-- The address lies in the window of `len` cells at `base`. -/
def inWindow (addr base len : Nat) : Bool := Nat.ble base addr && Nat.blt addr (base + len)

/-- What `RDCSR addr` finds (R46): a register's value, or `none` for an address not in the map. -/
def csrRead (c : Cfg) (s : State) (addr : Nat) : Res (Option Word) :=
  if inWindow addr 0x020 16 then do
    let v ← cellGet .dly s.dly (addr - 0x020)
    .ok (some v)
  else if inWindow addr 0x040 48 then do
    let v ← cellGet .sdS s.sdS (addr - 0x040)
    .ok (some v)
  else if inWindow addr 0x080 24 then do
    let d ← cellGet .ddl s.ddl (addr - 0x080)
    .ok (some d.toWord)
  else if inWindow addr 0x100 (2 * c.len) then do
    let v ← cellGet .eqZ s.eqZ (addr - 0x100)
    .ok (some v)
  else if inWindow addr 0x200 (2 * c.len) then do
    let v ← cellGet .eqA s.eqA (addr - 0x200)
    .ok (some v)
  else if inWindow addr 0x300 c.len then do
    let v ← cellGet .eqQ s.eqQ (addr - 0x300)
    .ok (some v)
  else .ok (csrScalar c s addr)

end Sys2Proof.Machine
end

