-- ==== Sys2Proof/Machine/Interpolator.lean ====
section
/-! DEFINITION. The interpolator (40_interpolator.md): `INTERP`. -/

namespace Sys2Proof.Machine

/-- `0 <= mu < 1`, the interpolator's precondition on its fraction (R110, R114). A NaN fails it. -/
def interpFractionOk (c : Cfg) (mu : F32) : Bool := c.num.fle zeroF mu && c.num.flt mu oneF

/-- The row number before conversion, `floor(mu * 128)` (R111). -/
def interpRow (c : Cfg) (mu : F32) : F32 := c.num.ffloor (c.num.fmul mu rowsF)

/-- `INTERP(S, off, mu)` (R110): the inner product of a tap row with eight cells, in ascending order. The scalar value
exactly (D5, I4; assumption log 6). -/
def interpOp (c : Cfg) (s : State) (sp : Space) (off : Nat) (mu : F32) : Res F32 :=
  if interpFractionOk c mu then do
    let r ← toInt c (interpRow c mu)
    let row ← natIndex .taps r
    let taps ← readRun (tapRead c row) 0 8
    let xs ← readRun (spaceRead s sp) off 8
    .ok (dot c taps xs)
  else .error (.refused (.interpFraction mu))

/-- `INTERP` (R110), run on its own. -/
def execInterp (sp : Space) (off : Nat) (mu : F32) (s : State) : Host.Outcome State Fault Refusal :=
  outcomeRet s (do
    let v ← interpOp hw s sp off mu
    .ok (.f32 v))

end Sys2Proof.Machine
end

