-- ==== Sys2Proof/Machine/Demodulator.lean ====
section
/-! DEFINITION. The differential demodulator (41_differential_demodulator.md): `CMULC`, `PHASE`, `DIFF`. -/

namespace Sys2Proof.Machine

/-- `CMULC(pI, pQ, cI, cQ) -> (dI, dQ)` (R120). -/
def cmulcOp (c : Cfg) (pI pQ cI cQ : F32) : F32 × F32 :=
  (c.num.fadd (c.num.fmul pI cI) (c.num.fmul pQ cQ), c.num.fsub (c.num.fmul pI cQ) (c.num.fmul cI pQ))

/-- `PHASE(dQ, dI)` (R123): `+0.0` where both compare equal to zero, else `atan2`. -/
def phaseOp (c : Cfg) (dQ dI : F32) : F32 :=
  if c.num.feq dQ zeroF && c.num.feq dI zeroF then zeroF else c.num.atan2 dQ dI

/-- `DIFF(x)` (R122). R122's operand is a cursor of `RECV`, `x < n`. A `DIFF` run on its own from the slot has no `n`: it is
then the pseudocode for every `x` whose reads are in range, below `BUF_LEN`, an `x` that no batch reaches among them (DESIGN
CHOICE, assumption log 24). -/
def diffOp (c : Cfg) (s : State) (x : Nat) : Res F32 := do
  let pI ← ibufRead s x
  let pQ ← qbufRead s x
  let off ← natIndex .ibuf (s.ioff + x)
  let cI ← interpOp c s .ibuf off s.mu
  let cQ ← interpOp c s .qbuf off s.mu
  let d := cmulcOp c pI pQ cI cQ
  .ok (phaseOp c d.2 d.1)

/-- `CMULC` (R120), run on its own. -/
def execCmulc (pI pQ cI cQ : F32) (s : State) : Host.Outcome State Fault Refusal :=
  let d := cmulcOp hw pI pQ cI cQ
  .next { s with ret := .pair d.1 d.2 }

/-- `PHASE` (R123), run on its own. -/
def execPhase (dQ dI : F32) (s : State) : Host.Outcome State Fault Refusal :=
  .next { s with ret := .f32 (phaseOp hw dQ dI) }

/-- `DIFF` (R122), run on its own, where no `n` bounds the cursor (assumption log 24). -/
def execDiff (x : Nat) (s : State) : Host.Outcome State Fault Refusal :=
  outcomeRet s (do
    let v ← diffOp hw s x
    .ok (.f32 v))

end Sys2Proof.Machine
end

