-- ==== Sys2Proof/Machine/Flags.lean ====
section
/-! DEFINITION. The flag `NOISY` (10_state.md rule R32; 42_symbol_processor.md rule R132), the guards that put `+0.0` in
the place of a value that is not finite (60_exceptions.md rule R215), and the sequencer's state (10_state.md rule R33). -/

namespace Sys2Proof.Machine

/-- The noise gate (R131, R132): the jump from the previous unwrapped sample to this one exceeds `NOISE_THR`, strictly. A
NaN jump does not. -/
def noiseGate (c : Cfg) (s : State) (cur : F32) : Bool :=
  c.num.fgt (c.num.fabs (c.num.fsub cur s.previousPhase)) (noiseThr c s)

/-- `NOISY` after the gate: set by it, otherwise as it was; only `SYMBOL` clears it (R132). -/
def gateNoisy (c : Cfg) (cur : F32) (s : State) : State := { s with noisy := s.noisy || noiseGate c s cur }

/-- `NOISY <- 0` at the end of `SYMBOL` (R134). -/
def clearNoisy (s : State) : State := { s with noisy := false }

/-- A value, or `+0.0` where it is not finite (R215). -/
def orZero (c : Cfg) (v : F32) : F32 := if c.num.isfinite v then v else zeroF

/-- `SEQ <- q` (R33). -/
def setSeq (q : SeqState) (s : State) : State := { s with seq := q }

end Sys2Proof.Machine
end

