-- ==== Sys2Proof/Machine/Equalizer.lean ====
section
/-! DEFINITION. The LMS equalizer (43_equalizer.md): `EQPROC`, `EQNOUPD`, `EQSYNC`. -/

namespace Sys2Proof.Machine

/-- `EQINSERT(d, phase)` (R151), the state advance `EQPROC` and `EQNOUPD` share. -/
def eqInsertOp (c : Cfg) (d : Dibit) (ph : F32) (s : State) : Res State := do
  let z ← pairSet .eqZ s.eqZ c.len s.eqP ph
  let a ← pairSet .eqA s.eqA c.len s.eqP (ideal d)
  .ok { s with eqZ := z, eqA := a, eqP := (s.eqP + 1) % c.len }

/-- The taps, each off the centre position `n` replaced by what `f` makes of it and its residual; `k` is the position of
the first (R152, R154: `l != N`). -/
def mapOffCentre (n : Nat) (f : F32 → F32 → F32) : Nat → List F32 → List F32 → List F32
  | k, q :: qs, r :: rs => (if k = n then q else f q r) :: mapOffCentre n f (k + 1) qs rs
  | _, _, _ => []

/-- The terms of the equalizer's sum: the residuals, except that in the mode `phase` the centre term is the phase itself
(R152, R155). -/
def eqTerms (c : Cfg) (rs : List F32) (zc : F32) : List F32 :=
  match c.eqMode with
  | .residual => rs
  | .phase => rs.set c.n zc

/-- One tap of the LMS update (R152): `EQ_Q[l] + (g * r(l))`, guarded. -/
def eqTapUpdate (c : Cfg) (g q r : F32) : F32 := orZero c (c.num.fadd q (c.num.fmul g r))

/-- `EQPROC(d, phase)` (R152, R155): the state after the insert and the tap update, and `y`. -/
def eqProcOp (c : Cfg) (d : Dibit) (ph : F32) (s : State) : Res (State × F32) := do
  let s1 ← eqInsertOp c d ph s
  let rs ← eqResiduals c s1
  let qs ← eqTaps c s1
  let zc ← cellGet .eqZ s1.eqZ (s1.eqP + c.n)
  let ac ← cellGet .eqA s1.eqA (s1.eqP + c.n)
  let y := orZero c (dot c (eqTerms c rs zc) qs)
  let e := c.num.fsub ac y
  let g := c.num.fmul (c.num.fmul twoF c.step) e
  .ok ({ s1 with eqQ := mapOffCentre c.n (eqTapUpdate c g) 0 qs rs }, y)

/-- `EQ_A` with the ideal phases of the given dibits written at window positions `L - 24 + k`, `L - 24 + k + 1`, … (R154). -/
def eqOverwrite (c : Cfg) (p : Nat) : Nat → List F32 → List Dibit → Res (List F32)
  | _, a, [] => .ok a
  | k, a, d :: ds => do
    let a' ← pairSet .eqA a c.len ((p + (c.len - 24) + k) % c.len) (ideal d)
    eqOverwrite c p (k + 1) a' ds

/-- One tap of the closed-form retuning (R154): `((-main) / 24.0) / r(x)`, guarded. -/
def eqTapRetune (c : Cfg) (main r : F32) : F32 := orZero c (c.num.fdiv (c.num.fdiv (c.num.fneg main) twentyFourF) r)

/-- `EQSYNC(T[0..23])` (R154). -/
def eqSyncOp (c : Cfg) (t : List Dibit) (s : State) : Res State :=
  if t.length = 24 then do
    let a ← eqOverwrite c s.eqP 0 s.eqA t
    let s1 := { s with eqA := a }
    let rs ← eqResiduals c s1
    let qs ← eqTaps c s1
    let main ← cellGet .eqZ rs c.n
    .ok { s1 with eqQ := mapOffCentre c.n (fun _ r => eqTapRetune c main r) 0 qs rs }
  else outOfRange .operand t.length

/-- `EQPROC` (R152), run on its own. -/
def execEqproc (d : Dibit) (ph : F32) (s : State) : Host.Outcome State Fault Refusal :=
  outcome (do
    let r ← eqProcOp hw d ph s
    .ok { r.1 with ret := .f32 r.2 })

/-- `EQNOUPD` (R153), run on its own: it returns nothing. -/
def execEqnoupd (d : Dibit) (ph : F32) (s : State) : Host.Outcome State Fault Refusal :=
  outcome (do
    let t ← eqInsertOp hw d ph s
    .ok { t with ret := .none })

/-- `EQSYNC` (R154), run on its own. -/
def execEqsync (t : List Dibit) (s : State) : Host.Outcome State Fault Refusal :=
  outcome (do
    let u ← eqSyncOp hw t s
    .ok { u with ret := .none })

end Sys2Proof.Machine
end

