-- ==== Sys2Proof/Machine/Decision.lean ====
section
/-! DEFINITION. The hard decision (45_hard_decision.md): `DECIDE`; and the timing-error calculator (46_timing_error.md):
`TERR`. Neither has state. -/

namespace Sys2Proof.Machine

/-- `DECIDE(phi)` (R185): four comparisons on the value as it is, without wrapping; NaN falls through them all (R186). -/
def decideOp (c : Cfg) (phi : F32) : Dibit :=
  if c.num.fgt phi halfPiF then .d01Plus3
  else if c.num.fgt phi zeroF then .d00Plus1
  else if c.num.fge phi (c.num.fneg halfPiF) then .d10Minus1
  else if c.num.flt phi (c.num.fneg halfPiF) then .d11Minus3
  else .d10Minus1

/-- A value clamped to `[-bound, bound]` by two comparisons, so that NaN passes through (R190, R192, R196, R197). -/
def clampSym (c : Cfg) (bound v : F32) : F32 :=
  if c.num.fgt v bound then bound
  else if c.num.flt v (c.num.fneg bound) then c.num.fneg bound
  else v

/-- `TERR(d, prec, this, foll)` (R190). -/
def terrOp (c : Cfg) (d : Dibit) (prec cur foll : F32) : F32 :=
  let e0 := clampSym c eighthPiF (c.num.fsub (ideal d) cur)
  if c.num.flt prec foll then e0 else c.num.fneg e0

/-- `DECIDE` (R185), run on its own. -/
def execDecide (phi : F32) (s : State) : Host.Outcome State Fault Refusal :=
  .next { s with ret := .dibit (decideOp hw phi) }

/-- `TERR` (R190), run on its own. -/
def execTerr (d : Dibit) (prec cur foll : F32) (s : State) : Host.Outcome State Fault Refusal :=
  .next { s with ret := .f32 (terrOp hw d prec cur foll) }

end Sys2Proof.Machine
end

