-- ==== Sys2Proof/Machine/Sync.lean ====
section
/-! DEFINITION. The sync detector and the dibit delay line (47_sync_detector_dibit_delay.md): `SYNCCORR`, `DDLPUSH`,
`DDLSYNC`. -/

namespace Sys2Proof.Machine

/-- `SYNCCORR(phase)` (R196): the state after the insert, and the score taken after it. -/
def syncCorrOp (c : Cfg) (ph : F32) (s : State) : Res (State × F32) := do
  let ring ← pairSet .sdS s.sdS 24 s.sdI (clampSym c threeQPiF ph)
  let i := (s.sdI + 1) % 24
  let window ← readRun (cellGet .sdS ring) i 24
  .ok ({ s with sdS := ring, sdI := i }, dot c syncRef window)

/-- `DDLPUSH(d)` (R198): the state after the oldest dibit has given its place to `d`, and that oldest dibit. -/
def ddlPushOp (d : Dibit) (s : State) : Res (State × Dibit) := do
  let out ← cellGet .ddl s.ddl s.ddlPtr
  let ring ← cellSet .ddl s.ddl s.ddlPtr d
  .ok ({ s with ddl := ring, ddlPtr := (s.ddlPtr + 1) % 24 }, out)

/-- A ring of 24 dibits with the given ones written at `p + k`, `p + k + 1`, … mod 24 (R199). -/
def ddlOverwrite (p : Nat) : Nat → List Dibit → List Dibit → Res (List Dibit)
  | _, ring, [] => .ok ring
  | k, ring, d :: ds => do
    let ring' ← cellSet .ddl ring ((p + k) % 24) d
    ddlOverwrite p (k + 1) ring' ds

/-- `DDLSYNC()` (R199): every stored dibit replaced by the sync pattern's, oldest first; `DDL_PTR` unchanged. -/
def ddlSyncOp (s : State) : Res State := do
  let ring ← ddlOverwrite s.ddlPtr 0 s.ddl syncDibits
  .ok { s with ddl := ring }

/-- `SYNCCORR` (R196), run on its own. -/
def execSynccorr (ph : F32) (s : State) : Host.Outcome State Fault Refusal :=
  outcome (do
    let r ← syncCorrOp hw ph s
    .ok { r.1 with ret := .f32 r.2 })

/-- `DDLPUSH` (R198), run on its own. -/
def execDdlpush (d : Dibit) (s : State) : Host.Outcome State Fault Refusal :=
  outcome (do
    let r ← ddlPushOp d s
    .ok { r.1 with ret := .dibit r.2 })

/-- `DDLSYNC` (R199), run on its own. -/
def execDdlsync (s : State) : Host.Outcome State Fault Refusal :=
  outcome (do
    let t ← ddlSyncOp s
    .ok { t with ret := .none })

end Sys2Proof.Machine
end

