-- ==== Sys2Proof/Machine/SymbolProcessor.lean ====
section
/-! DEFINITION. The symbol processor (42_symbol_processor.md): `UNWRAP`, `SPSAMPLE`, `SYMBOL`, `LOOPUPD`. -/

namespace Sys2Proof.Machine

/-- `UNWRAP(c, p)` (R135). -/
def unwrapOp (c : Cfg) (cur prev : F32) : F32 :=
  let d := c.num.fsub cur prev
  if c.num.fgt d piF then c.num.fsub cur twoPiF
  else if c.num.flt d (c.num.fneg piF) then c.num.fadd cur twoPiF
  else cur

/-- `OBSERVED_SPS` after `LOOPUPD(eps)` (R136): not finite goes to nominal, before the clamp. -/
def loopObserved (c : Cfg) (eps : F32) (s : State) : F32 :=
  let o := c.num.fadd s.observedSps (c.num.fmul eps c.obsGain)
  if !c.num.isfinite o then s.nominalSps
  else if c.num.fgt o (obsHi c s) then obsHi c s
  else if c.num.flt o (obsLo c s) then obsLo c s
  else o

/-- `LOOPUPD(eps)` (R136): the re-arm uses the updated `OBSERVED_SPS`. -/
def loopUpdOp (c : Cfg) (eps : F32) (s : State) : State :=
  let o := loopObserved c eps s
  { s with
    observedSps := o
    samplePoint := c.num.fadd s.samplePoint (c.num.fadd o (c.num.fmul eps scGainF)) }

/-- `SYMBOL` in the state DECIDE (R134): the interpolated phase, the interim decision, and the timing error, which is zero
for a noisy symbol. -/
def symbolDecide (c : Cfg) (s : State) : Res (F32 × Dibit × F32) := do
  let phi ← interpOp c s .dly s.dlyPtr s.samplePoint
  let prec ← cellGet .dly s.dly (s.dlyPtr + 3)
  let foll ← cellGet .dly s.dly (s.dlyPtr + 4)
  let d0 := decideOp c phi
  .ok (phi, d0, if s.noisy then zeroF else terrOp c d0 prec phi foll)

/-- `SYMBOL` in the state EQUALIZE (R134, R137): the state, the final decision, and the phase for the sync detector. -/
def symbolEqualize (c : Cfg) (phi : F32) (d0 : Dibit) (s : State) : Res (State × Dibit × F32) :=
  if s.noisy then do
    let t ← eqInsertOp c d0 phi s
    .ok (t, d0, phi)
  else do
    let r ← eqProcOp c d0 phi s
    .ok (r.1, decideOp c r.2, r.2)

/-- The final decision shifted into `SSR` (R85, R140). -/
def shiftSsr (d : Dibit) (s : State) : State := { s with ssr := (s.ssr <<< 2) ||| d.value.setWidth 48 }

/-- `SYMBOL` in the state CORRELATE (R134): the state and the score. -/
def symbolCorrelate (c : Cfg) (d1 : Dibit) (pc : F32) (s : State) : Res (State × F32) := do
  let r ← syncCorrOp c pc s
  .ok (shiftSsr d1 r.1, r.2)

/-- The score is a sync event (R138): strictly above the threshold, so a NaN is none. -/
def isSyncEvent (c : Cfg) (score : F32) : Bool := c.num.fgt score syncThresholdF

/-- `SYMBOL` in the state EMIT (R134, R138, R139). -/
def symbolEmit (c : Cfg) (score : F32) (d1 : Dibit) (s : State) : Res State :=
  if isSyncEvent c score then do
    let t ← ddlSyncOp s
    let out ← cellGet .operand syncDibits 0
    let u ← if t.retuneEn then eqSyncOp c syncDibits t else .ok t
    .ok (emit out u)
  else do
    let r ← ddlPushOp d1 s
    .ok (emit r.2 r.1)

/-- `SYMBOL()` (R134), through the states of `SEQ` in their order (R33). -/
def symbolOp (c : Cfg) (s : State) : Res State := do
  let p ← symbolDecide c (setSeq .decide s)
  let s1 := loopUpdOp c p.2.2 (setSeq .updateLoop s)
  let e ← symbolEqualize c p.1 p.2.1 (setSeq .equalize s1)
  let k ← symbolCorrelate c e.2.1 e.2.2 (setSeq .correlate e.1)
  let t ← symbolEmit c k.2 e.2.1 (setSeq .emit k.1)
  .ok (setSeq .await (clearNoisy t))

/-- `SPSAMPLE(phi_in)` up to its test (R131): unwrap, gate, save, insert, advance, decrement. -/
def spInsertOp (c : Cfg) (phiIn : F32) (s : State) : Res State := do
  let cur := unwrapOp c phiIn s.previousPhase
  let s1 := gateNoisy c cur s
  let ring ← pairSet .dly s1.dly 8 s1.dlyPtr cur
  .ok { s1 with
    previousPhase := cur
    dly := ring
    dlyPtr := (s1.dlyPtr + 1) % 8
    samplePoint := c.num.fsub s1.samplePoint oneF }

/-- `SPSAMPLE(phi_in)` (R131). -/
def spSampleOp (c : Cfg) (phiIn : F32) (s : State) : Res State := do
  let t ← spInsertOp c phiIn s
  if c.num.flt t.samplePoint oneF then symbolOp c t else .ok t

/-- `UNWRAP` (R135), run on its own. -/
def execUnwrap (cur prev : F32) (s : State) : Host.Outcome State Fault Refusal :=
  .next { s with ret := .f32 (unwrapOp hw cur prev) }

/-- `LOOPUPD` (R136), run on its own. -/
def execLoopupd (eps : F32) (s : State) : Host.Outcome State Fault Refusal :=
  .next { loopUpdOp hw eps s with ret := .none }

/-- `SYMBOL` (R134), run on its own. -/
def execSymbol (s : State) : Host.Outcome State Fault Refusal :=
  outcome (do
    let t ← symbolOp hw s
    .ok { t with ret := .none })

/-- `SPSAMPLE` (R131), run on its own. -/
def execSpsample (phiIn : F32) (s : State) : Host.Outcome State Fault Refusal :=
  outcome (do
    let t ← spSampleOp hw phiIn s
    .ok { t with ret := .none })

end Sys2Proof.Machine
end

