-- ==== Sys2Proof/Machine/Facade.lean ====
section
/-! DEFINITION. The demodulator facade (44_facade_commands.md): `UPDOBS`, `RECV`, `CFG` with `CHECK`, `SETFS`, `RST`,
`RDCSR`. -/

namespace Sys2Proof.Machine

/-! Configuration. -/

/-- `NOMINAL_SPS` for a symbol rate and a sample rate (R27). -/
def nominalOf (c : Cfg) (sr : Word) (fs : F32) : F32 := c.num.fdiv fs (c.num.i2f sr.toInt)

/-- `CHECK(sr, fs)` (R172): 0, or the code of the first check that fails. -/
def check (c : Cfg) (sr : Word) (fs : F32) : Nat :=
  let lo := obsLoOf c (nominalOf c sr fs)
  let hi := obsHiOf c (nominalOf c sr fs)
  if sr.toInt ≤ 0 then 1
  else if !c.num.isfinite fs then 2
  else if c.num.fle fs (c.num.fmul (c.num.i2f sr.toInt) twoF) then 3
  else if c.num.flt (c.num.ffloor lo) fourF || c.num.fgt (c.num.fsub (c.num.ffloor hi) (c.num.ffloor lo)) oneF then 4
  else if c.num.fgt (c.num.fadd (c.num.ffloor hi) fiveF) (c.num.i2f c.bufCap) then 4
  else 0

/-- The rates and the control bit a configuration writes before `RESET` (R171). -/
def setRates (c : Cfg) (sr : Word) (fs : F32) (retune : Bool) (s : State) : State :=
  { s with symbolRate := sr, sampleRate := fs, retuneEn := retune, nominalSps := nominalOf c sr fs }

/-- A checked configuration (R171, R173): `ConfigError` with nothing written, or the rates, `RESET`, and `OK`. -/
def configureOp (c : Cfg) (sr : Word) (fs : F32) (retune : Bool) (s : State) : Res State :=
  let code := check c sr fs
  if code = 0 then do
    let t ← resetOp c (setRates c sr fs retune s)
    .ok (respondOk [] t)
  else .ok (raise .configError (natWord code) s)

/-! `RECV`. -/

/-- The last `ov` valid samples of a memory followed by a rail of the batch (R167 step 1). -/
def recvRail (st : Store) (rd : Nat → Res F32) (bufLen ov : Nat) (rail : List F32) : Res (List F32) := do
  let start ← natIndex st ((bufLen : Int) - ov)
  let tail ← readRun rd start ov
  .ok (tail ++ rail)

/-- The batch is empty and the block is one whose empty `RECV` changes nothing (R170). R167's pseudocode rewrites the
memories for every `n`; which of the two holds for `n = 0` is left free (DESIGN CHOICE, assumption log 11). -/
def recvKeeps (batch : List (F32 × F32)) : Bool := batch.isEmpty && Config.emptyRecvKeeps

/-- `RECV` step 1 (R167): keep the tail, append the batch. For an empty batch see `recvKeeps`. -/
def recvPlace (c : Cfg) (batch : List (F32 × F32)) (s : State) : Res State := do
  let vi ← recvRail .ibuf (ibufRead s) s.bufLen s.overlap (batch.map Prod.fst)
  let vq ← recvRail .qbuf (qbufRead s) s.bufLen s.overlap (batch.map Prod.snd)
  let m ← sampleLoad c .ibuf vi
  let q ← sampleLoad c .qbuf vq
  .ok { s with
    ibuf := if recvKeeps batch then s.ibuf else m
    qbuf := if recvKeeps batch then s.qbuf else q
    bufLen := if recvKeeps batch then s.bufLen else s.overlap + batch.length }

/-- `SPSAMPLE` of each phase of a block in order (R167 step 2). -/
def spSampleAll (c : Cfg) : List F32 → State → Res State
  | [], s => .ok s
  | p :: ps, s => do
    let t ← spSampleOp c p s
    spSampleAll c ps t

/-- One block of `w` samples from the cursor `x` (R167 step 2, R168): every `DIFF` of the block before its first
`SPSAMPLE`, then `UPDOBS`. -/
def recvBlock (c : Cfg) (x w : Nat) (s : State) : Res State := do
  let phs ← readRun (diffOp c s) x w
  let t ← spSampleAll c phs s
  updObsOp c t.observedSps t

/-- The blocks of a batch of `n` samples from the cursor `x` on (R167 step 2). The first argument bounds how many blocks
there may be. -/
def recvBlocks (c : Cfg) (n : Nat) : Nat → Nat → State → Res State
  | 0, _, s => .ok s
  | fuel + 1, x, s =>
    if x < n then do
      let t ← recvBlock c x (min c.w (n - x)) s
      recvBlocks c n fuel (x + min c.w (n - x)) t
    else .ok s

/-- `RECV` step 3 (R167): the accumulated dibits are the response, and `OUTQ` is emptied. -/
def recvHandOver (s : State) : State := respondOk (s.outq.map Dibit.toWord) { s with outq := [] }

/-- `RECV` (R167). The timestamp is accepted and read by no rule (R169). -/
def recvOp (c : Cfg) (batch : List (F32 × F32)) (s : State) : Res State :=
  if c.bufCap < s.overlap + batch.length then .ok (raise .batchTooLarge (natWord batch.length) s)
  else do
    let s1 ← recvPlace c batch s
    let s2 ← recvBlocks c batch.length batch.length 0 s1
    .ok (recvHandOver s2)

/-! The meanings. -/

/-- `CFG` (R171). -/
def execCfg (retune : Bool) (sr : Word) (fs : F32) (s : State) : Host.Outcome State Fault Refusal :=
  outcome (configureOp hw sr fs retune s)

/-- `SETFS` (R173): `SYMBOL_RATE` and `CTRL` keep their values. -/
def execSetfs (fs : F32) (s : State) : Host.Outcome State Fault Refusal :=
  outcome (configureOp hw s.symbolRate fs s.retuneEn s)

/-- `RST` (R174). -/
def execRst (s : State) : Host.Outcome State Fault Refusal :=
  outcome (do
    let t ← resetOp hw s
    .ok (respondOk [] t))

/-- `RECV` (R167, R169). -/
def execRecv (_ts : BitVec 64) (batch : List (F32 × F32)) (s : State) : Host.Outcome State Fault Refusal :=
  outcome (recvOp hw batch s)

/-- `RDCSR` (R175). -/
def execRdcsr (addr : BitVec 12) (s : State) : Host.Outcome State Fault Refusal :=
  outcome (do
    let v ← csrRead hw s addr.toNat
    match v with
    | some w => .ok (respondOk [w] s)
    | none => .ok (raise .badCsr (addr.setWidth 32) s))

/-- `UPDOBS` (R166), run on its own. -/
def execUpdobs (sps : F32) (s : State) : Host.Outcome State Fault Refusal :=
  outcome (do
    let t ← updObsOp hw sps s
    .ok { t with ret := .none })

end Sys2Proof.Machine
end

