-- ==== Sys2Proof/Machine/Dispatch.lean ====
section
/-! DEFINITION. One arm per instruction: the meaning it has. -/

namespace Sys2Proof.Machine

def exec (i : Instr) (s : State) : Host.Outcome State Fault Refusal :=
  match i with
  | .cfg retune sr fs => Sys2Proof.Machine.execCfg retune sr fs s
  | .setfs fs => Sys2Proof.Machine.execSetfs fs s
  | .rst => Sys2Proof.Machine.execRst s
  | .recv ts batch => Sys2Proof.Machine.execRecv ts batch s
  | .rdcsr addr => Sys2Proof.Machine.execRdcsr addr s
  | .interp sp off mu => Sys2Proof.Machine.execInterp sp off mu s
  | .cmulc pI pQ cI cQ => Sys2Proof.Machine.execCmulc pI pQ cI cQ s
  | .phase dQ dI => Sys2Proof.Machine.execPhase dQ dI s
  | .diff x => Sys2Proof.Machine.execDiff x s
  | .unwrap c p => Sys2Proof.Machine.execUnwrap c p s
  | .spsample phiIn => Sys2Proof.Machine.execSpsample phiIn s
  | .symbol => Sys2Proof.Machine.execSymbol s
  | .loopupd eps => Sys2Proof.Machine.execLoopupd eps s
  | .eqproc d ph => Sys2Proof.Machine.execEqproc d ph s
  | .eqnoupd d ph => Sys2Proof.Machine.execEqnoupd d ph s
  | .eqsync t => Sys2Proof.Machine.execEqsync t s
  | .updobs sps => Sys2Proof.Machine.execUpdobs sps s
  | .decidePhi phi => Sys2Proof.Machine.execDecide phi s
  | .terr d prec cur foll => Sys2Proof.Machine.execTerr d prec cur foll s
  | .synccorr ph => Sys2Proof.Machine.execSynccorr ph s
  | .ddlpush d => Sys2Proof.Machine.execDdlpush d s
  | .ddlsync => Sys2Proof.Machine.execDdlsync s

end Sys2Proof.Machine
end

