-- ==== Sys2Proof/Machine/Step.lean ====
section
/-! DEFINITION. One step: the next command on the port is consumed and carried out whole (30_encoding.md rule R87;
70_reset_and_hazards.md rule R241), or, if the micro-sequencer's slot holds one, a unit operation (R96, R241). -/

namespace Sys2Proof.Machine

/-- A step that takes a command from the port (R87). An illegal header is consumed alone and answered with
`IllegalCommand` (R95, R209). With no command, or one whose words have not all arrived, the block is idle and holds its
state (R223). -/
def stepPort (s : State) : Host.Outcome State Fault Refusal :=
  match decode s.port with
  | .ok (i, rest) => exec i { s with port := rest }
  | .error (.illegal h) => .next (raise .illegalCommand h { s with port := s.port.tail })
  | .error _ => .next s

/-- A step that takes a unit operation from the micro-sequencer's slot (assumption log 7). -/
def stepMicro (s : State) : Host.Outcome State Fault Refusal :=
  match decodeMicro s.micro with
  | .ok (i, rest) => exec i { s with micro := rest }
  | .error _ => .refused (.badMicroOp (s.micro.headD 0#32))

/-- One step. -/
def step (s : State) : Host.Outcome State Fault Refusal := if s.micro.isEmpty then stepPort s else stepMicro s

/-- `s` with a table word placed where the next step fetches: a micro-operation number in the micro-sequencer's slot,
anything else at the front of the command port with the slot empty (assumption log 7). -/
def State.withFetchWord (s : State) (nbits w : Nat) : State :=
  if isMicroNumber (tableHeader nbits w) then { s with micro := tableWords nbits w }
  else { s with port := tableWords nbits w ++ s.port, micro := [] }

end Sys2Proof.Machine
end

