-- ==== Sys2Proof/Safety.lean ====
section
/-! DEFINITION. What the claims call a sound state and a sound parameter record: the invariants the spec states of the
block (10_state.md rules R23 to R28, R34 to R39, R47; 44_facade_commands.md rules R170, R172; 42_symbol_processor.md rule
R133), and the properties of the open parameters that a claim may assume by name (40_interpolator.md rule R112). -/

namespace Sys2Proof.Machine

/-! Parameters. -/

/-- The bounds R6 and R46 put on the parameters. -/
structure Cfg.Ok (c : Cfg) : Prop where
  nLow : 12 ≤ c.n
  nHigh : c.n ≤ 63
  width : 1 ≤ c.w
  capacity : 15 ≤ c.bufCap

/-- Property T1 of the tap table (R112): every tap is finite. A hypothesis, never a fact. -/
def TapsFinite (c : Cfg) : Prop := ∀ r k, r < 128 → k < 8 → c.num.isfinite (c.taps r k) = true

/-- Property T4 of the tap table as R112 reads "symmetric" (G2). A hypothesis, never a fact. -/
def TapsSymmetric (c : Cfg) : Prop := ∀ r k, 1 ≤ r → r ≤ 127 → k < 8 → c.taps r k = c.taps (128 - r) (7 - k)

/-- The range of `atan2` that R9 gives from general knowledge (G1). A hypothesis, never a fact. -/
def Atan2InRange (c : Cfg) : Prop :=
  ∀ y x, c.num.isfinite y = true → c.num.isfinite x = true →
    c.num.fle (c.num.fneg piF) (c.num.atan2 y x) = true ∧ c.num.fle (c.num.atan2 y x) piF = true

/-! The register files. -/

/-- The sizes of the register files and the ranges of their pointers (R34 to R39, R41). -/
structure Shape (c : Cfg) (s : State) : Prop where
  dly : s.dly.length = 16
  dlyPtr : s.dlyPtr < 8
  eqZ : s.eqZ.length = 2 * c.len
  eqA : s.eqA.length = 2 * c.len
  eqQ : s.eqQ.length = c.len
  eqP : s.eqP < c.len
  sdS : s.sdS.length = 48
  sdI : s.sdI < 24
  ddl : s.ddl.length = 24
  ddlPtr : s.ddlPtr < 24

/-- The two halves of every duplicated ring are equal (R47). -/
structure Rings (c : Cfg) (s : State) : Prop where
  dly : ∀ j, j < 8 → s.dly[j]? = s.dly[j + 8]?
  eqZ : ∀ j, j < c.len → s.eqZ[j]? = s.eqZ[j + c.len]?
  eqA : ∀ j, j < c.len → s.eqA[j]? = s.eqA[j + c.len]?
  sdS : ∀ j, j < 24 → s.sdS[j]? = s.sdS[j + 24]?

/-- The centre tap is 1.0 (R37). -/
def CentreTap (c : Cfg) (s : State) : Prop := s.eqQ[c.n]? = some oneF

/-! The session and the timing loop. -/

/-- The rates pass `CHECK`, and `NOMINAL_SPS` is their quotient (R21, R22, R27, R172). -/
structure Session (c : Cfg) (s : State) : Prop where
  checked : check c s.symbolRate s.sampleRate = 0
  nominal : s.nominalSps = nominalOf c s.symbolRate s.sampleRate

/-- `OBSERVED_SPS` is finite and inside its clamp bounds (R28; SRC's P7). -/
structure LoopBounded (c : Cfg) (s : State) : Prop where
  finite : c.num.isfinite s.observedSps = true
  low : c.num.fle (obsLo c s) s.observedSps = true
  high : c.num.fle s.observedSps (obsHi c s) = true

/-- The countdown is not below 1 between samples: at least 1, or a NaN that R141 says silences the block (R133, I14). -/
def Armed (c : Cfg) (s : State) : Prop := c.num.flt s.samplePoint oneF = false

/-- `MU`, `IOFF` and `OVERLAP` are what `UPDOBS(OBSERVED_SPS)` gives, and `IOFF` is not negative (R23 to R25). -/
structure Placed (c : Cfg) (s : State) : Prop where
  mu : s.mu = c.num.fsub s.observedSps (c.num.ffloor s.observedSps)
  ioff : c.num.f2i (c.num.ffloor s.observedSps) = some (s.ioff + 4)
  ioffNonneg : 0 ≤ s.ioff
  overlap : (s.overlap : Int) = s.ioff + 8

/-! The sample memories. -/

/-- The buffer invariant (R170), and room for the overlap and one sample (R172). -/
structure Buffered (c : Cfg) (s : State) : Prop where
  tail : s.overlap ≤ s.bufLen
  fits : s.bufLen ≤ c.bufCap
  room : s.overlap + 1 ≤ c.bufCap

/-- Both sample memories are in canonical form. -/
structure MemCanonical (s : State) : Prop where
  ibuf : s.ibuf.wf = true
  qbuf : s.qbuf.wf = true

/-! Command boundaries. -/

/-- What holds between commands: `OUTQ` empty, `SEQ` in AWAIT (R33, R45), no unit operation waiting in the slot. -/
structure Boundary (s : State) : Prop where
  outq : s.outq = []
  seq : s.seq = .await
  micro : s.micro = []

/-- A sound state between commands. -/
structure Inv (c : Cfg) (s : State) : Prop where
  shape : Shape c s
  rings : Rings c s
  centre : CentreTap c s
  session : Session c s
  loop : LoopBounded c s
  armed : Armed c s
  placed : Placed c s
  buffered : Buffered c s
  memory : MemCanonical s
  boundary : Boundary s

/-- A step that ends in a next state; the other two outcomes stop the machine. -/
def Runs (s : State) : Prop := ∃ t, step s = .next t

/-! What reset leaves. -/

/-- The table of R48 for the state that a reset procedure writes when `NOMINAL_SPS` is `t.nominalSps`: every row but the
four that `RESET` does not write. -/
structure AfterReset (c : Cfg) (t : State) : Prop where
  observedSps : t.observedSps = t.nominalSps
  samplePoint : t.samplePoint = t.nominalSps
  mu : t.mu = c.num.fsub t.nominalSps (c.num.ffloor t.nominalSps)
  ioff : c.num.f2i (c.num.ffloor t.nominalSps) = some (t.ioff + 4)
  overlap : (t.overlap : Int) = t.ioff + 8
  bufLen : t.bufLen = t.overlap
  ibuf : ∀ i, i < t.overlap → t.ibuf.get i = zeroF
  qbuf : ∀ i, i < t.overlap → t.qbuf.get i = zeroF
  previousPhase : t.previousPhase = zeroF
  ssr : t.ssr = 0#48
  noisy : t.noisy = false
  seq : t.seq = .await
  dly : t.dly = List.replicate 16 zeroF
  dlyPtr : t.dlyPtr = 0
  eqZ : t.eqZ = List.replicate (2 * c.len) zeroF
  eqA : t.eqA = List.replicate (2 * c.len) zeroF
  eqP : t.eqP = 0
  eqQlen : t.eqQ.length = c.len
  eqQcentre : t.eqQ[c.n]? = some oneF
  eqQother : ∀ l, l < c.len → l ≠ c.n → t.eqQ[l]? = some zeroF
  sdS : t.sdS = List.replicate 48 zeroF
  sdI : t.sdI = 0
  ddl : t.ddl = List.replicate 24 .d00Plus1
  ddlPtr : t.ddlPtr = 0
  outq : t.outq = []

/-! Runs of the dibit delay line, for the claims about its latency (R198, R199). -/

/-- The dibits that pushing these in order returns, and the state after, or `none` if a push does not end in a next
state that holds a dibit. -/
def pushAll : List Dibit → State → Option (State × List Dibit)
  | [], s => some (s, [])
  | d :: ds, s =>
    match exec (.ddlpush d) s with
    | .next t =>
      match t.ret with
      | .dibit out => (pushAll ds t).map (fun p => (p.1, out :: p.2))
      | _ => none
    | _ => none

/-! The larger operations as runs of the smaller ones, each through `exec` (R96, R241). -/

/-- `SYMBOL` in EQUALIZE (R134, R137): from `s` to `t`, with the final decision `d1` and the phase `pc` for the sync
detector. -/
def EqualizeRun (d0 : Dibit) (phi : F32) (s t : State) (d1 : Dibit) (pc : F32) : Prop :=
  if s.noisy then exec (.eqnoupd d0 phi) s = .next t ∧ d1 = d0 ∧ pc = phi
  else
    exec (.eqproc d0 phi) s = .next t ∧ t.ret = .f32 pc ∧ exec (.decidePhi pc) t = .next { t with ret := .dibit d1 }

/-- `SYMBOL` in EMIT (R134, R138, R139): from `s` to `t`, with the dibit `out` that is emitted. -/
def EmitRun (score : F32) (d1 : Dibit) (s t : State) (out : Dibit) : Prop :=
  if f32Lt syncThresholdF score then
    ∃ u, exec .ddlsync s = .next u ∧ out = .d01Plus3 ∧
      (if s.retuneEn then exec (.eqsync syncDibits) u = .next t else t = u)
  else exec (.ddlpush d1) s = .next t ∧ t.ret = .dibit out

/-- `SYMBOL` as a run of the unit operations of R134 from `s` to `t`. -/
def SymbolRun (s t : State) : Prop :=
  ∃ (phi prec foll e pc score : F32) (d0 d1 out : Dibit) (s1 s2 s3 s4 : State),
    exec (.interp .dly s.dlyPtr s.samplePoint) s = .next { s with ret := .f32 phi } ∧
    exec (.decidePhi phi) s = .next { s with ret := .dibit d0 } ∧
    s.dly[s.dlyPtr + 3]? = some prec ∧ s.dly[s.dlyPtr + 4]? = some foll ∧
    exec (.terr d0 prec phi foll) s = .next { s with ret := .f32 e } ∧
    exec (.loopupd (if s.noisy then zeroF else e)) s = .next s1 ∧
    EqualizeRun d0 phi s1 s2 d1 pc ∧
    exec (.synccorr pc) s2 = .next s3 ∧ s3.ret = .f32 score ∧
    EmitRun score d1 { s3 with ssr := (s3.ssr <<< 2) ||| d1.value.setWidth 48 } s4 out ∧
    t = { s4 with outq := s.outq ++ [out], noisy := false, seq := .await, ret := .none }

/-- What step 1 of `RECV` leaves (R167): the last `OVERLAP` valid samples of both rails, then the batch. -/
structure PlacedBatch (batch : List (F32 × F32)) (s p : State) : Prop where
  frame : p = { s with ibuf := p.ibuf, qbuf := p.qbuf, bufLen := s.overlap + batch.length }
  tailI : ∀ j, j < s.overlap → p.ibuf.get j = s.ibuf.get (s.bufLen - s.overlap + j)
  tailQ : ∀ j, j < s.overlap → p.qbuf.get j = s.qbuf.get (s.bufLen - s.overlap + j)
  newI : ∀ k v, batch[k]? = some v → p.ibuf.get (s.overlap + k) = v.1
  newQ : ∀ k v, batch[k]? = some v → p.qbuf.get (s.overlap + k) = v.2

/-- What stands before step 2 of `RECV`: the batch placed by step 1, or, for an empty batch, where the pseudocode of R167 and
R170's sentence disagree (assumption log 11), possibly the state as it was. -/
def BatchStored (batch : List (F32 × F32)) (s p : State) : Prop :=
  PlacedBatch batch s p ∨ (batch = [] ∧ p = s)

/-- Step 2 of `RECV` with `W = 1` as a run of unit operations (R167): `DIFF`, `SPSAMPLE` and `UPDOBS` for each of `k`
samples from the cursor `x` on. -/
def runSamples : Nat → Nat → State → Option State
  | 0, _, s => some s
  | k + 1, x, s =>
    match exec (.diff x) s with
    | .next a =>
      match a.ret with
      | .f32 ph =>
        match exec (.spsample ph) a with
        | .next b =>
          match exec (.updobs b.observedSps) b with
          | .next d => runSamples k (x + 1) d
          | _ => none
        | _ => none
      | _ => none
    | _ => none

/-! Numerics. -/

/-- `r` is the binary32 nearest to `num / den` units of 2^-149, ties to the even fraction; if it is not finite, no finite
pattern is as large in magnitude as that number (R7). -/
structure NearestEven (r : F32) (num : Int) (den : Nat) : Prop where
  notNaN : f32IsNaN r = false
  nearest : f32IsFinite r = true → ∀ z, f32IsFinite z = true → |num - f32Val r * den| ≤ |num - f32Val z * den|
  ties : f32IsFinite r = true → ∀ z, f32IsFinite z = true → |num - f32Val r * den| = |num - f32Val z * den| →
    f32Val z = f32Val r ∨ f32Body r % 2 = 0
  overflow : f32IsFinite r = false → ∀ z, f32IsFinite z = true → |f32Val z| * den < |num|

/-- The place of a dibit in the order of R187: `D11_MINUS_3 < D10_MINUS_1 < D00_PLUS_1 < D01_PLUS_3`. -/
def dibitRank : Dibit → Nat
  | .d11Minus3 => 0
  | .d10Minus1 => 1
  | .d00Plus1 => 2
  | .d01Plus3 => 3

end Sys2Proof.Machine
end

