-- ==== Sys2Proof/Certificates/Slice0/Obligations.lean ====
section
/-! DEFINITION. The statements for the provers. Each docstring names the rules of spec/ it formalises. -/

section

open Sys2Proof Sys2Proof.Machine

/-! Encoding. -/

/-- R87, R88, R89: every well-formed command is read back from its words, with every operand, and the words after it are
left on the port. -/
def Obligations.CommandDecodeEncode : Prop :=
  ∀ (i : Instr) (rest : List Word), i.WellFormed → i.isCommand = true → decode (encode i ++ rest) = .ok (i, rest)

/-- R96 gives the numbers; the operand words are the model's own (assumption log 7): every well-formed unit operation is
read back from the micro-sequencer's slot. -/
def Obligations.UnitOperationDecodeEncode : Prop :=
  ∀ (i : Instr) (rest : List Word), i.WellFormed → i.isCommand = false → decodeMicro (encode i ++ rest) = .ok (i, rest)

/-- R87, R88, R89: the port's decoder reads nothing but encodings, so no header bit and no operand bit is ignored. -/
def Obligations.CommandsDecodeFromEncodingsOnly : Prop :=
  ∀ (ws : List Word) (i : Instr) (rest : List Word), decode ws = .ok (i, rest) →
    i.WellFormed ∧ i.isCommand = true ∧ ws = encode i ++ rest

/-- R95, R209: exactly the headers with an opcode outside 1..5 or a must-be-zero bit set are illegal; the block consumes
such a header alone, answers `IllegalCommand` with the header as information, and changes nothing else. -/
def Obligations.IllegalHeaderTakesFault : Prop :=
  ∀ (s : State) (h : Word) (ws : List Word), s.micro = [] → s.port = h :: ws →
    ((¬ (h.toNat = 0x001 ∨ h.toNat = 0x101 ∨ h.toNat = 0x002 ∨ h.toNat = 0x003 ∨ h.toNat % 256 = 0x04 ∨
        (h.toNat % 256 = 0x05 ∧ h.toNat < 1048576))) ↔ decode s.port = .error (.illegal h)) ∧
    (decode s.port = .error (.illegal h) → step s = .next { s with port := ws, resp := [0x00000101#32, h] })

/-- Words written out from the tables of R88 and R96, and what they stand for. -/
def Obligations.WrittenWordsDecode : Prop :=
  decode [0x00000101#32, 0x000012C0#32, 0x47435000#32] = .ok (.cfg true 4800#32 0x47435000#32, []) ∧
  decode [0x00000002#32, 0x473B8000#32, 7#32] = .ok (.setfs 0x473B8000#32, [7#32]) ∧
  decode [0x00000003#32] = .ok (.rst, []) ∧
  decode [0x00000204#32, 1#32, 2#32, 3#32, 4#32, 5#32, 6#32] =
    .ok (.recv 0x0000000200000001#64 [(3#32, 5#32), (4#32, 6#32)], []) ∧
  decode [0x00030805#32] = .ok (.rdcsr 0x308#12, []) ∧
  decodeMicro [0x16#32] = .ok (.symbol, []) ∧
  decodeMicro [0x1D#32, 1#32, 2#32, 3#32, 4#32] = .ok (.terr .d01Plus3 2#32 3#32 4#32, [])

/-! One step. -/

/-- A step runs the decoded instruction: a command from the front of the port (R87), or the unit operation in the
micro-sequencer's slot (R96, R241; assumption log 7). The words are consumed before it runs (R209). -/
def Obligations.StepRunsDecodedInstruction : Prop :=
  ∀ (s : State) (i : Instr) (rest : List Word), i.WellFormed →
    (s.micro = [] → decode s.port = .ok (i, rest) → step s = exec i { s with port := rest }) ∧
    (s.micro ≠ [] → decodeMicro s.micro = .ok (i, rest) → step s = exec i { s with micro := rest })

/-- R223, R97: with no command on the port, or one whose operand words have not all arrived, the block holds its state. That
such a block takes a step at all is assumption log 10. -/
def Obligations.IdleStepHoldsState : Prop :=
  ∀ (s : State), s.micro = [] →
    (s.port = [] ∨ ∃ i ws, i.WellFormed ∧ i.isCommand = true ∧ s.port ++ ws = encode i ∧ ws ≠ []) → step s = .next s

/-! Reset and configuration. -/

/-- R48, R230, R231: the power-on state is sound. -/
def Obligations.ResetIsSound : Prop := Inv hw State.reset

/-- R231: the power-on state is the one `CFG 4800, 50000.0, 1` produces, whatever the state it is given in; only the port,
the response (`OK`, no payload) and the model's own two fields are not the reset state's. The last conjunct, an empty
port, is the model's choice: the spec gives the port no reset value (assumption log 10). -/
def Obligations.PowerOnIsDefaultConfiguration : Prop :=
  (∀ (s : State), exec (.cfg true 4800#32 0x47435000#32) s =
    .next { State.reset with port := s.port, resp := [0x00000000#32], micro := s.micro, ret := s.ret }) ∧
  State.reset.symbolRate = 4800#32 ∧ State.reset.sampleRate = 0x47435000#32 ∧ State.reset.retuneEn = true ∧
  State.reset.nominalSps = 0x4126AAAB#32 ∧ State.reset.observedSps = 0x4126AAAB#32 ∧
  State.reset.samplePoint = 0x4126AAAB#32 ∧ State.reset.mu = 0x3ED55560#32 ∧ State.reset.ioff = 6 ∧
  State.reset.overlap = 14 ∧ State.reset.bufLen = 14 ∧ State.reset.port = []

/-- R208 and the table of 95_test_vectors.md 3.8: codes of refused and accepted pairs of rates, the first failing check
giving the code. -/
def Obligations.ConfigCodeExamples : Prop :=
  check hw 0#32 0x7FC00000#32 = 1 ∧ check hw 0xFFFFFFFF#32 0x47435000#32 = 1 ∧
  check hw 4800#32 0x7F800000#32 = 2 ∧ check hw 4800#32 0x7FC00000#32 = 2 ∧
  check hw 4800#32 0x46160000#32 = 3 ∧ check hw 4800#32 0xBF800000#32 = 3 ∧
  check hw 4800#32 0x46160400#32 = 4 ∧ check hw 4800#32 0x46960000#32 = 4 ∧
  check hw 4800#32 0x46961400#32 = 0 ∧ check hw 4800#32 0x473B8000#32 = 0

/-- R171, R48, R233: an accepted `CFG` writes the rates and the retune bit, resets everything else, and answers `OK`. -/
def Obligations.CfgAccepted : Prop :=
  ∀ (s : State) (retune : Bool) (sr : Word) (fs : F32), check hw sr fs = 0 →
    ∃ t, exec (.cfg retune sr fs) s = .next t ∧ AfterReset hw t ∧
      t.symbolRate = sr ∧ t.sampleRate = fs ∧ t.retuneEn = retune ∧ t.nominalSps = f32Div fs (f32OfInt sr.toInt) ∧
      t.resp = [0x00000000#32] ∧ t.port = s.port ∧ t.micro = s.micro ∧ t.ret = s.ret

/-- R173, R48, R233: an accepted `SETFS` keeps `SYMBOL_RATE` and `CTRL`, resets everything else, and answers `OK`. -/
def Obligations.SetfsAccepted : Prop :=
  ∀ (s : State) (fs : F32), check hw s.symbolRate fs = 0 →
    ∃ t, exec (.setfs fs) s = .next t ∧ AfterReset hw t ∧
      t.symbolRate = s.symbolRate ∧ t.sampleRate = fs ∧ t.retuneEn = s.retuneEn ∧
      t.nominalSps = f32Div fs (f32OfInt s.symbolRate.toInt) ∧
      t.resp = [0x00000000#32] ∧ t.port = s.port ∧ t.micro = s.micro ∧ t.ret = s.ret

/-- R171, R173, R207: rates that `CHECK` refuses end the command with `ConfigError` and the code, and nothing else
changes. -/
def Obligations.BadRatesTakeConfigError : Prop :=
  ∀ (s : State) (retune : Bool) (sr : Word) (fs : F32), check hw sr fs ≠ 0 →
    exec (.cfg retune sr fs) s = .next { s with resp := [0x00000102#32, BitVec.ofNat 32 (check hw sr fs)] } ∧
    (sr = s.symbolRate →
      exec (.setfs fs) s = .next { s with resp := [0x00000102#32, BitVec.ofNat 32 (check hw sr fs)] })

/-- R174, R48, R233: `RST` in a configured session keeps the rates, the control bit and `NOMINAL_SPS`, resets everything
else, answers `OK`, and done twice leaves what it leaves done once. -/
def Obligations.RstResetsAndIsIdempotent : Prop :=
  ∀ (s : State), Session hw s →
    ∃ t, exec .rst s = .next t ∧ AfterReset hw t ∧
      t.symbolRate = s.symbolRate ∧ t.sampleRate = s.sampleRate ∧ t.retuneEn = s.retuneEn ∧
      t.nominalSps = s.nominalSps ∧ t.resp = [0x00000000#32] ∧ t.port = s.port ∧ t.micro = s.micro ∧ t.ret = s.ret ∧
      exec .rst t = .next t

/-! Invariants of every step. -/

/-- R34 to R41, R37, R47: every step keeps the sizes and pointers of the register files, the two halves of every
duplicated ring equal, and the centre tap at 1.0. -/
def Obligations.StepKeepsRegisterFiles : Prop :=
  ∀ (s t : State), Shape hw s → Rings hw s → CentreTap hw s → step s = .next t →
    Shape hw t ∧ Rings hw t ∧ CentreTap hw t

/-- Every step keeps both sample memories in canonical form (R44, R60; the form is the model's own). -/
def Obligations.StepKeepsMemoryCanonical : Prop :=
  ∀ (s t : State), MemCanonical s → step s = .next t → MemCanonical t

/-- R28 and SRC's P7: whatever the samples, timing errors and commands, every step keeps the rates accepted and
`OBSERVED_SPS` finite and inside its clamp bounds. -/
def Obligations.StepKeepsLoopInBounds : Prop :=
  ∀ (s t : State), Session hw s → LoopBounded hw s → step s = .next t → Session hw t ∧ LoopBounded hw t

/-- R33, R45: at every command boundary `SEQ` is AWAIT and `OUTQ` is empty, and every command keeps it so. -/
def Obligations.CommandsKeepBoundary : Prop :=
  ∀ (s t : State), Boundary s → step s = .next t → Boundary t

/-- R215, R142, R170, R133: from a sound state every command runs to completion and leaves a sound state, whatever is on
the port, whatever the samples and whatever `atan2` and the tap table are. -/
def Obligations.EveryCommandCompletes : Prop :=
  ∀ (s : State), Inv hw s → ∃ t, step s = .next t ∧ Inv hw t

/-- R207, R211: a command answered with a status other than `OK` has changed nothing but the port and the response. -/
def Obligations.FaultLeavesStateAsItWas : Prop :=
  ∀ (s t : State) (h : Word) (payload : List Word), s.micro = [] → step s = .next t → t.resp = h :: payload →
    h.toNat % 256 ≠ 0 → t = { s with port := t.port, resp := t.resp }

/-- R21, R22, R26, R27, R43, R44: the rates, the control bit, `NOMINAL_SPS`, `BUF_LEN` and the sample memories are written by
host commands and reset only, so by no unit operation. R15, R87, R90: a unit operation is not a command, so it takes no
word from the port and answers no response (the two lists that hold those are the model's, assumption log 10). -/
def Obligations.UnitOperationsLeaveFacadeAlone : Prop :=
  ∀ (i : Instr) (s t : State), i.isCommand = false → exec i s = .next t →
    t.port = s.port ∧ t.resp = s.resp ∧ t.symbolRate = s.symbolRate ∧ t.sampleRate = s.sampleRate ∧
      t.retuneEn = s.retuneEn ∧ t.nominalSps = s.nominalSps ∧ t.ibuf = s.ibuf ∧ t.qbuf = s.qbuf ∧ t.bufLen = s.bufLen

/-- R27, R21, R43: no instruction but `CFG` and `SETFS` changes `NOMINAL_SPS` or `SAMPLE_RATE`, and none but `CFG` changes
`SYMBOL_RATE` or the control bit. -/
def Obligations.OnlyConfigurationChangesRates : Prop :=
  ∀ (i : Instr) (s t : State), exec i s = .next t →
    ((∀ r sr fs, i ≠ .cfg r sr fs) → t.symbolRate = s.symbolRate ∧ t.retuneEn = s.retuneEn) ∧
    ((∀ r sr fs, i ≠ .cfg r sr fs) → (∀ fs, i ≠ .setfs fs) →
      t.nominalSps = s.nominalSps ∧ t.sampleRate = s.sampleRate)

/-! `RECV`. -/

/-- R167, R170, R133, R90: a batch that fits is taken: it stands behind the last `OVERLAP` samples, at most one dibit per
sample comes back, the session is untouched, and the state is sound again. For an empty batch
R167's pseudocode sets `BUF_LEN` to `OVERLAP` and R170 says that nothing changed; `BatchStored` allows both (assumption log
11). -/
def Obligations.RecvCompletes : Prop :=
  ∀ (s : State) (ts : BitVec 64) (batch : List (F32 × F32)), Inv hw s → s.overlap + batch.length ≤ hw.bufCap →
    ∃ (t : State) (ds : List Dibit), exec (.recv ts batch) s = .next t ∧ Inv hw t ∧ ds.length ≤ batch.length ∧
      t.resp = BitVec.ofNat 32 (ds.length * 256) :: ds.map Dibit.toWord ∧
      BatchStored batch s { s with ibuf := t.ibuf, qbuf := t.qbuf, bufLen := t.bufLen } ∧
      t.symbolRate = s.symbolRate ∧ t.sampleRate = s.sampleRate ∧ t.retuneEn = s.retuneEn ∧
      t.nominalSps = s.nominalSps ∧ t.port = s.port ∧ t.micro = s.micro ∧ t.ret = s.ret

/-- R167, R168 with `W = 1`: `RECV` is its batch placed in the sample memories, then `DIFF`, `SPSAMPLE` and `UPDOBS` for
each sample in order, then the accumulated dibits handed over. For an empty batch `BatchStored` allows what R167's
pseudocode does and what R170 says (assumption log 11). The two runs agree in NaN patterns too, which is assumption log 5. -/
def Obligations.RecvRunsItsUnitOperations : Prop :=
  ∀ (s : State) (ts : BitVec 64) (batch : List (F32 × F32)), Inv hw s → s.overlap + batch.length ≤ hw.bufCap →
    ∃ p u, BatchStored batch s p ∧ runSamples batch.length 0 p = some u ∧
      exec (.recv ts batch) s =
        .next { u with
          resp := BitVec.ofNat 32 (u.outq.length * 256) :: u.outq.map Dibit.toWord
          outq := []
          ret := s.ret }

/-- R167, R207: a batch that does not fit the sample memory ends in `BatchTooLarge` with its length, and nothing else
changes. -/
def Obligations.RecvTooLargeTakesFault : Prop :=
  ∀ (s : State) (ts : BitVec 64) (batch : List (F32 × F32)), hw.bufCap < s.overlap + batch.length →
    exec (.recv ts batch) s = .next { s with resp := [0x00000103#32, BitVec.ofNat 32 batch.length] }

/-- R167 with `n = 0`, R170, D36: an empty batch is answered with no dibits, and either nothing but the response changes, as
R170 says, or the last `OVERLAP` samples move to the front and `BUF_LEN` becomes `OVERLAP`, as R167's pseudocode writes it;
which of the two is left free (assumption log 11). Either way the last `OVERLAP` valid samples are the same. -/
def Obligations.EmptyRecvKeepsState : Prop :=
  ∀ (s : State) (ts : BitVec 64), Inv hw s →
    ∃ t, exec (.recv ts []) s = .next t ∧
      (t = { s with resp := [0x00000000#32] } ∨
        t = { s with resp := [0x00000000#32], ibuf := t.ibuf, qbuf := t.qbuf, bufLen := s.overlap }) ∧
      (∀ j, j < s.overlap → t.ibuf.get (t.bufLen - s.overlap + j) = s.ibuf.get (s.bufLen - s.overlap + j)) ∧
      (∀ j, j < s.overlap → t.qbuf.get (t.bufLen - s.overlap + j) = s.qbuf.get (s.bufLen - s.overlap + j))

/-- R176: with `W = 1` and the floor of `OBSERVED_SPS` fixed by the clamp bounds, two batches give the dibits of the one
batch that joins them, and leave the same state but for the stored samples. That the two runs agree bit for bit, NaN
patterns included, rests on assumption log 5 (equal NaN patterns for equal operands is the model's choice); what an empty
batch stores is assumption log 11. -/
def Obligations.BatchBoundariesDoNotMatter : Prop :=
  ∀ (s : State) (ts : BitVec 64) (b c : List (F32 × F32)), Inv hw s →
    f32Floor (obsLo hw s) = f32Floor (obsHi hw s) → s.overlap + (b ++ c).length ≤ hw.bufCap →
    ∃ t u v d e, exec (.recv ts b) s = .next t ∧ exec (.recv ts c) t = .next u ∧ exec (.recv ts (b ++ c)) s = .next v ∧
      t.resp.tail = d ∧ u.resp.tail = e ∧ v.resp.tail = d ++ e ∧
      v = { u with ibuf := v.ibuf, qbuf := v.qbuf, bufLen := v.bufLen, resp := v.resp }

/-- R141: once `SAMPLE_POINT` is a NaN, samples are consumed and no dibit is ever produced: a batch is answered with an
empty response and `SAMPLE_POINT` is a NaN again. -/
def Obligations.NaNCountdownSilencesBlock : Prop :=
  ∀ (s : State) (ts : BitVec 64) (batch : List (F32 × F32)), Inv hw s → f32IsNaN s.samplePoint = true →
    s.overlap + batch.length ≤ hw.bufCap →
    ∃ t, exec (.recv ts batch) s = .next t ∧ t.resp = [0x00000000#32] ∧ f32IsNaN t.samplePoint = true

/-! `RDCSR`. -/

/-- R46, R90, R175: the scalar registers of the map, `SEQ` (R33) among them, which reads 0 in AWAIT, so at every command
boundary; reading one changes nothing but the response. That an `IOFF`, `OVERLAP` or `BUF_LEN` too large for the payload word
reads as its low 32 bits is the model's choice (assumption log 25). -/
def Obligations.RdcsrReadsScalars : Prop :=
  ∀ (s : State) (addr : BitVec 12) (v : Word),
    ((s.seq = .await ∧ addr = 0x015#12 ∧ v = 0#32) ∨ (addr, v) ∈
      [(0x000#12, if s.retuneEn then 1#32 else 0#32), (0x001#12, s.symbolRate), (0x002#12, s.sampleRate),
        (0x003#12, s.nominalSps), (0x004#12, s.mu), (0x005#12, BitVec.ofInt 32 s.ioff),
        (0x006#12, BitVec.ofNat 32 s.overlap), (0x007#12, BitVec.ofNat 32 s.bufLen), (0x008#12, s.observedSps),
        (0x009#12, s.samplePoint), (0x00A#12, s.previousPhase), (0x00B#12, s.ssr.setWidth 32),
        (0x00C#12, (s.ssr >>> 32).setWidth 32), (0x00D#12, if s.noisy then 1#32 else 0#32),
        (0x00E#12, BitVec.ofNat 32 s.dlyPtr), (0x00F#12, BitVec.ofNat 32 s.eqP), (0x010#12, BitVec.ofNat 32 s.sdI),
        (0x011#12, BitVec.ofNat 32 s.ddlPtr), (0x012#12, f32Mul s.nominalSps 0x3F7FDF3B#32),
        (0x013#12, f32Mul s.nominalSps 0x3F801062#32),
        (0x014#12, f32Mul (f32Div twoPiF s.nominalSps) 0x3F99999A#32)]) →
    exec (.rdcsr addr) s = .next { s with resp := [0x00000100#32, v] }

/-- R46: the six windows of the map, for `N = 12`. -/
def Obligations.RdcsrReadsWindows : Prop :=
  ∀ (s : State) (j : Nat) (v : Word),
    (j < 16 → s.dly[j]? = some v → exec (.rdcsr (BitVec.ofNat 12 (0x020 + j))) s =
      .next { s with resp := [0x00000100#32, v] }) ∧
    (j < 48 → s.sdS[j]? = some v → exec (.rdcsr (BitVec.ofNat 12 (0x040 + j))) s =
      .next { s with resp := [0x00000100#32, v] }) ∧
    (∀ d, j < 24 → s.ddl[j]? = some d → exec (.rdcsr (BitVec.ofNat 12 (0x080 + j))) s =
      .next { s with resp := [0x00000100#32, BitVec.ofNat 32 d.value.toNat] }) ∧
    (j < 50 → s.eqZ[j]? = some v → exec (.rdcsr (BitVec.ofNat 12 (0x100 + j))) s =
      .next { s with resp := [0x00000100#32, v] }) ∧
    (j < 50 → s.eqA[j]? = some v → exec (.rdcsr (BitVec.ofNat 12 (0x200 + j))) s =
      .next { s with resp := [0x00000100#32, v] }) ∧
    (j < 25 → s.eqQ[j]? = some v → exec (.rdcsr (BitVec.ofNat 12 (0x300 + j))) s =
      .next { s with resp := [0x00000100#32, v] })

/-- R46, R206: every address outside the map ends in `BadCsr` with the address, and nothing else changes. -/
def Obligations.RdcsrOutsideMapTakesFault : Prop :=
  ∀ (s : State) (addr : BitVec 12),
    ¬ (addr.toNat < 0x016 ∨ (0x020 ≤ addr.toNat ∧ addr.toNat < 0x030) ∨ (0x040 ≤ addr.toNat ∧ addr.toNat < 0x070) ∨
      (0x080 ≤ addr.toNat ∧ addr.toNat < 0x098) ∨ (0x100 ≤ addr.toNat ∧ addr.toNat < 0x132) ∨
      (0x200 ≤ addr.toNat ∧ addr.toNat < 0x232) ∨ (0x300 ≤ addr.toNat ∧ addr.toNat < 0x319)) →
    exec (.rdcsr addr) s = .next { s with resp := [0x00000104#32, addr.setWidth 32] }

/-! The interpolator and the differential demodulator. -/

/-- R110, R111: for `0 <= mu < 1` and eight readable cells, `INTERP` completes with the inner product, accumulated in
ascending order, of those cells with the tap row `floor(mu * 128)`, and writes no state. -/
def Obligations.InterpIsTapRowProduct : Prop :=
  ∀ (s : State) (sp : Space) (off : Nat) (mu x0 x1 x2 x3 x4 x5 x6 x7 : F32),
    f32Le 0x00000000#32 mu = true → f32Lt mu 0x3F800000#32 = true →
    spaceRead s sp off = .ok x0 → spaceRead s sp (off + 1) = .ok x1 → spaceRead s sp (off + 2) = .ok x2 →
    spaceRead s sp (off + 3) = .ok x3 → spaceRead s sp (off + 4) = .ok x4 → spaceRead s sp (off + 5) = .ok x5 →
    spaceRead s sp (off + 6) = .ok x6 → spaceRead s sp (off + 7) = .ok x7 →
    ∃ r : Nat, r < 128 ∧ (r : Int) * unitsPerOne ≤ f32Val mu * 128 ∧ f32Val mu * 128 < (r + 1) * unitsPerOne ∧
      exec (.interp sp off mu) s =
        .next { s with
          ret := .f32 (f32Add (f32Add (f32Add (f32Add (f32Add (f32Add (f32Add
            (f32Mul (Config.taps r 0) x0) (f32Mul (Config.taps r 1) x1)) (f32Mul (Config.taps r 2) x2))
            (f32Mul (Config.taps r 3) x3)) (f32Mul (Config.taps r 4) x4)) (f32Mul (Config.taps r 5) x5))
            (f32Mul (Config.taps r 6) x6)) (f32Mul (Config.taps r 7) x7)) }

/-- R114: `INTERP` with a fraction outside `[0, 1)`, NaN among them, is refused by name; with a window that passes the end
of its sequence it stops. There R114, R13 and I10 say that a model refuses (R110 gives `INTERP` no fault of its own): that the
stop is the outcome `fault` is the model's choice (assumption log 8). R166, R7, I19: `UPDOBS` of a value that is not finite is
refused by name, `f2i` of its floor not being defined. -/
def Obligations.OperandsWithoutMeaningStop : Prop :=
  ∀ (s : State) (sp : Space) (off : Nat) (mu : F32),
    ((f32Le 0x00000000#32 mu = false ∨ f32Lt mu 0x3F800000#32 = false) →
      exec (.interp sp off mu) s = .refused (.interpFraction mu)) ∧
    (f32Le 0x00000000#32 mu = true → f32Lt mu 0x3F800000#32 = true →
      (match sp with | .ibuf => s.bufLen | .qbuf => s.bufLen | .dly => s.dly.length) < off + 8 →
      ∃ f, exec (.interp sp off mu) s = .fault f) ∧
    (f32IsFinite mu = false → exec (.updobs mu) s = .refused (.toIntUndefined (f32Floor mu)))

/-- R120: the four products and two sums of `CMULC`, each rounded once, and nothing else changed. -/
def Obligations.CmulcIsConjugateProduct : Prop :=
  ∀ (s : State) (pI pQ cI cQ : F32),
    exec (.cmulc pI pQ cI cQ) s =
      .next { s with
        ret := .pair (f32Add (f32Mul pI cI) (f32Mul pQ cQ)) (f32Sub (f32Mul pI cQ) (f32Mul cI pQ)) }

/-- R123: `PHASE` is `+0.0` at every pair of zeros and the open function `atan2` at every other pair of patterns. -/
def Obligations.PhaseGuardsZeros : Prop :=
  ∀ (s : State) (dQ dI : F32),
    exec (.phase dQ dI) s =
      .next { s with
        ret := .f32 (if (dQ = 0x00000000#32 ∨ dQ = 0x80000000#32) ∧ (dI = 0x00000000#32 ∨ dI = 0x80000000#32) then 0x00000000#32
          else Config.atan2 dQ dI) }

/-- R122: `DIFF` completes where its reads are in range, as the phase of the product of the interpolated sample at
`IOFF + x` with the conjugate of the sample at `x`, and writes no state. Its value is that of its units run on their own, NaN
patterns included (assumption log 5). R122 gives `x` as a cursor of `RECV`, `x < n`; that `DIFF` run on its own, where there is
no `n`, completes for every `x` with its reads in range is the model's choice (assumption log 24). -/
def Obligations.DiffComposesItsUnits : Prop :=
  ∀ (s : State) (x off : Nat), s.ioff + x = off → x < s.bufLen → off + 8 ≤ s.bufLen →
    f32Le 0x00000000#32 s.mu = true → f32Lt s.mu 0x3F800000#32 = true →
    ∃ cI cQ dI dQ ph,
      exec (.interp .ibuf off s.mu) s = .next { s with ret := .f32 cI } ∧
      exec (.interp .qbuf off s.mu) s = .next { s with ret := .f32 cQ } ∧
      exec (.cmulc (s.ibuf.get x) (s.qbuf.get x) cI cQ) s = .next { s with ret := .pair dI dQ } ∧
      exec (.phase dQ dI) s = .next { s with ret := .f32 ph } ∧
      exec (.diff x) s = .next { s with ret := .f32 ph }

/-! The symbol processor. -/

/-- R135: one turn is removed where the jump exceeds `PI` either way; anything else, a NaN jump too, leaves the phase as it
is. -/
def Obligations.UnwrapRemovesOneTurn : Prop :=
  ∀ (s : State) (c p : F32),
    exec (.unwrap c p) s =
      .next { s with
        ret := .f32 (if f32Lt 0x40490FDB#32 (f32Sub c p) then f32Sub c 0x40C90FDB#32
          else if f32Lt (f32Sub c p) 0xC0490FDB#32 then f32Add c 0x40C90FDB#32
          else c) }

/-- R131, R132: `SPSAMPLE` unwraps, gates, saves, inserts, advances and counts down; then it is done, or, where the
countdown has fallen below 1, it is `SYMBOL` in the state so reached, NaN patterns included (assumption log 5). -/
def Obligations.SpsampleInsertsAndCountsDown : Prop :=
  ∀ (s : State) (phi : F32), Shape hw s →
    ∃ (c : F32) (t : State), exec (.unwrap phi s.previousPhase) s = .next { s with ret := .f32 c } ∧
      t = { s with
        noisy := s.noisy || f32Lt (noiseThr hw s) (f32Abs (f32Sub c s.previousPhase))
        previousPhase := c
        dly := (s.dly.set s.dlyPtr c).set (s.dlyPtr + 8) c
        dlyPtr := (s.dlyPtr + 1) % 8
        samplePoint := f32Sub s.samplePoint 0x3F800000#32
        ret := .none } ∧
      (f32Lt (f32Sub s.samplePoint 0x3F800000#32) 0x3F800000#32 = false → exec (.spsample phi) s = .next t) ∧
      (f32Lt (f32Sub s.samplePoint 0x3F800000#32) 0x3F800000#32 = true → exec (.spsample phi) s = exec .symbol t)

/-- R134, R137 to R140: with the countdown in `[0, 1)`, `SYMBOL` completes as its unit operations run in the order of the
pseudocode: exactly one dibit is emitted, `NOISY` is cleared and `SEQ` is AWAIT. The two runs agree in NaN patterns too
(assumption log 5). -/
def Obligations.SymbolRunsItsUnitOperations : Prop :=
  ∀ (s : State), Shape hw s → f32Le 0x00000000#32 s.samplePoint = true → f32Lt s.samplePoint 0x3F800000#32 = true →
    ∃ t, exec .symbol s = .next t ∧ SymbolRun s t

/-- R136: the loop filter: the new `OBSERVED_SPS`, a value that is not finite going to nominal before the clamp, and the
countdown re-armed with it. -/
def Obligations.LoopupdFiltersAndRearms : Prop :=
  ∀ (s : State) (eps o : F32),
    o = (if f32IsFinite (f32Add s.observedSps (f32Mul eps 0x39807358#32)) = false then s.nominalSps
      else if f32Lt (obsHi hw s) (f32Add s.observedSps (f32Mul eps 0x39807358#32)) then obsHi hw s
      else if f32Lt (f32Add s.observedSps (f32Mul eps 0x39807358#32)) (obsLo hw s) then obsLo hw s
      else f32Add s.observedSps (f32Mul eps 0x39807358#32)) →
    exec (.loopupd eps) s =
      .next { s with
        observedSps := o
        samplePoint := f32Add s.samplePoint (f32Add o (f32Mul eps 0x3D8F5C29#32))
        ret := .none }

/-- R28, R136, SRC's P7: in a configured session `LOOPUPD` leaves `OBSERVED_SPS` finite and inside its bounds for every
timing error, infinities and NaN too; a NaN timing error gives nominal and a NaN countdown. -/
def Obligations.LoopupdStaysBounded : Prop :=
  ∀ (s : State) (eps : F32), Session hw s →
    ∃ t, exec (.loopupd eps) s = .next t ∧ LoopBounded hw t ∧
      (f32IsNaN eps = true → t.observedSps = s.nominalSps ∧ f32IsNaN t.samplePoint = true)

/-- R157, R134: the timing loop does not depend on the equalizer: two states that differ only in the equalizer's rings,
taps and pointer have the same `OBSERVED_SPS`, `SAMPLE_POINT`, delay line, `PREVIOUS_PHASE` and `NOISY` after a sample.
That the two runs agree bit for bit, NaN patterns included, rests on assumption log 5 (equal NaN patterns for equal operands
is the model's choice). -/
def Obligations.TimingLoopIgnoresEqualizer : Prop :=
  ∀ (s t s' t' : State) (phi : F32),
    s' = { s with eqZ := s'.eqZ, eqA := s'.eqA, eqQ := s'.eqQ, eqP := s'.eqP } →
    exec (.spsample phi) s = .next t → exec (.spsample phi) s' = .next t' →
    t'.observedSps = t.observedSps ∧ t'.samplePoint = t.samplePoint ∧ t'.dly = t.dly ∧ t'.dlyPtr = t.dlyPtr ∧
      t'.previousPhase = t.previousPhase ∧ t'.noisy = t.noisy

/-! The equalizer. -/

/-- R151, R153: `EQNOUPD` writes both cells of the pair at `EQ_P` in both rings and advances the pointer, and changes no
tap. -/
def Obligations.EqnoupdInserts : Prop :=
  ∀ (s : State) (d : Dibit) (ph : F32), Shape hw s →
    exec (.eqnoupd d ph) s =
      .next { s with
        eqZ := (s.eqZ.set s.eqP ph).set (s.eqP + 25) ph
        eqA := (s.eqA.set s.eqP (ideal d)).set (s.eqP + 25) (ideal d)
        eqP := (s.eqP + 1) % 25
        ret := .none }

/-- R150, R152 (normative mode): after the insert, the output is the sum of the residuals times the taps, or `+0.0` where
that is not finite; every tap but the centre moves by `((2 * STEP) * e) * r(l)`, or to `+0.0` where that is not finite;
nothing else changes. -/
def Obligations.EqprocFiltersAndAdapts : Prop :=
  ∀ (s : State) (d : Dibit) (ph : F32), Shape hw s →
    ∃ (u : State) (Q : List F32) (y acc e : F32) (r q : Nat → F32),
      exec (.eqnoupd d ph) s = .next u ∧
      (∀ l, l < 25 → ∃ z a, u.eqZ[u.eqP + l]? = some z ∧ u.eqA[u.eqP + l]? = some a ∧ r l = f32Sub z a ∧
        s.eqQ[l]? = some (q l) ∧ (l = 12 → e = f32Sub a y)) ∧
      acc = (List.range 24).foldl (fun w l => f32Add w (f32Mul (r (l + 1)) (q (l + 1)))) (f32Mul (r 0) (q 0)) ∧
      y = (if f32IsFinite acc then acc else 0x00000000#32) ∧
      exec (.eqproc d ph) s = .next { u with eqQ := Q, ret := .f32 y } ∧ Q.length = 25 ∧ Q[12]? = s.eqQ[12]? ∧
      ∀ l, l < 25 → l ≠ 12 →
        ∃ v, v = f32Add (q l) (f32Mul (f32Mul (f32Mul 0x40000000#32 0x3DCCCCCD#32) e) (r l)) ∧
          Q[l]? = some (if f32IsFinite v then v else 0x00000000#32)

/-- R154: `EQSYNC` overwrites the 24 newest ideal phases in both halves of the ring, keeps the oldest, and then sets every
tap but the centre to `((-main) / 24.0) / r(x)`, or to `+0.0` where that is not finite; nothing else changes. -/
def Obligations.EqsyncRetunes : Prop :=
  ∀ (s : State) (T : List Dibit), Shape hw s → T.length = 24 →
    ∃ (A Q : List F32) (r : Nat → F32),
      exec (.eqsync T) s = .next { s with eqA := A, eqQ := Q, ret := .none } ∧
      A.length = 50 ∧ Q.length = 25 ∧ Q[12]? = s.eqQ[12]? ∧
      (∀ k d, T[k]? = some d → A[(s.eqP + 1 + k) % 25]? = some (ideal d) ∧
        A[(s.eqP + 1 + k) % 25 + 25]? = some (ideal d)) ∧
      A[s.eqP]? = s.eqA[s.eqP]? ∧ A[s.eqP + 25]? = s.eqA[s.eqP + 25]? ∧
      (∀ l, l < 25 → ∃ z a, s.eqZ[s.eqP + l]? = some z ∧ A[s.eqP + l]? = some a ∧ r l = f32Sub z a) ∧
      ∀ l, l < 25 → l ≠ 12 →
        ∃ v, v = f32Div (f32Div (f32Neg (r 12)) 0x41C00000#32) (r l) ∧
          Q[l]? = some (if f32IsFinite v then v else 0x00000000#32)

/-! `UPDOBS`, `DECIDE`, `TERR`. -/

/-- R166, R23, R24, R25: for a finite value of 4 or more, `UPDOBS` splits it exactly into its floor and a fraction in
`[0, 1)`, and sets the offset and the overlap from the floor. -/
def Obligations.UpdobsSplitsExactly : Prop :=
  ∀ (s : State) (x : F32), f32IsFinite x = true → f32Le 0x40800000#32 x = true →
    ∃ (m : F32) (f : Int),
      f * unitsPerOne + f32Val m = f32Val x ∧ 0 ≤ f32Val m ∧ f32Val m < unitsPerOne ∧ f32IsFinite m = true ∧ 4 ≤ f ∧
      exec (.updobs x) s = .next { s with mu := m, ioff := f - 4, overlap := (f + 4).toNat, ret := .none }

/-- R166: `UPDOBS` of any finite value completes: `MU` is the value less its floor, rounded once, `IOFF` is the floor less 4,
`OVERLAP` is the floor plus 4 where the value is at least -4, and nothing else changes. R166 asks for a value of 4 or more:
that the pseudocode runs below 4, and that `OVERLAP` is left free below -4, is the model's choice (assumption log 13). -/
def Obligations.UpdobsRunsOnEveryFiniteValue : Prop :=
  ∀ (s : State) (x : F32), f32IsFinite x = true →
    ∃ (f : Int) (ov : Nat), f * unitsPerOne ≤ f32Val x ∧ f32Val x < (f + 1) * unitsPerOne ∧
      f32Val (f32Floor x) = f * unitsPerOne ∧ (f32Le 0xC0800000#32 x = true → (ov : Int) = f + 4) ∧
      exec (.updobs x) s = .next { s with mu := f32Sub x (f32Floor x), ioff := f - 4, overlap := ov, ret := .none }

/-- R185, R186: `DECIDE` by the bit pattern of its argument: the thresholds are the patterns of `HALF_PI` and its
negation, the boundaries belong to the inner regions, both zeros and every NaN go to `D10_MINUS_1`. -/
def Obligations.DecideByRegions : Prop :=
  ∀ (s : State) (phi : F32),
    exec (.decidePhi phi) s =
      .next { s with
        ret := .dibit (if 0x3FC90FDB < phi.toNat ∧ phi.toNat ≤ 0x7F800000 then .d01Plus3
          else if 0 < phi.toNat ∧ phi.toNat ≤ 0x3FC90FDB then .d00Plus1
          else if 0xBFC90FDB < phi.toNat ∧ phi.toNat ≤ 0xFF800000 then .d11Minus3
          else .d10Minus1) }

/-- R187: `DECIDE` is total; its four regions are disjoint and with the NaNs cover all patterns, so that exactly one of the
five holds of each; over arguments that are not NaN it is monotone in the order
`D11_MINUS_3 < D10_MINUS_1 < D00_PLUS_1 < D01_PLUS_3`. -/
def Obligations.DecideIsTotalAndMonotone : Prop :=
  ∀ (s : State),
    (∀ phi : F32,
      (∃ d, exec (.decidePhi phi) s = .next { s with ret := .dibit d }) ∧
      [f32Lt 0x3FC90FDB#32 phi, f32Lt 0x00000000#32 phi && f32Le phi 0x3FC90FDB#32,
        f32Le 0xBFC90FDB#32 phi && f32Le phi 0x00000000#32, f32Lt phi 0xBFC90FDB#32, f32IsNaN phi].count true = 1) ∧
    (∀ x y : F32, f32Le x y = true →
      ∃ d e, exec (.decidePhi x) s = .next { s with ret := .dibit d } ∧
        exec (.decidePhi y) s = .next { s with ret := .dibit e } ∧ dibitRank d ≤ dibitRank e)

/-- R190: the clamped difference from the ideal phase, with its sign flipped where the preceding phase is not below the
following one. -/
def Obligations.TerrClampsAndSigns : Prop :=
  ∀ (s : State) (d : Dibit) (prec cur foll e0 : F32),
    e0 = (if f32Lt 0x3EC90FDB#32 (f32Sub (ideal d) cur) then 0x3EC90FDB#32
      else if f32Lt (f32Sub (ideal d) cur) 0xBEC90FDB#32 then 0xBEC90FDB#32
      else f32Sub (ideal d) cur) →
    exec (.terr d prec cur foll) s = .next { s with ret := .f32 (if f32Lt prec foll then e0 else f32Neg e0) }

/-- R191: for a phase that is not NaN the timing error is at most `EIGHTH_PI` in magnitude, and equal to it where the
distance from the ideal phase is at least that; at the ideal phase itself it is a zero (R193, P5). -/
def Obligations.TerrIsBounded : Prop :=
  ∀ (s : State) (d : Dibit) (prec cur foll : F32), f32IsNaN cur = false →
    ∃ e, exec (.terr d prec cur foll) s = .next { s with ret := .f32 e } ∧
      f32Le (f32Abs e) 0x3EC90FDB#32 = true ∧
      (f32Le 0x3EC90FDB#32 (f32Abs (f32Sub (ideal d) cur)) = true → f32Abs e = 0x3EC90FDB#32) ∧
      (cur = ideal d → f32Lt prec foll = true → e = 0x00000000#32)

/-! The sync detector and the dibit delay line. -/

/-- R196, R197: `SYNCCORR` stores the clamped phase in both cells of the pair, advances the pointer, and returns the
product, in ascending order, of the pattern's phases with the last 24 stored ones, oldest first. -/
def Obligations.SynccorrScoresAfterInsert : Prop :=
  ∀ (s : State) (ph c : F32), Shape hw s →
    c = (if f32Lt 0x4016CBE4#32 ph then 0x4016CBE4#32 else if f32Lt ph 0xC016CBE4#32 then 0xC016CBE4#32 else ph) →
    ∃ (ring : List F32) (w : Nat → F32) (score : F32),
      ring = (s.sdS.set s.sdI c).set (s.sdI + 24) c ∧
      (∀ k, k < 24 → ring[(s.sdI + 1) % 24 + k]? = some (w k)) ∧
      score = (List.range 23).foldl
        (fun acc k => f32Add acc (f32Mul (ideal (syncDibits.getD (k + 1) .d00Plus1)) (w (k + 1))))
        (f32Mul (ideal (syncDibits.getD 0 .d00Plus1)) (w 0)) ∧
      exec (.synccorr ph) s = .next { s with sdS := ring, sdI := (s.sdI + 1) % 24, ret := .f32 score }

/-- R197: with every stored phase and the new one not NaN and the stored ones within `THREEQ_PI`, no score exceeds
133.23964, the pattern's score against itself. -/
def Obligations.SyncScoreIsBounded : Prop :=
  ∀ (s : State) (ph : F32), Shape hw s → f32IsNaN ph = false →
    (∀ (k : Nat) (v : F32), s.sdS[k]? = some v → f32Le (f32Abs v) 0x4016CBE4#32 = true) →
    ∃ t score, exec (.synccorr ph) s = .next t ∧ t.ret = .f32 score ∧ f32Le score 0x43053D59#32 = true

/-- R83, R84: the 24 dibits of the sync pattern, each `01` or `11`, and the pattern's score against itself. -/
def Obligations.SyncPatternTables : Prop :=
  syncDibits.map (fun d => d.value.toNat) = [1, 3, 1, 1, 1, 1, 3, 3, 3, 1, 1, 3, 3, 1, 3, 3, 3, 1, 1, 1, 1, 3, 3, 1] ∧
  syncRef = syncDibits.map (fun d => if d = .d01Plus3 then 0x4016CBE4#32 else 0xC016CBE4#32) ∧
  dot hw syncRef syncRef = 0x43053D59#32

/-- R85: whatever `SSR` held, after the 24 dibits of the pattern have been shifted in, in order, it holds
`SYNC_PATTERN`; each shift is `((SSR << 2) | value(d)) mod 2^48`. -/
def Obligations.SsrHoldsPatternAfterIt : Prop :=
  ∀ (s : State),
    (∀ d, (shiftSsr d s).ssr.toNat = (s.ssr.toNat * 4 + d.value.toNat) % 2 ^ 48) ∧
    (syncDibits.foldl (fun t d => shiftSsr d t) s).ssr = 0x755FD7DFD57D#48

/-- R198: `DDLPUSH` returns the oldest dibit, puts the new one in its place, and advances the pointer. -/
def Obligations.DdlpushSwapsOldest : Prop :=
  ∀ (s : State) (d : Dibit), Shape hw s →
    ∃ out, s.ddl[s.ddlPtr]? = some out ∧
      exec (.ddlpush d) s =
        .next { s with ddl := s.ddl.set s.ddlPtr d, ddlPtr := (s.ddlPtr + 1) % 24, ret := .dibit out }

/-- R198, R200: what is returned is what was pushed 24 calls earlier: 24 pushes return the stored dibits, oldest first, and
the next 24 return the dibits of the first. -/
def Obligations.DelayLineLatencyIs24 : Prop :=
  ∀ (s : State) (ds es : List Dibit), Shape hw s → ds.length = 24 → es.length = 24 →
    ∃ t u, pushAll ds s = some (t, s.ddl.drop s.ddlPtr ++ s.ddl.take s.ddlPtr) ∧ pushAll es t = some (u, ds) ∧
      t.ddlPtr = s.ddlPtr

/-- R199: `DDLSYNC` changes the delay line only, leaves `DDL_PTR` where it is, and the next 24 pushes return
`SYNC_DIBITS` in order. -/
def Obligations.DdlsyncReleasesPattern : Prop :=
  ∀ (s : State) (es : List Dibit), Shape hw s → es.length = 24 →
    ∃ t u, exec .ddlsync s = .next t ∧ t = { s with ddl := t.ddl, ret := .none } ∧ t.ddl.length = 24 ∧
      (∀ k d, syncDibits[k]? = some d → t.ddl[(s.ddlPtr + k) % 24]? = some d) ∧
      pushAll es t = some (u, syncDibits)

/-! Numerics. -/

/-- R7: the sum, difference, product and quotient of finite operands are the exact results rounded once, to nearest, ties
to even. -/
def Obligations.ArithmeticRoundsOnceToNearestEven : Prop :=
  ∀ (x y : F32), f32IsFinite x = true → f32IsFinite y = true →
    NearestEven (f32Add x y) (f32Val x + f32Val y) 1 ∧
    NearestEven (f32Sub x y) (f32Val x - f32Val y) 1 ∧
    NearestEven (f32Mul x y) (f32Val x * f32Val y) unitsPerOne ∧
    (f32IsZero y = false →
      NearestEven (f32Div x y) (f32Val x * unitsPerOne * (f32Val y).sign) (f32Val y).natAbs)

/-- R7: the comparisons are those of the values on finite operands, false where an operand is NaN, and take `-0` for
`+0`. -/
def Obligations.ComparisonsFollowValues : Prop :=
  ∀ (x y : F32),
    (f32IsFinite x = true → f32IsFinite y = true →
      (f32Lt x y = true ↔ f32Val x < f32Val y) ∧ (f32Le x y = true ↔ f32Val x ≤ f32Val y) ∧
      (f32Eq x y = true ↔ f32Val x = f32Val y)) ∧
    (f32IsNaN x = true ∨ f32IsNaN y = true → f32Lt x y = false ∧ f32Le x y = false ∧ f32Eq x y = false) ∧
    f32Eq 0x80000000#32 0x00000000#32 = true

end
end

