-- ==== Sys2Proof/Laws/Round.lean ====
section
/-! SUPPORT. Rounding: `roundHalfEven` and `f32RoundBody` are monotone in the ratio they round, and a magnitude a binary32
can hold rounds to itself. -/

namespace Sys2Proof.Machine

/-! `roundHalfEven`. -/

theorem le_roundHalfEven (n d : Nat) : n / d ≤ roundHalfEven n d := by
  unfold roundHalfEven; simp only; split <;> omega

theorem roundHalfEven_le (n d : Nat) : roundHalfEven n d ≤ n / d + 1 := by
  unfold roundHalfEven; simp only; split <;> omega

/-- When the quotient is rounded up: more than half, or half above an odd quotient. -/
theorem roundHalfEven_eq (n d : Nat) :
    roundHalfEven n d =
      if d < 2 * (n % d) ∨ (2 * (n % d) = d ∧ n / d % 2 = 1) then n / d + 1 else n / d := by
  unfold roundHalfEven
  simp [Nat.blt_eq, Nat.beq_eq]

theorem roundHalfEven_mono {n d n' d' : Nat} (hd : 0 < d) (hd' : 0 < d') (h : n * d' ≤ n' * d) :
    roundHalfEven n d ≤ roundHalfEven n' d' := by
  have hq : n / d ≤ n' / d' := by
    rw [Nat.le_div_iff_mul_le hd']
    have h1 : n / d * d ≤ n := Nat.div_mul_le_self n d
    have h2 : n / d * d * d' ≤ n' * d := le_trans (Nat.mul_le_mul_right d' h1) h
    have h3 : (n / d * d') * d ≤ n' * d := by nlinarith
    exact Nat.le_of_mul_le_mul_right h3 hd
  rcases Nat.lt_or_ge (n / d) (n' / d') with hlt | hge
  · exact le_trans (roundHalfEven_le n d) (le_trans hlt (le_roundHalfEven n' d'))
  · have heq : n / d = n' / d' := le_antisymm hq hge
    have e1 : d * (n / d) + n % d = n := Nat.div_add_mod n d
    have e2 : d' * (n' / d') + n' % d' = n' := Nat.div_add_mod n' d'
    have hr : n % d * d' ≤ n' % d' * d := by
      rw [← heq] at e2
      have a : n * d' = d * (n / d) * d' + n % d * d' := by rw [← Nat.add_mul, e1]
      have b : n' * d = d' * (n / d) * d + n' % d' * d := by rw [← Nat.add_mul, e2]
      have c : d * (n / d) * d' = d' * (n / d) * d := by ring
      omega
    rw [roundHalfEven_eq, roundHalfEven_eq, ← heq]
    have up : d < 2 * (n % d) → d' < 2 * (n' % d') := by
      intro hlt
      by_contra hc
      have h1 : 2 * (n' % d') * d ≤ d' * d := Nat.mul_le_mul_right d (not_lt.mp hc)
      have h2 : d * d' < 2 * (n % d) * d' := Nat.mul_lt_mul_of_pos_right hlt hd'
      nlinarith
    have half : 2 * (n % d) = d → d' ≤ 2 * (n' % d') := by
      intro he
      by_contra hc
      have h1 : 2 * (n' % d') * d < d' * d := Nat.mul_lt_mul_of_pos_right (not_le.mp hc) hd
      have h2 : d * d' = 2 * (n % d) * d' := by rw [he]
      nlinarith
    split_ifs with c1 c2 c2
    · exact le_rfl
    · exfalso
      rcases c1 with hlt | ⟨he, ho⟩
      · exact c2 (Or.inl (up hlt))
      · rcases Nat.lt_or_ge d' (2 * (n' % d')) with hl | hl
        · exact c2 (Or.inl hl)
        · exact c2 (Or.inr ⟨le_antisymm hl (half he), ho⟩)
    · omega
    · exact le_rfl

/-- A quotient with no remainder is its own rounding. -/
theorem roundHalfEven_exact {d : Nat} (q : Nat) (hd : 0 < d) : roundHalfEven (q * d) d = q := by
  rw [roundHalfEven_eq, Nat.mul_mod_left, Nat.mul_div_cancel q hd, if_neg]
  omega

/-! The magnitude of a pattern, as a function of its bits 30:0. -/

/-- The magnitude in units of 2^-149 that bits 30:0 stand for. -/
def magBody (b : Nat) : Nat :=
  if b / 8388608 = 0 then b else (b % 8388608 + 8388608) * 2 ^ (b / 8388608 - 1)

theorem magBody_zero : magBody 0 = 0 := rfl

theorem magBody_succ (b : Nat) : magBody b < magBody (b + 1) := by
  unfold magBody
  by_cases h0 : b / 8388608 = 0
  · rw [if_pos h0]
    by_cases h1 : (b + 1) / 8388608 = 0
    · rw [if_pos h1]; omega
    · rw [if_neg h1]
      have : (b + 1) / 8388608 = 1 := by omega
      rw [this]; simp; omega
  · rw [if_neg h0, if_neg (by omega)]
    have hp : 0 < 2 ^ (b / 8388608 - 1) := Nat.pos_of_ne_zero (by positivity)
    rcases Nat.lt_or_ge (b % 8388608 + 1) 8388608 with hm | hm
    · have e1 : (b + 1) / 8388608 = b / 8388608 := by omega
      have e2 : (b + 1) % 8388608 = b % 8388608 + 1 := by omega
      rw [e1, e2]
      exact Nat.mul_lt_mul_of_pos_right (by omega) hp
    · have e1 : (b + 1) / 8388608 = b / 8388608 + 1 := by omega
      have e2 : (b + 1) % 8388608 = 0 := by omega
      have e3 : b / 8388608 + 1 - 1 = (b / 8388608 - 1) + 1 := by omega
      rw [e1, e2, e3, pow_succ]
      have : b % 8388608 = 8388607 := by omega
      rw [this]
      nlinarith

theorem magBody_strictMono : StrictMono magBody := strictMono_nat_of_lt_succ magBody_succ

theorem magBody_lt_iff {a b : Nat} : magBody a < magBody b ↔ a < b := magBody_strictMono.lt_iff_lt

theorem magBody_le_iff {a b : Nat} : magBody a ≤ magBody b ↔ a ≤ b := magBody_strictMono.le_iff_le

theorem magBody_inj {a b : Nat} : magBody a = magBody b ↔ a = b := magBody_strictMono.injective.eq_iff

theorem magBody_eq_zero {b : Nat} : magBody b = 0 ↔ b = 0 := by
  have := magBody_inj (a := b) (b := 0)
  rwa [magBody_zero] at this

/-! `f32RoundBody` before its overflow test. -/

/-- The rounded pattern with no bound on its exponent. -/
def roundUnbounded (num den : Nat) : Nat :=
  roundShift (num / den) * 8388608 + roundHalfEven num (den * 2 ^ roundShift (num / den))

theorem f32RoundBody_eq (num den : Nat) : f32RoundBody num den = min (roundUnbounded num den) 2139095040 := by
  unfold f32RoundBody roundUnbounded
  simp only [Nat.pow_eq, Nat.blt_eq]
  split <;> omega

theorem lt_two_pow_roundShift (t : Nat) : t < 2 ^ (roundShift t + 24) := by
  unfold roundShift
  rcases Nat.eq_zero_or_pos t with rfl | ht
  · simp
  · calc t < 2 ^ (Nat.log2 t + 1) := Nat.lt_log2_self
      _ ≤ 2 ^ (Nat.log2 t - 23 + 24) := Nat.pow_le_pow_right (by norm_num) (by omega)

theorem two_pow_roundShift_le {t : Nat} (h : 0 < roundShift t) : 2 ^ (roundShift t + 23) ≤ t := by
  unfold roundShift at *
  have ht : t ≠ 0 := by rintro rfl; simp at h
  have e : Nat.log2 t - 23 + 23 = Nat.log2 t := by omega
  rw [e]
  exact Nat.log2_self_le ht

theorem roundShift_mono {t t' : Nat} (h : t ≤ t') : roundShift t ≤ roundShift t' := by
  rcases Nat.eq_zero_or_pos (roundShift t) with h0 | h0
  · omega
  · have h1 := two_pow_roundShift_le h0
    have h2 := lt_two_pow_roundShift t'
    have h3 : 2 ^ (roundShift t + 23) < 2 ^ (roundShift t' + 24) := lt_of_le_of_lt (le_trans h1 h) h2
    have := (Nat.pow_lt_pow_iff_right (by norm_num : 1 < 2)).mp h3
    omega

/-- The significand that rounding leaves has at most 24 bits, or is 2^24. -/
theorem roundHalfEven_sig_le (num den : Nat) :
    roundHalfEven num (den * 2 ^ roundShift (num / den)) ≤ 16777216 := by
  have hp : 0 < 2 ^ roundShift (num / den) := by positivity
  have h1 : num / (den * 2 ^ roundShift (num / den)) < 16777216 := by
    rw [← Nat.div_div_eq_div_mul, Nat.div_lt_iff_lt_mul hp]
    have := lt_two_pow_roundShift (num / den)
    rw [pow_add] at this
    norm_num at this ⊢
    linarith
  exact le_trans (roundHalfEven_le _ _) (by omega)

/-- Above the subnormals the significand that rounding leaves has its leading bit. -/
theorem le_roundHalfEven_sig {num den : Nat}
    (h : 0 < roundShift (num / den)) :
    8388608 ≤ roundHalfEven num (den * 2 ^ roundShift (num / den)) := by
  have hp : 0 < 2 ^ roundShift (num / den) := by positivity
  refine le_trans ?_ (le_roundHalfEven _ _)
  rw [← Nat.div_div_eq_div_mul, Nat.le_div_iff_mul_le hp]
  have := two_pow_roundShift_le h
  rw [pow_add] at this
  norm_num at this ⊢
  linarith

theorem roundUnbounded_mono {n d n' d' : Nat} (hd : 0 < d) (hd' : 0 < d') (h : n * d' ≤ n' * d) :
    roundUnbounded n d ≤ roundUnbounded n' d' := by
  have ht : n / d ≤ n' / d' := by
    rw [Nat.le_div_iff_mul_le hd']
    have h1 : n / d * d ≤ n := Nat.div_mul_le_self n d
    have h3 : (n / d * d') * d ≤ n' * d := by nlinarith
    exact Nat.le_of_mul_le_mul_right h3 hd
  unfold roundUnbounded
  rcases Nat.lt_or_ge (roundShift (n / d)) (roundShift (n' / d')) with hs | hs
  · have a := roundHalfEven_sig_le n d
    have b := le_roundHalfEven_sig (num := n') (den := d') (by omega)
    omega
  · have he : roundShift (n / d) = roundShift (n' / d') := le_antisymm (roundShift_mono ht) hs
    rw [he]
    have hp : 0 < 2 ^ roundShift (n' / d') := by positivity
    refine Nat.add_le_add_left (roundHalfEven_mono (by positivity) (by positivity) ?_) _
    calc n * (d' * 2 ^ roundShift (n' / d')) = (n * d') * 2 ^ roundShift (n' / d') := by ring
      _ ≤ (n' * d) * 2 ^ roundShift (n' / d') := Nat.mul_le_mul_right _ h
      _ = n' * (d * 2 ^ roundShift (n' / d')) := by ring

theorem f32RoundBody_mono {n d n' d' : Nat} (hd : 0 < d) (hd' : 0 < d') (h : n * d' ≤ n' * d) :
    f32RoundBody n d ≤ f32RoundBody n' d' := by
  rw [f32RoundBody_eq, f32RoundBody_eq]
  exact min_le_min_right _ (roundUnbounded_mono hd hd' h)

theorem f32RoundBody_le (n d : Nat) : f32RoundBody n d ≤ 2139095040 := by
  rw [f32RoundBody_eq]; exact min_le_right _ _

/-- A magnitude that the grid of its binade divides is represented exactly. -/
theorem magBody_roundUnbounded {v d : Nat} (hd : 0 < d) (h : 2 ^ roundShift v ∣ v) :
    magBody (roundUnbounded (v * d) d) = v := by
  obtain ⟨q, hq⟩ := h
  have hp : 0 < 2 ^ roundShift v := by positivity
  have hdiv : v * d / d = v := Nat.mul_div_cancel v hd
  have hr : roundHalfEven (v * d) (d * 2 ^ roundShift v) = q := by
    have : v * d = q * (d * 2 ^ roundShift v) := by
      conv_lhs => rw [hq]
      ring
    rw [this]; exact roundHalfEven_exact q (by positivity)
  have hlt : q < 16777216 := by
    have := lt_two_pow_roundShift v
    rw [pow_add] at this
    by_contra hc
    have : 2 ^ roundShift v * 16777216 ≤ 2 ^ roundShift v * q := Nat.mul_le_mul_left _ (not_lt.mp hc)
    rw [← hq] at this
    norm_num at *
    omega
  unfold roundUnbounded
  rw [hdiv, hr]
  rcases Nat.eq_zero_or_pos (roundShift v) with h0 | h0
  · rw [h0] at hq ⊢
    simp at hq
    unfold magBody
    by_cases hb : q / 8388608 = 0
    · rw [if_pos (by simpa using hb)]; simp [hq]
    · have : q / 8388608 = 1 := by omega
      rw [if_neg (by simpa using hb)]
      simp only [Nat.zero_mul, Nat.zero_add, this]
      simp; omega
  · have hge : 8388608 ≤ q := by
      have := two_pow_roundShift_le h0
      rw [pow_add] at this
      by_contra hc
      have h2 : 2 ^ roundShift v * q < 2 ^ roundShift v * 8388608 := Nat.mul_lt_mul_of_pos_left (not_le.mp hc) hp
      rw [← hq] at h2
      norm_num at this h2
      omega
    unfold magBody
    have e1 : (roundShift v * 8388608 + q) / 8388608 = roundShift v + 1 := by omega
    have e2 : (roundShift v * 8388608 + q) % 8388608 = q - 8388608 := by omega
    rw [e1, e2, if_neg (by omega)]
    have e3 : q - 8388608 + 8388608 = q := by omega
    rw [e3, Nat.add_sub_cancel, hq, mul_comm]
    congr 2
    rw [← hq]

/-- The grid of its own binade divides what a pattern stands for. -/
theorem two_pow_roundShift_dvd_magBody (b : Nat) : 2 ^ roundShift (magBody b) ∣ magBody b := by
  have key : ∀ m e : Nat, m < 16777216 → 2 ^ roundShift (m * 2 ^ e) ∣ m * 2 ^ e := by
    intro m e hm
    rcases Nat.eq_zero_or_pos (roundShift (m * 2 ^ e)) with h0 | h0
    · rw [h0]; simp
    · have h1 := two_pow_roundShift_le h0
      have hp : 0 < 2 ^ e := by positivity
      have h2 : m * 2 ^ e < 2 ^ (24 + e) := by
        rw [pow_add]
        have := Nat.mul_lt_mul_of_pos_right hm hp
        norm_num at this ⊢
        exact this
      have h3 := (Nat.pow_lt_pow_iff_right (by norm_num : 1 < 2)).mp (lt_of_le_of_lt h1 h2)
      exact Dvd.dvd.mul_left (pow_dvd_pow 2 (by omega)) m
  unfold magBody
  by_cases h : b / 8388608 = 0
  · rw [if_pos h]
    have := key b 0 (by omega)
    simpa using this
  · rw [if_neg h]
    exact key _ _ (by omega)

/-- A magnitude below 2^24 times a power of two is represented exactly. -/
theorem two_pow_roundShift_dvd {m e : Nat} (hm : m ≤ 16777216) : 2 ^ roundShift (m * 2 ^ e) ∣ m * 2 ^ e := by
  rcases Nat.eq_zero_or_pos (roundShift (m * 2 ^ e)) with h0 | h0
  · rw [h0]; simp
  · have h1 := two_pow_roundShift_le h0
    have h2 : m * 2 ^ e ≤ 2 ^ (24 + e) := by
      rw [pow_add]
      have := Nat.mul_le_mul_right (2 ^ e) hm
      norm_num at this ⊢
      exact this
    have h3 := (Nat.pow_le_pow_iff_right (by norm_num : 1 < 2)).mp (le_trans h1 h2)
    rcases Nat.lt_or_ge e (roundShift (m * 2 ^ e)) with hlt | hge
    · have he : roundShift (m * 2 ^ e) = e + 1 := by omega
      rw [he] at h1 ⊢
      have h4 : m = 16777216 := by
        have h5 : 2 ^ (e + 1 + 23) = 16777216 * 2 ^ e := by rw [show e + 1 + 23 = 24 + e by omega, pow_add]; norm_num
        rw [h5] at h1
        have := Nat.le_of_mul_le_mul_right h1 (by positivity)
        omega
      rw [h4, pow_succ, mul_comm]
      exact Nat.mul_dvd_mul_right ⟨8388608, by norm_num⟩ (2 ^ e)
    · exact Dvd.dvd.mul_left (pow_dvd_pow 2 hge) m

theorem roundUnbounded_magBody (b : Nat) {d : Nat} (hd : 0 < d) : roundUnbounded (magBody b * d) d = b :=
  magBody_inj.mp (magBody_roundUnbounded hd (two_pow_roundShift_dvd_magBody b))

/-- What a finite pattern stands for rounds to that pattern. -/
theorem f32RoundBody_magBody {b d : Nat} (hd : 0 < d) (hb : b ≤ 2139095040) :
    f32RoundBody (magBody b * d) d = b := by
  rw [f32RoundBody_eq, roundUnbounded_magBody b hd]; omega

end Sys2Proof.Machine
end

