-- ==== Sys2Proof/Laws/Float.lean ====
section
/-! SUPPORT. What the binary32 operations answer, said through two readings of a pattern: its place in the order of
binary32 (`f32Key`) and, for a finite one, its value in units of 2^-149 (`f32Val`). -/

namespace Sys2Proof.Machine

/-! Packing. -/

theorem f32Body_lt (x : F32) : f32Body x < 2147483648 := Nat.mod_lt _ (by norm_num)

theorem f32Sign_eq (x : F32) : f32Sign x = decide (2147483648 ≤ x.toNat) := by
  unfold f32Sign
  rw [Bool.eq_iff_iff]; simp

theorem f32Pack_toNat {n : Bool} {b : Nat} (hb : b < 2147483648) :
    (f32Pack n b).toNat = if n then b + 2147483648 else b := by
  unfold f32Pack
  cases n <;> (simp; omega)

@[simp] theorem f32Sign_pack {n : Bool} {b : Nat} (hb : b < 2147483648) : f32Sign (f32Pack n b) = n := by
  rw [f32Sign_eq, f32Pack_toNat hb]
  cases n <;> simp
  omega

@[simp] theorem f32Body_pack {n : Bool} {b : Nat} (hb : b < 2147483648) : f32Body (f32Pack n b) = b := by
  unfold f32Body
  rw [f32Pack_toNat hb]
  cases n <;> simp <;> omega

theorem f32Pack_eta (x : F32) : f32Pack (f32Sign x) (f32Body x) = x := by
  apply BitVec.eq_of_toNat_eq
  rw [f32Pack_toNat (f32Body_lt x), f32Sign_eq]
  have := x.isLt
  unfold f32Body
  by_cases h : 2147483648 ≤ x.toNat <;> simp [h] <;> omega

theorem f32_ext {x y : F32} (hs : f32Sign x = f32Sign y) (hb : f32Body x = f32Body y) : x = y := by
  rw [← f32Pack_eta x, ← f32Pack_eta y, hs, hb]

/-! Classes. -/

theorem f32IsNaN_iff (x : F32) : f32IsNaN x = true ↔ 2139095040 < f32Body x := by simp [f32IsNaN, Nat.blt_eq]

theorem f32IsInf_iff (x : F32) : f32IsInf x = true ↔ f32Body x = 2139095040 := by simp [f32IsInf, Nat.beq_eq]

theorem f32IsFinite_iff (x : F32) : f32IsFinite x = true ↔ f32Body x < 2139095040 := by simp [f32IsFinite, Nat.blt_eq]

theorem f32IsZero_iff (x : F32) : f32IsZero x = true ↔ f32Body x = 0 := by simp [f32IsZero, Nat.beq_eq]

theorem f32IsNaN_eq_false {x : F32} (h : f32IsFinite x = true) : f32IsNaN x = false := by
  rw [Bool.eq_false_iff]; intro c
  rw [f32IsNaN_iff] at c; rw [f32IsFinite_iff] at h; omega

theorem f32IsInf_eq_false {x : F32} (h : f32IsFinite x = true) : f32IsInf x = false := by
  rw [Bool.eq_false_iff]; intro c
  rw [f32IsInf_iff] at c; rw [f32IsFinite_iff] at h; omega

/-- The free bits of a NaN always make a NaN. -/
theorem f32IsNaN_nanOf (bits : BitVec 32) : f32IsNaN (f32NaNOf bits) = true := by
  have hf : f32Frac bits < 8388608 := Nat.mod_lt _ (by norm_num)
  rw [f32IsNaN_iff]
  unfold f32NaNOf
  split
  · rw [f32Body_pack (by norm_num)]; norm_num
  · rw [f32Body_pack (by omega)]; omega

@[simp] theorem f32IsNaN_nan (op : NanOp) (x y : F32) : f32IsNaN (f32NaN op x y) = true := f32IsNaN_nanOf _

/-- Every NaN pattern is the NaN of some free bits: the free value leaves out no NaN. -/
theorem nanOf_self {x : F32} (h : f32IsNaN x = true) : f32NaNOf x = x := by
  rw [f32IsNaN_iff] at h
  have hb := f32Body_lt x
  have e : f32Body x = f32Body x / 8388608 * 8388608 + f32Body x % 8388608 := by omega
  have hq : f32Body x / 8388608 = 255 := by omega
  have hfr : f32Frac x = f32Body x % 8388608 := by unfold f32Frac f32Body; omega
  have hn : f32Frac x ≠ 0 := by omega
  unfold f32NaNOf
  rw [if_neg hn]
  apply f32_ext
  · rw [f32Sign_pack (by omega)]
  · rw [f32Body_pack (by omega)]; omega

@[simp] theorem f32IsFinite_nan (op : NanOp) (x y : F32) : f32IsFinite (f32NaN op x y) = false := by
  have := f32IsNaN_nan op x y
  rw [f32IsNaN_iff] at this
  rw [Bool.eq_false_iff]; intro c
  rw [f32IsFinite_iff] at c; omega

@[simp] theorem f32Lt_nan_left (op : NanOp) (x y z : F32) : f32Lt (f32NaN op x y) z = false := by simp [f32Lt]

@[simp] theorem f32Lt_nan_right (op : NanOp) (x y z : F32) : f32Lt z (f32NaN op x y) = false := by simp [f32Lt]

@[simp] theorem f32Le_nan_left (op : NanOp) (x y z : F32) : f32Le (f32NaN op x y) z = false := by simp [f32Le]

@[simp] theorem f32Le_nan_right (op : NanOp) (x y z : F32) : f32Le z (f32NaN op x y) = false := by simp [f32Le]

theorem f32Lt_iff {x y : F32} (hx : f32IsNaN x = false) (hy : f32IsNaN y = false) :
    f32Lt x y = true ↔ f32Key x < f32Key y := by simp [f32Lt, hx, hy]

theorem f32Le_iff {x y : F32} (hx : f32IsNaN x = false) (hy : f32IsNaN y = false) :
    f32Le x y = true ↔ f32Key x ≤ f32Key y := by simp [f32Le, hx, hy]

theorem f32Lt_false_iff {x y : F32} (hx : f32IsNaN x = false) (hy : f32IsNaN y = false) :
    f32Lt x y = false ↔ f32Key y ≤ f32Key x := by simp [f32Lt, hx, hy]

theorem f32Le_true {x y : F32} (h : f32Le x y = true) :
    f32IsNaN x = false ∧ f32IsNaN y = false ∧ f32Key x ≤ f32Key y := by
  simpa [f32Le, and_assoc] using h

theorem f32Lt_true {x y : F32} (h : f32Lt x y = true) :
    f32IsNaN x = false ∧ f32IsNaN y = false ∧ f32Key x < f32Key y := by
  simpa [f32Lt, and_assoc] using h

/-- A pattern between two finite ones is finite. -/
theorem f32IsFinite_of_between {x a b : F32} (ha : f32IsFinite a = true)
    (hb : f32IsFinite b = true) (h1 : f32Key a ≤ f32Key x) (h2 : f32Key x ≤ f32Key b) : f32IsFinite x = true := by
  rw [f32IsFinite_iff] at *
  unfold f32Key at *
  split_ifs at h1 h2 <;> omega

/-! Values. -/

theorem f32Mag_eq (x : F32) : f32Mag x = magBody (f32Body x) := by
  have h1 : f32Exp x = f32Body x / 8388608 := by unfold f32Exp f32Body; omega
  have h2 : f32Frac x = f32Body x % 8388608 := by unfold f32Frac f32Body; omega
  unfold f32Mag magBody
  rw [h1, h2, Nat.pow_eq]
  split <;> omega

theorem f32Val_natAbs (x : F32) : (f32Val x).natAbs = f32Mag x := by unfold f32Val; split <;> simp

theorem f32Key_natAbs (x : F32) : (f32Key x).natAbs = f32Body x := by unfold f32Key; split <;> simp

theorem f32Val_eq (x : F32) :
    f32Val x = if f32Sign x then -(magBody (f32Body x) : Int) else (magBody (f32Body x) : Int) := by
  unfold f32Val; rw [f32Mag_eq]

/-- The order of values is the order of patterns. -/
theorem f32Val_le_iff (x y : F32) : f32Val x ≤ f32Val y ↔ f32Key x ≤ f32Key y := by
  have a := @magBody_le_iff (f32Body x) (f32Body y)
  have b := @magBody_le_iff (f32Body y) (f32Body x)
  have cx := @magBody_eq_zero (f32Body x)
  have cy := @magBody_eq_zero (f32Body y)
  rw [f32Val_eq, f32Val_eq]
  unfold f32Key
  split_ifs <;> omega

theorem f32Val_lt_iff (x y : F32) : f32Val x < f32Val y ↔ f32Key x < f32Key y := by
  have := f32Val_le_iff y x
  omega

theorem f32Val_eq_iff (x y : F32) : f32Val x = f32Val y ↔ f32Key x = f32Key y := by
  have := f32Val_le_iff y x
  have := f32Val_le_iff x y
  omega

theorem f32Val_eq_zero_iff (x : F32) : f32Val x = 0 ↔ f32Body x = 0 := by
  rw [← Int.natAbs_eq_zero, f32Val_natAbs, f32Mag_eq, magBody_eq_zero]

/-! Rounding of a signed ratio: the place, in the order of binary32, of the pattern it rounds to. -/

/-- The place of the binary32 nearest to `v / d` units of 2^-149. -/
def roundKey (v : Int) (d : Nat) : Int :=
  if v < 0 then -(f32RoundBody v.natAbs d : Int) else (f32RoundBody v.natAbs d : Int)

theorem f32RoundBody_zero (d : Nat) : f32RoundBody 0 d = 0 := by
  simp [f32RoundBody_eq, roundUnbounded, roundShift, roundHalfEven_eq]

theorem roundKey_mono {v w : Int} {d e : Nat} (hd : 0 < d) (he : 0 < e) (h : v * e ≤ w * d) :
    roundKey v d ≤ roundKey w e := by
  unfold roundKey
  split_ifs with hv hw hw
  · have : w.natAbs * d ≤ v.natAbs * e := by
      zify; rw [abs_of_neg hv, abs_of_neg hw]; linarith
    have := f32RoundBody_mono he hd this
    omega
  · omega
  · exfalso
    have h1 : 0 ≤ v * e := mul_nonneg (not_lt.mp hv) (by positivity)
    have h2 : w * d < 0 := mul_neg_of_neg_of_pos hw (by exact_mod_cast hd)
    omega
  · have : v.natAbs * e ≤ w.natAbs * d := by
      zify; rw [abs_of_nonneg (not_lt.mp hv), abs_of_nonneg (not_lt.mp hw)]; exact h
    have := f32RoundBody_mono hd he this
    omega

/-- The value of a finite pattern rounds to that pattern. -/
theorem roundKey_val {x : F32} (hx : f32IsFinite x = true) {d : Nat} (hd : 0 < d) :
    roundKey (f32Val x * d) d = f32Key x := by
  rw [f32IsFinite_iff] at hx
  have hb := f32RoundBody_magBody (b := f32Body x) hd (by omega)
  unfold roundKey
  have hna : (f32Val x * d).natAbs = magBody (f32Body x) * d := by
    rw [Int.natAbs_mul, f32Val_natAbs, f32Mag_eq]; simp
  rw [hna, hb]
  have hz := @magBody_eq_zero (f32Body x)
  rw [f32Val_eq]
  unfold f32Key
  have hd' : (0 : Int) < d := by exact_mod_cast hd
  by_cases hs : f32Sign x = true
  · simp only [hs, if_true]
    by_cases h0 : f32Body x = 0
    · simp [h0]
    · have : 0 < magBody (f32Body x) := Nat.pos_of_ne_zero (by tauto)
      rw [if_pos]
      exact mul_neg_of_neg_of_pos (by omega) hd'
  · simp only [hs, if_false, Bool.false_eq_true]
    rw [if_neg]
    exact not_lt.mpr (by positivity)

theorem f32RoundBody_lt (n d : Nat) : f32RoundBody n d < 2147483648 := by
  have := f32RoundBody_le n d; omega

theorem f32Key_round (neg : Bool) (n d : Nat) :
    f32Key (f32Round neg n d) = if neg then -(f32RoundBody n d : Int) else (f32RoundBody n d : Int) := by
  unfold f32Round f32Key
  rw [f32Sign_pack (f32RoundBody_lt n d), f32Body_pack (f32RoundBody_lt n d)]

@[simp] theorem f32IsNaN_round (neg : Bool) (n d : Nat) : f32IsNaN (f32Round neg n d) = false := by
  rw [Bool.eq_false_iff]; intro c
  rw [f32IsNaN_iff] at c
  unfold f32Round at c
  rw [f32Body_pack (f32RoundBody_lt n d)] at c
  have := f32RoundBody_le n d; omega

theorem f32Key_zero (neg : Bool) : f32Key (f32Zero neg) = 0 := by
  unfold f32Zero f32Key
  rw [f32Body_pack (by norm_num)]; simp

@[simp] theorem f32IsNaN_zero (neg : Bool) : f32IsNaN (f32Zero neg) = false := by
  rw [Bool.eq_false_iff]; intro c
  rw [f32IsNaN_iff] at c
  unfold f32Zero at c
  rw [f32Body_pack (by norm_num)] at c; omega

/-! `fneg`, `fabs`. -/

@[simp] theorem f32Sign_neg (x : F32) : f32Sign (f32Neg x) = !f32Sign x := f32Sign_pack (f32Body_lt x)

@[simp] theorem f32Body_neg (x : F32) : f32Body (f32Neg x) = f32Body x := f32Body_pack (f32Body_lt x)

@[simp] theorem f32Sign_abs (x : F32) : f32Sign (f32Abs x) = false := f32Sign_pack (f32Body_lt x)

@[simp] theorem f32Body_abs (x : F32) : f32Body (f32Abs x) = f32Body x := f32Body_pack (f32Body_lt x)

@[simp] theorem f32IsNaN_neg (x : F32) : f32IsNaN (f32Neg x) = f32IsNaN x := by simp [f32IsNaN]

@[simp] theorem f32IsFinite_neg (x : F32) : f32IsFinite (f32Neg x) = f32IsFinite x := by simp [f32IsFinite]

@[simp] theorem f32IsInf_neg (x : F32) : f32IsInf (f32Neg x) = f32IsInf x := by simp [f32IsInf]

@[simp] theorem f32Neg_neg (x : F32) : f32Neg (f32Neg x) = x := by
  apply f32_ext <;> simp

theorem f32Key_neg (x : F32) : f32Key (f32Neg x) = -f32Key x := by
  unfold f32Key; simp only [f32Sign_neg, f32Body_neg]; cases f32Sign x <;> simp

theorem f32Val_neg (x : F32) : f32Val (f32Neg x) = -f32Val x := by
  rw [f32Val_eq, f32Val_eq]; simp only [f32Sign_neg, f32Body_neg]; cases f32Sign x <;> simp

/-! `fadd`, `fsub`, `fmul`, `fdiv`, `i2f` on finite operands. -/

theorem f32AddNum_key {x y : F32} (hx : f32IsFinite x = true) (hy : f32IsFinite y = true) :
    f32IsNaN (f32AddNum x y) = false ∧ f32Key (f32AddNum x y) = roundKey (f32Val x + f32Val y) 1 := by
  unfold f32AddNum
  simp only [f32IsInf_eq_false hx, f32IsInf_eq_false hy, Bool.false_eq_true, if_false]
  split_ifs with h0
  · rw [f32Key_zero, h0]
    simp [roundKey, f32RoundBody_zero]
  · refine ⟨f32IsNaN_round _ _ _, ?_⟩
    rw [f32Key_round]; unfold roundKey; simp

/-- `fadd` of finite operands rounds the exact sum once. -/
theorem f32Add_key {x y : F32} (hx : f32IsFinite x = true) (hy : f32IsFinite y = true) :
    f32IsNaN (f32Add x y) = false ∧ f32Key (f32Add x y) = roundKey (f32Val x + f32Val y) 1 := by
  unfold f32Add
  simp only [f32IsNaN_eq_false hx, f32IsNaN_eq_false hy, f32IsInf_eq_false hx, Bool.false_or, Bool.false_and,
    Bool.false_eq_true, if_false]
  exact f32AddNum_key hx hy

/-- `fsub` of finite operands rounds the exact difference once. -/
theorem f32Sub_key {x y : F32} (hx : f32IsFinite x = true) (hy : f32IsFinite y = true) :
    f32IsNaN (f32Sub x y) = false ∧ f32Key (f32Sub x y) = roundKey (f32Val x - f32Val y) 1 := by
  unfold f32Sub
  simp only [f32IsNaN_eq_false hx, f32IsNaN_eq_false hy, f32IsInf_eq_false hx, Bool.false_or, Bool.false_and,
    Bool.false_eq_true, if_false]
  have := f32AddNum_key hx (y := f32Neg y) (by simpa using hy)
  rw [f32Val_neg] at this
  simpa [sub_eq_add_neg] using this

theorem roundKey_signed (sx sy : Bool) (m d : Nat) :
    (if (sx != sy) then -(f32RoundBody m d : Int) else (f32RoundBody m d : Int)) =
      roundKey (if (sx != sy) then -(m : Int) else (m : Int)) d := by
  unfold roundKey
  cases h : (sx != sy)
  · simp
  · simp only [if_true, Int.natAbs_neg, Int.natAbs_natCast]
    rcases Nat.eq_zero_or_pos m with rfl | hm
    · simp [f32RoundBody_zero]
    · rw [if_pos (by omega)]

theorem f32Val_mul (x y : F32) :
    f32Val x * f32Val y =
      if (f32Sign x != f32Sign y) then -((f32Mag x * f32Mag y : Nat) : Int) else ((f32Mag x * f32Mag y : Nat) : Int) := by
  unfold f32Val
  cases f32Sign x <;> cases f32Sign y <;> simp

/-- `fmul` of finite operands rounds the exact product once. -/
theorem f32Mul_key {x y : F32} (hx : f32IsFinite x = true) (hy : f32IsFinite y = true) :
    f32IsNaN (f32Mul x y) = false ∧ f32Key (f32Mul x y) = roundKey (f32Val x * f32Val y) unitsPerOne := by
  unfold f32Mul
  simp only [f32IsNaN_eq_false hx, f32IsNaN_eq_false hy, f32IsInf_eq_false hx, f32IsInf_eq_false hy,
    Bool.false_and, Bool.and_false, Bool.false_eq_true, if_false, Bool.or_self]
  refine ⟨f32IsNaN_round _ _ _, ?_⟩
  rw [f32Key_round, roundKey_signed, f32Val_mul]

/-- `fdiv` of a finite operand by a finite one that is not zero rounds the exact quotient once. -/
theorem f32Div_key {x y : F32} (hx : f32IsFinite x = true) (hy : f32IsFinite y = true) (h0 : f32IsZero y = false) :
    f32IsNaN (f32Div x y) = false ∧
      f32Key (f32Div x y) =
        roundKey (if (f32Sign x != f32Sign y) then -((f32Mag x * unitsPerOne : Nat) : Int)
          else ((f32Mag x * unitsPerOne : Nat) : Int)) (f32Mag y) := by
  unfold f32Div
  simp only [f32IsNaN_eq_false hx, f32IsNaN_eq_false hy, f32IsInf_eq_false hx, f32IsInf_eq_false hy, h0,
    Bool.and_false, Bool.false_eq_true, if_false, Bool.or_self]
  refine ⟨f32IsNaN_round _ _ _, ?_⟩
  rw [f32Key_round, roundKey_signed]

theorem unitsPerOne_pos : 0 < unitsPerOne := by decide +kernel

theorem unitsPerOne_eq : unitsPerOne = 2 ^ 149 := rfl

theorem f32OfInt_key (i : Int) :
    f32IsNaN (f32OfInt i) = false ∧ f32Key (f32OfInt i) = roundKey (i * unitsPerOne) 1 := by
  unfold f32OfInt
  refine ⟨f32IsNaN_round _ _ _, ?_⟩
  rw [f32Key_round]
  unfold roundKey
  have hu : (0 : Int) < unitsPerOne := by exact_mod_cast unitsPerOne_pos
  rw [Int.natAbs_mul, Int.natAbs_natCast]
  rcases lt_or_ge i 0 with h | h
  · rw [if_pos (by simpa using h), if_pos (mul_neg_of_neg_of_pos h hu)]
  · rw [if_neg (by simpa using h), if_neg (not_lt.mpr (by positivity))]

/-- `i2f` is monotone. -/
theorem f32OfInt_mono {i j : Int} (h : i ≤ j) : f32Key (f32OfInt i) ≤ f32Key (f32OfInt j) := by
  rw [(f32OfInt_key i).2, (f32OfInt_key j).2]
  refine roundKey_mono one_pos one_pos ?_
  have hu : (0 : Int) ≤ unitsPerOne := by positivity
  simpa using mul_le_mul_of_nonneg_right h hu

/-! `ffloor` and `f2i`. -/

/-- A number of units whose own binade's grid divides it, and that is below the overflow, is what a pattern stands for. -/
theorem f32Round_val {neg : Bool} {v : Nat} (h : 2 ^ roundShift v ∣ v) (hv : v < magBody 2139095040) :
    f32IsFinite (f32Round neg v 1) = true ∧ f32Val (f32Round neg v 1) = if neg then -(v : Int) else (v : Int) := by
  have hm := magBody_roundUnbounded (d := 1) one_pos h
  rw [Nat.mul_one] at hm
  have hlt : roundUnbounded v 1 < 2139095040 := by
    rw [← magBody_lt_iff, hm]; exact hv
  have hb : f32RoundBody v 1 = roundUnbounded v 1 := by rw [f32RoundBody_eq]; omega
  constructor
  · rw [f32IsFinite_iff]; unfold f32Round
    rw [f32Body_pack (f32RoundBody_lt v 1), hb]; exact hlt
  · rw [f32Val_eq]; unfold f32Round
    rw [f32Body_pack (f32RoundBody_lt v 1), f32Sign_pack (f32RoundBody_lt v 1), hb, hm]

/-- A finite value that is not an integer is below 2^24. -/
theorem magBody_lt_of_not_dvd {b : Nat} (h : ¬ unitsPerOne ∣ magBody b) : magBody b < 16777216 * unitsPerOne := by
  rw [unitsPerOne_eq] at *
  unfold magBody at h ⊢
  by_cases h0 : b / 8388608 = 0
  · rw [if_pos h0]
    calc b < 16777216 * 1 := by omega
      _ ≤ 16777216 * 2 ^ 149 := Nat.mul_le_mul_left _ Nat.one_le_two_pow
  · rw [if_neg h0] at h ⊢
    have he : b / 8388608 - 1 < 149 := by
      by_contra hc
      exact h (Dvd.dvd.mul_left (pow_dvd_pow 2 (not_lt.mp hc)) _)
    calc (b % 8388608 + 8388608) * 2 ^ (b / 8388608 - 1) < 16777216 * 2 ^ (b / 8388608 - 1) :=
          Nat.mul_lt_mul_of_pos_right (by omega) (by positivity)
      _ ≤ 16777216 * 2 ^ 149 := Nat.mul_le_mul_left _ (Nat.pow_le_pow_right (by norm_num) he.le)

theorem magBody_inf_eq : magBody 2139095040 = 2 ^ 128 * unitsPerOne := by
  rw [unitsPerOne_eq]; unfold magBody; norm_num

/-- An integer whose magnitude is that of a finite pattern, or at most 2^24, is exactly a binary32. -/
theorem f32OfInt_val {i : Int} {b : Nat} (hb : b < 2139095040)
    (h : i.natAbs * unitsPerOne = magBody b ∨ i.natAbs ≤ 16777216) :
    f32IsFinite (f32OfInt i) = true ∧ f32Val (f32OfInt i) = i * (unitsPerOne : Int) := by
  have hfit : 2 ^ roundShift (i.natAbs * unitsPerOne) ∣ i.natAbs * unitsPerOne ∧
      i.natAbs * unitsPerOne < magBody 2139095040 := by
    rcases h with h | h
    · rw [h, magBody_lt_iff]
      exact ⟨two_pow_roundShift_dvd_magBody b, hb⟩
    · refine ⟨by rw [unitsPerOne_eq]; exact two_pow_roundShift_dvd h, ?_⟩
      rw [magBody_inf_eq]
      exact Nat.mul_lt_mul_of_pos_right (lt_of_le_of_lt h (by norm_num)) unitsPerOne_pos
  unfold f32OfInt
  obtain ⟨f1, f2⟩ := f32Round_val (neg := decide (i < 0)) hfit.1 hfit.2
  refine ⟨f1, ?_⟩
  rw [f2]
  push_cast
  rcases lt_or_ge i 0 with hn | hn
  · rw [if_pos (by simpa using hn), abs_of_neg hn]; ring
  · rw [if_neg (by simpa using hn), abs_of_nonneg hn]

/-- The floor of a finite pattern is finite, and is the greatest integer not above its value. -/
theorem f32Floor_val {x : F32} (hx : f32IsFinite x = true) :
    f32IsFinite (f32Floor x) = true ∧
      f32Val (f32Floor x) = f32Val x / (unitsPerOne : Int) * (unitsPerOne : Int) := by
  have hu : (0 : Int) < unitsPerOne := by exact_mod_cast unitsPerOne_pos
  have hfin := (f32IsFinite_iff x).mp hx
  unfold f32Floor
  rw [if_neg (by simp [f32IsNaN_eq_false hx])]
  by_cases hz : f32IsZero x = true
  · rw [if_pos (by simp [hz])]
    have : f32Val x = 0 := (f32Val_eq_zero_iff x).mpr ((f32IsZero_iff x).mp hz)
    exact ⟨hx, by simp [this]⟩
  · rw [if_neg (by simp [hz, f32IsInf_eq_false hx])]
    refine f32OfInt_val hfin ?_
    have hna : (f32Val x).natAbs = magBody (f32Body x) := by rw [f32Val_natAbs, f32Mag_eq]
    have hdm := Int.mul_ediv_add_emod (f32Val x) unitsPerOne
    have hm0 := Int.emod_nonneg (f32Val x) (ne_of_gt hu)
    have hm1 := Int.emod_lt_of_pos (f32Val x) hu
    by_cases hd : unitsPerOne ∣ magBody (f32Body x)
    · left
      have h0 : f32Val x % (unitsPerOne : Int) = 0 := by
        apply Int.emod_eq_zero_of_dvd
        rw [← Int.dvd_natAbs, hna]
        exact_mod_cast hd
      rw [← hna]
      have : f32Val x = f32Val x / (unitsPerOne : Int) * (unitsPerOne : Int) := by linarith
      conv_rhs => rw [this]
      rw [Int.natAbs_mul, Int.natAbs_natCast]
    · right
      have hlt := magBody_lt_of_not_dvd hd
      have habs : |f32Val x| < 16777216 * (unitsPerOne : Int) := by
        rw [Int.abs_eq_natAbs, hna]; exact_mod_cast hlt
      rw [abs_lt] at habs
      have h1 : f32Val x / (unitsPerOne : Int) < 16777216 := Int.ediv_lt_of_lt_mul hu habs.2
      have h2 : -16777216 ≤ f32Val x / (unitsPerOne : Int) := by
        rw [Int.le_ediv_iff_mul_le hu]; linarith [habs.1]
      omega

/-- `f2i` answers exactly on the finite integral patterns. -/
theorem f32ToInt_eq_some {x : F32} {i : Int} :
    f32ToInt x = some i ↔ f32IsFinite x = true ∧ f32Val x = i * (unitsPerOne : Int) := by
  have hu : (0 : Int) < unitsPerOne := by exact_mod_cast unitsPerOne_pos
  unfold f32ToInt
  by_cases hf : f32IsFinite x = true
  · by_cases hm : f32Mag x % unitsPerOne = 0
    · have hc : (f32IsFinite x && Nat.beq (f32Mag x % unitsPerOne) 0) = true := by simp [hf, hm]
      rw [if_pos hc]
      have hd : ((f32Mag x / unitsPerOne : Nat) : Int) * unitsPerOne = f32Mag x := by
        exact_mod_cast Nat.div_mul_cancel (Nat.dvd_of_mod_eq_zero hm)
      constructor
      · intro h
        refine ⟨hf, ?_⟩
        rw [← Option.some.inj h]
        unfold f32Val
        split_ifs
        · rw [neg_mul, hd]
        · rw [hd]
      · rintro ⟨-, h⟩
        congr 1
        apply mul_right_cancel₀ (ne_of_gt hu)
        rw [← h]
        unfold f32Val
        split_ifs
        · rw [neg_mul, hd]
        · rw [hd]
    · have hc : (f32IsFinite x && Nat.beq (f32Mag x % unitsPerOne) 0) = false := by
        rw [Bool.eq_false_iff]; intro c; simp [Nat.beq_eq] at c; omega
      rw [if_neg (by simp [hc])]
      constructor
      · intro h; cases h
      · rintro ⟨-, h⟩
        exfalso; apply hm
        rw [← f32Val_natAbs, h, Int.natAbs_mul]; simp
  · rw [if_neg (by simp [hf])]
    constructor
    · intro h; cases h
    · rintro ⟨h, -⟩; exact absurd h hf

/-- `f2i` of the floor of a finite pattern. -/
theorem f32ToInt_floor {x : F32} (hx : f32IsFinite x = true) :
    f32ToInt (f32Floor x) = some (f32Val x / (unitsPerOne : Int)) :=
  f32ToInt_eq_some.mpr (f32Floor_val hx)

end Sys2Proof.Machine
end

