-- ==== Sys2Proof/Laws/Memory.lean ====
section
/-! SUPPORT. The laws of a sample memory: a write is read back, leaves every other index alone, and keeps the canonical
form; two canonical memories that read alike are equal. -/

namespace Sys2Proof.Machine

theorem SampleMem.wfFrom_cons {lo i : Nat} {v : F32} {m : SampleMem} :
    SampleMem.wfFrom lo ((i, v) :: m) = true ↔ lo ≤ i ∧ v ≠ sampleDefault ∧ SampleMem.wfFrom (i + 1) m = true := by
  simp [SampleMem.wfFrom, and_assoc]

theorem SampleMem.wfFrom_weaken {lo lo' : Nat} {m : SampleMem} (h : SampleMem.wfFrom lo m = true) (hl : lo' ≤ lo) :
    SampleMem.wfFrom lo' m = true := by
  cases m with
  | nil => rfl
  | cons p m =>
    obtain ⟨i, v⟩ := p
    rw [SampleMem.wfFrom_cons] at *
    exact ⟨le_trans hl h.1, h.2⟩

/-- Below the least listed index a memory reads as unlisted. -/
theorem SampleMem.get_of_lt {lo i : Nat} {m : SampleMem} (h : SampleMem.wfFrom lo m = true) (hi : i < lo) :
    m.get i = sampleDefault := by
  cases m with
  | nil => rfl
  | cons p m =>
    obtain ⟨j, v⟩ := p
    rw [SampleMem.wfFrom_cons] at h
    simp only [SampleMem.get]
    rw [if_pos (by omega)]

/-- A write keeps the canonical form. -/
theorem SampleMem.set_wfFrom {lo i : Nat} {v : F32} {m : SampleMem} (h : SampleMem.wfFrom lo m = true) (hi : lo ≤ i) :
    SampleMem.wfFrom lo (m.set i v) = true := by
  induction m generalizing lo with
  | nil =>
    simp only [SampleMem.set]
    split_ifs with hv
    · rfl
    · rw [SampleMem.wfFrom_cons]; exact ⟨hi, hv, rfl⟩
  | cons p m ih =>
    obtain ⟨j, w⟩ := p
    have h' := SampleMem.wfFrom_cons.mp h
    simp only [SampleMem.set]
    split_ifs with h1 hv h2 hv
    · exact h
    · rw [SampleMem.wfFrom_cons, SampleMem.wfFrom_cons]
      exact ⟨hi, hv, by omega, h'.2⟩
    · exact SampleMem.wfFrom_weaken h'.2.2 (by omega)
    · rw [SampleMem.wfFrom_cons]
      exact ⟨hi, hv, by subst h2; exact h'.2.2⟩
    · rw [SampleMem.wfFrom_cons]
      exact ⟨h'.1, h'.2.1, ih h'.2.2 (by omega)⟩

theorem SampleMem.set_wf {i : Nat} {v : F32} {m : SampleMem} (h : m.wf = true) : (m.set i v).wf = true :=
  SampleMem.set_wfFrom h (Nat.zero_le i)

/-- Reading after a write: the value at the index written, every other index as before. -/
theorem SampleMem.get_set {lo i k : Nat} {v : F32} {m : SampleMem} (h : SampleMem.wfFrom lo m = true) :
    (m.set i v).get k = if k = i then v else m.get k := by
  induction m generalizing lo with
  | nil =>
    simp only [SampleMem.set]
    split_ifs with hv hk hk
    · rw [hv]; rfl
    · rfl
    · subst hk; simp [SampleMem.get]
    · simp only [SampleMem.get]; split_ifs <;> rfl
  | cons p m ih =>
    obtain ⟨j, w⟩ := p
    have h' := SampleMem.wfFrom_cons.mp h
    have hlow : ∀ q, q ≤ j → SampleMem.get m q = sampleDefault :=
      fun q hq => SampleMem.get_of_lt h'.2.2 (by omega)
    have hm := ih h'.2.2
    simp only [SampleMem.set]
    by_cases h1 : i < j
    · rw [if_pos h1]
      split_ifs with hv hk hk
      · subst hk; simp only [SampleMem.get]; rw [if_pos h1, hv]
      · rfl
      · simp only [SampleMem.get]; split_ifs <;> first | rfl | omega
      · simp only [SampleMem.get]; split_ifs <;> first | rfl | omega
    · rw [if_neg h1]
      by_cases h2 : i = j
      · rw [if_pos h2]
        split_ifs with hv hk hk
        · rw [hv, hlow k (by omega)]
        · simp only [SampleMem.get]
          split_ifs with c1 c2
          · exact hlow k (by omega)
          · omega
          · rfl
        · simp only [SampleMem.get]; split_ifs <;> first | rfl | omega
        · simp only [SampleMem.get]; split_ifs <;> first | rfl | omega
      · rw [if_neg h2]
        simp only [SampleMem.get, hm]
        split_ifs <;> first | rfl | omega

theorem SampleMem.setRun_wf {i : Nat} {vs : List F32} {m : SampleMem} (h : m.wf = true) :
    (m.setRun i vs).wf = true := by
  induction vs generalizing i m with
  | nil => exact h
  | cons v vs ih => exact ih (SampleMem.set_wf h)

/-- Reading after a run of writes. -/
theorem SampleMem.get_setRun {i k : Nat} {vs : List F32} {m : SampleMem} (h : m.wf = true) :
    (m.setRun i vs).get k = if i ≤ k then (vs[k - i]?).getD (m.get k) else m.get k := by
  induction vs generalizing i m with
  | nil => simp [SampleMem.setRun]
  | cons v vs ih =>
    rw [SampleMem.setRun, ih (SampleMem.set_wf h), SampleMem.get_set h]
    by_cases h1 : i + 1 ≤ k
    · have h2 : i ≤ k := by omega
      have h3 : ¬ k = i := by omega
      have : k - i = (k - (i + 1)) + 1 := by omega
      simp only [h1, h2, h3, if_true, if_false]
      rw [this, List.getElem?_cons_succ]
    · rw [if_neg h1]
      by_cases h2 : i = k
      · subst h2; simp
      · rw [if_neg (by omega), if_neg (by omega)]

/-- What `sampleLoad` answers: a canonical memory that holds the values and nothing beyond them. -/
theorem sampleLoad_ok {c : Cfg} {st : Store} {vals : List F32} {m : SampleMem} (h : sampleLoad c st vals = .ok m) :
    vals.length ≤ c.bufCap ∧ m.wf = true ∧ ∀ k, m.get k = (vals[k]?).getD sampleDefault := by
  unfold sampleLoad at h
  split_ifs at h with hl
  · cases h
    refine ⟨hl, SampleMem.setRun_wf rfl, fun k => ?_⟩
    rw [SampleMem.get_setRun rfl]; simp [SampleMem.get]
  · cases h

/-- `sampleLoad` answers whenever the values fit. -/
theorem sampleLoad_of_le {c : Cfg} {st : Store} {vals : List F32} (h : vals.length ≤ c.bufCap) :
    sampleLoad c st vals = .ok (SampleMem.setRun [] 0 vals) := if_pos h

/-- Two canonical memories that read alike at every index are the same data. -/
theorem SampleMem.ext_get {lo : Nat} {m m' : SampleMem} (h : SampleMem.wfFrom lo m = true)
    (h' : SampleMem.wfFrom lo m' = true) (e : ∀ k, m.get k = m'.get k) : m = m' := by
  induction m generalizing lo m' with
  | nil =>
    cases m' with
    | nil => rfl
    | cons p m' =>
      obtain ⟨j, w⟩ := p
      have c := SampleMem.wfFrom_cons.mp h'
      have := e j
      simp [SampleMem.get] at this
      exact absurd this.symm c.2.1
  | cons p m ih =>
    obtain ⟨i, v⟩ := p
    have a := SampleMem.wfFrom_cons.mp h
    cases m' with
    | nil =>
      have := e i
      simp [SampleMem.get] at this
      exact absurd this a.2.1
    | cons q m' =>
      obtain ⟨j, w⟩ := q
      have b := SampleMem.wfFrom_cons.mp h'
      have hij : i = j := by
        rcases Nat.lt_trichotomy i j with hl | he | hl
        · have := e i
          simp only [SampleMem.get, if_pos hl] at this
          simp at this
          exact absurd this a.2.1
        · exact he
        · have := e j
          simp only [SampleMem.get, if_pos hl] at this
          simp at this
          exact absurd this.symm b.2.1
      subst hij
      have hvw : v = w := by
        have := e i
        simpa [SampleMem.get] using this
      subst hvw
      congr 1
      refine ih a.2.2 b.2.2 (fun k => ?_)
      rcases Nat.lt_or_ge i k with hk | hk
      · have := e k
        simp only [SampleMem.get] at this
        rwa [if_neg (by omega), if_neg (by omega), if_neg (by omega), if_neg (by omega)] at this
      · rw [SampleMem.get_of_lt a.2.2 (by omega), SampleMem.get_of_lt b.2.2 (by omega)]

end Sys2Proof.Machine
end

