-- ==== Sys2Proof/Laws/State.lean ====
section
/-! SUPPORT. The fields of `State` under each named update: one lemma per field per update, all by definition, so that no
proof unfolds a record update. -/

namespace Sys2Proof.Machine

/-! `respondOk`. -/

@[simp] theorem respondOk_symbolRate (p : List Word) (s : State) : (respondOk p s).symbolRate = s.symbolRate := rfl
@[simp] theorem respondOk_sampleRate (p : List Word) (s : State) : (respondOk p s).sampleRate = s.sampleRate := rfl
@[simp] theorem respondOk_mu (p : List Word) (s : State) : (respondOk p s).mu = s.mu := rfl
@[simp] theorem respondOk_ioff (p : List Word) (s : State) : (respondOk p s).ioff = s.ioff := rfl
@[simp] theorem respondOk_overlap (p : List Word) (s : State) : (respondOk p s).overlap = s.overlap := rfl
@[simp] theorem respondOk_bufLen (p : List Word) (s : State) : (respondOk p s).bufLen = s.bufLen := rfl
@[simp] theorem respondOk_nominalSps (p : List Word) (s : State) : (respondOk p s).nominalSps = s.nominalSps := rfl
@[simp] theorem respondOk_observedSps (p : List Word) (s : State) : (respondOk p s).observedSps = s.observedSps := rfl
@[simp] theorem respondOk_samplePoint (p : List Word) (s : State) : (respondOk p s).samplePoint = s.samplePoint := rfl
@[simp] theorem respondOk_previousPhase (p : List Word) (s : State) : (respondOk p s).previousPhase = s.previousPhase := rfl
@[simp] theorem respondOk_ssr (p : List Word) (s : State) : (respondOk p s).ssr = s.ssr := rfl
@[simp] theorem respondOk_noisy (p : List Word) (s : State) : (respondOk p s).noisy = s.noisy := rfl
@[simp] theorem respondOk_seq (p : List Word) (s : State) : (respondOk p s).seq = s.seq := rfl
@[simp] theorem respondOk_dly (p : List Word) (s : State) : (respondOk p s).dly = s.dly := rfl
@[simp] theorem respondOk_dlyPtr (p : List Word) (s : State) : (respondOk p s).dlyPtr = s.dlyPtr := rfl
@[simp] theorem respondOk_eqZ (p : List Word) (s : State) : (respondOk p s).eqZ = s.eqZ := rfl
@[simp] theorem respondOk_eqA (p : List Word) (s : State) : (respondOk p s).eqA = s.eqA := rfl
@[simp] theorem respondOk_eqQ (p : List Word) (s : State) : (respondOk p s).eqQ = s.eqQ := rfl
@[simp] theorem respondOk_eqP (p : List Word) (s : State) : (respondOk p s).eqP = s.eqP := rfl
@[simp] theorem respondOk_sdS (p : List Word) (s : State) : (respondOk p s).sdS = s.sdS := rfl
@[simp] theorem respondOk_sdI (p : List Word) (s : State) : (respondOk p s).sdI = s.sdI := rfl
@[simp] theorem respondOk_ddl (p : List Word) (s : State) : (respondOk p s).ddl = s.ddl := rfl
@[simp] theorem respondOk_ddlPtr (p : List Word) (s : State) : (respondOk p s).ddlPtr = s.ddlPtr := rfl
@[simp] theorem respondOk_retuneEn (p : List Word) (s : State) : (respondOk p s).retuneEn = s.retuneEn := rfl
@[simp] theorem respondOk_ibuf (p : List Word) (s : State) : (respondOk p s).ibuf = s.ibuf := rfl
@[simp] theorem respondOk_qbuf (p : List Word) (s : State) : (respondOk p s).qbuf = s.qbuf := rfl
@[simp] theorem respondOk_outq (p : List Word) (s : State) : (respondOk p s).outq = s.outq := rfl
@[simp] theorem respondOk_port (p : List Word) (s : State) : (respondOk p s).port = s.port := rfl
@[simp] theorem respondOk_resp (p : List Word) (s : State) : (respondOk p s).resp = respHeader 0 p.length :: p := rfl
@[simp] theorem respondOk_micro (p : List Word) (s : State) : (respondOk p s).micro = s.micro := rfl
@[simp] theorem respondOk_ret (p : List Word) (s : State) : (respondOk p s).ret = s.ret := rfl

/-! `raise`: taking a command fault changes the response and nothing else (R207). -/

@[simp] theorem raise_symbolRate (f : CmdFault) (w : Word) (s : State) : (raise f w s).symbolRate = s.symbolRate := rfl
@[simp] theorem raise_sampleRate (f : CmdFault) (w : Word) (s : State) : (raise f w s).sampleRate = s.sampleRate := rfl
@[simp] theorem raise_mu (f : CmdFault) (w : Word) (s : State) : (raise f w s).mu = s.mu := rfl
@[simp] theorem raise_ioff (f : CmdFault) (w : Word) (s : State) : (raise f w s).ioff = s.ioff := rfl
@[simp] theorem raise_overlap (f : CmdFault) (w : Word) (s : State) : (raise f w s).overlap = s.overlap := rfl
@[simp] theorem raise_bufLen (f : CmdFault) (w : Word) (s : State) : (raise f w s).bufLen = s.bufLen := rfl
@[simp] theorem raise_nominalSps (f : CmdFault) (w : Word) (s : State) : (raise f w s).nominalSps = s.nominalSps := rfl
@[simp] theorem raise_observedSps (f : CmdFault) (w : Word) (s : State) : (raise f w s).observedSps = s.observedSps := rfl
@[simp] theorem raise_samplePoint (f : CmdFault) (w : Word) (s : State) : (raise f w s).samplePoint = s.samplePoint := rfl
@[simp] theorem raise_previousPhase (f : CmdFault) (w : Word) (s : State) : (raise f w s).previousPhase = s.previousPhase := rfl
@[simp] theorem raise_ssr (f : CmdFault) (w : Word) (s : State) : (raise f w s).ssr = s.ssr := rfl
@[simp] theorem raise_noisy (f : CmdFault) (w : Word) (s : State) : (raise f w s).noisy = s.noisy := rfl
@[simp] theorem raise_seq (f : CmdFault) (w : Word) (s : State) : (raise f w s).seq = s.seq := rfl
@[simp] theorem raise_dly (f : CmdFault) (w : Word) (s : State) : (raise f w s).dly = s.dly := rfl
@[simp] theorem raise_dlyPtr (f : CmdFault) (w : Word) (s : State) : (raise f w s).dlyPtr = s.dlyPtr := rfl
@[simp] theorem raise_eqZ (f : CmdFault) (w : Word) (s : State) : (raise f w s).eqZ = s.eqZ := rfl
@[simp] theorem raise_eqA (f : CmdFault) (w : Word) (s : State) : (raise f w s).eqA = s.eqA := rfl
@[simp] theorem raise_eqQ (f : CmdFault) (w : Word) (s : State) : (raise f w s).eqQ = s.eqQ := rfl
@[simp] theorem raise_eqP (f : CmdFault) (w : Word) (s : State) : (raise f w s).eqP = s.eqP := rfl
@[simp] theorem raise_sdS (f : CmdFault) (w : Word) (s : State) : (raise f w s).sdS = s.sdS := rfl
@[simp] theorem raise_sdI (f : CmdFault) (w : Word) (s : State) : (raise f w s).sdI = s.sdI := rfl
@[simp] theorem raise_ddl (f : CmdFault) (w : Word) (s : State) : (raise f w s).ddl = s.ddl := rfl
@[simp] theorem raise_ddlPtr (f : CmdFault) (w : Word) (s : State) : (raise f w s).ddlPtr = s.ddlPtr := rfl
@[simp] theorem raise_retuneEn (f : CmdFault) (w : Word) (s : State) : (raise f w s).retuneEn = s.retuneEn := rfl
@[simp] theorem raise_ibuf (f : CmdFault) (w : Word) (s : State) : (raise f w s).ibuf = s.ibuf := rfl
@[simp] theorem raise_qbuf (f : CmdFault) (w : Word) (s : State) : (raise f w s).qbuf = s.qbuf := rfl
@[simp] theorem raise_outq (f : CmdFault) (w : Word) (s : State) : (raise f w s).outq = s.outq := rfl
@[simp] theorem raise_port (f : CmdFault) (w : Word) (s : State) : (raise f w s).port = s.port := rfl
@[simp] theorem raise_resp (f : CmdFault) (w : Word) (s : State) : (raise f w s).resp = [respHeader f.status 1, w] := rfl
@[simp] theorem raise_micro (f : CmdFault) (w : Word) (s : State) : (raise f w s).micro = s.micro := rfl
@[simp] theorem raise_ret (f : CmdFault) (w : Word) (s : State) : (raise f w s).ret = s.ret := rfl

/-! `emit`. -/

@[simp] theorem emit_symbolRate (d : Dibit) (s : State) : (emit d s).symbolRate = s.symbolRate := rfl
@[simp] theorem emit_sampleRate (d : Dibit) (s : State) : (emit d s).sampleRate = s.sampleRate := rfl
@[simp] theorem emit_mu (d : Dibit) (s : State) : (emit d s).mu = s.mu := rfl
@[simp] theorem emit_ioff (d : Dibit) (s : State) : (emit d s).ioff = s.ioff := rfl
@[simp] theorem emit_overlap (d : Dibit) (s : State) : (emit d s).overlap = s.overlap := rfl
@[simp] theorem emit_bufLen (d : Dibit) (s : State) : (emit d s).bufLen = s.bufLen := rfl
@[simp] theorem emit_nominalSps (d : Dibit) (s : State) : (emit d s).nominalSps = s.nominalSps := rfl
@[simp] theorem emit_observedSps (d : Dibit) (s : State) : (emit d s).observedSps = s.observedSps := rfl
@[simp] theorem emit_samplePoint (d : Dibit) (s : State) : (emit d s).samplePoint = s.samplePoint := rfl
@[simp] theorem emit_previousPhase (d : Dibit) (s : State) : (emit d s).previousPhase = s.previousPhase := rfl
@[simp] theorem emit_ssr (d : Dibit) (s : State) : (emit d s).ssr = s.ssr := rfl
@[simp] theorem emit_noisy (d : Dibit) (s : State) : (emit d s).noisy = s.noisy := rfl
@[simp] theorem emit_seq (d : Dibit) (s : State) : (emit d s).seq = s.seq := rfl
@[simp] theorem emit_dly (d : Dibit) (s : State) : (emit d s).dly = s.dly := rfl
@[simp] theorem emit_dlyPtr (d : Dibit) (s : State) : (emit d s).dlyPtr = s.dlyPtr := rfl
@[simp] theorem emit_eqZ (d : Dibit) (s : State) : (emit d s).eqZ = s.eqZ := rfl
@[simp] theorem emit_eqA (d : Dibit) (s : State) : (emit d s).eqA = s.eqA := rfl
@[simp] theorem emit_eqQ (d : Dibit) (s : State) : (emit d s).eqQ = s.eqQ := rfl
@[simp] theorem emit_eqP (d : Dibit) (s : State) : (emit d s).eqP = s.eqP := rfl
@[simp] theorem emit_sdS (d : Dibit) (s : State) : (emit d s).sdS = s.sdS := rfl
@[simp] theorem emit_sdI (d : Dibit) (s : State) : (emit d s).sdI = s.sdI := rfl
@[simp] theorem emit_ddl (d : Dibit) (s : State) : (emit d s).ddl = s.ddl := rfl
@[simp] theorem emit_ddlPtr (d : Dibit) (s : State) : (emit d s).ddlPtr = s.ddlPtr := rfl
@[simp] theorem emit_retuneEn (d : Dibit) (s : State) : (emit d s).retuneEn = s.retuneEn := rfl
@[simp] theorem emit_ibuf (d : Dibit) (s : State) : (emit d s).ibuf = s.ibuf := rfl
@[simp] theorem emit_qbuf (d : Dibit) (s : State) : (emit d s).qbuf = s.qbuf := rfl
@[simp] theorem emit_outq (d : Dibit) (s : State) : (emit d s).outq = s.outq ++ [d] := rfl
@[simp] theorem emit_port (d : Dibit) (s : State) : (emit d s).port = s.port := rfl
@[simp] theorem emit_resp (d : Dibit) (s : State) : (emit d s).resp = s.resp := rfl
@[simp] theorem emit_micro (d : Dibit) (s : State) : (emit d s).micro = s.micro := rfl
@[simp] theorem emit_ret (d : Dibit) (s : State) : (emit d s).ret = s.ret := rfl

/-! `setSeq`. -/

@[simp] theorem setSeq_symbolRate (q : SeqState) (s : State) : (setSeq q s).symbolRate = s.symbolRate := rfl
@[simp] theorem setSeq_sampleRate (q : SeqState) (s : State) : (setSeq q s).sampleRate = s.sampleRate := rfl
@[simp] theorem setSeq_mu (q : SeqState) (s : State) : (setSeq q s).mu = s.mu := rfl
@[simp] theorem setSeq_ioff (q : SeqState) (s : State) : (setSeq q s).ioff = s.ioff := rfl
@[simp] theorem setSeq_overlap (q : SeqState) (s : State) : (setSeq q s).overlap = s.overlap := rfl
@[simp] theorem setSeq_bufLen (q : SeqState) (s : State) : (setSeq q s).bufLen = s.bufLen := rfl
@[simp] theorem setSeq_nominalSps (q : SeqState) (s : State) : (setSeq q s).nominalSps = s.nominalSps := rfl
@[simp] theorem setSeq_observedSps (q : SeqState) (s : State) : (setSeq q s).observedSps = s.observedSps := rfl
@[simp] theorem setSeq_samplePoint (q : SeqState) (s : State) : (setSeq q s).samplePoint = s.samplePoint := rfl
@[simp] theorem setSeq_previousPhase (q : SeqState) (s : State) : (setSeq q s).previousPhase = s.previousPhase := rfl
@[simp] theorem setSeq_ssr (q : SeqState) (s : State) : (setSeq q s).ssr = s.ssr := rfl
@[simp] theorem setSeq_noisy (q : SeqState) (s : State) : (setSeq q s).noisy = s.noisy := rfl
@[simp] theorem setSeq_seq (q : SeqState) (s : State) : (setSeq q s).seq = q := rfl
@[simp] theorem setSeq_dly (q : SeqState) (s : State) : (setSeq q s).dly = s.dly := rfl
@[simp] theorem setSeq_dlyPtr (q : SeqState) (s : State) : (setSeq q s).dlyPtr = s.dlyPtr := rfl
@[simp] theorem setSeq_eqZ (q : SeqState) (s : State) : (setSeq q s).eqZ = s.eqZ := rfl
@[simp] theorem setSeq_eqA (q : SeqState) (s : State) : (setSeq q s).eqA = s.eqA := rfl
@[simp] theorem setSeq_eqQ (q : SeqState) (s : State) : (setSeq q s).eqQ = s.eqQ := rfl
@[simp] theorem setSeq_eqP (q : SeqState) (s : State) : (setSeq q s).eqP = s.eqP := rfl
@[simp] theorem setSeq_sdS (q : SeqState) (s : State) : (setSeq q s).sdS = s.sdS := rfl
@[simp] theorem setSeq_sdI (q : SeqState) (s : State) : (setSeq q s).sdI = s.sdI := rfl
@[simp] theorem setSeq_ddl (q : SeqState) (s : State) : (setSeq q s).ddl = s.ddl := rfl
@[simp] theorem setSeq_ddlPtr (q : SeqState) (s : State) : (setSeq q s).ddlPtr = s.ddlPtr := rfl
@[simp] theorem setSeq_retuneEn (q : SeqState) (s : State) : (setSeq q s).retuneEn = s.retuneEn := rfl
@[simp] theorem setSeq_ibuf (q : SeqState) (s : State) : (setSeq q s).ibuf = s.ibuf := rfl
@[simp] theorem setSeq_qbuf (q : SeqState) (s : State) : (setSeq q s).qbuf = s.qbuf := rfl
@[simp] theorem setSeq_outq (q : SeqState) (s : State) : (setSeq q s).outq = s.outq := rfl
@[simp] theorem setSeq_port (q : SeqState) (s : State) : (setSeq q s).port = s.port := rfl
@[simp] theorem setSeq_resp (q : SeqState) (s : State) : (setSeq q s).resp = s.resp := rfl
@[simp] theorem setSeq_micro (q : SeqState) (s : State) : (setSeq q s).micro = s.micro := rfl
@[simp] theorem setSeq_ret (q : SeqState) (s : State) : (setSeq q s).ret = s.ret := rfl

/-! `clearNoisy`. -/

@[simp] theorem clearNoisy_symbolRate (s : State) : (clearNoisy s).symbolRate = s.symbolRate := rfl
@[simp] theorem clearNoisy_sampleRate (s : State) : (clearNoisy s).sampleRate = s.sampleRate := rfl
@[simp] theorem clearNoisy_mu (s : State) : (clearNoisy s).mu = s.mu := rfl
@[simp] theorem clearNoisy_ioff (s : State) : (clearNoisy s).ioff = s.ioff := rfl
@[simp] theorem clearNoisy_overlap (s : State) : (clearNoisy s).overlap = s.overlap := rfl
@[simp] theorem clearNoisy_bufLen (s : State) : (clearNoisy s).bufLen = s.bufLen := rfl
@[simp] theorem clearNoisy_nominalSps (s : State) : (clearNoisy s).nominalSps = s.nominalSps := rfl
@[simp] theorem clearNoisy_observedSps (s : State) : (clearNoisy s).observedSps = s.observedSps := rfl
@[simp] theorem clearNoisy_samplePoint (s : State) : (clearNoisy s).samplePoint = s.samplePoint := rfl
@[simp] theorem clearNoisy_previousPhase (s : State) : (clearNoisy s).previousPhase = s.previousPhase := rfl
@[simp] theorem clearNoisy_ssr (s : State) : (clearNoisy s).ssr = s.ssr := rfl
@[simp] theorem clearNoisy_noisy (s : State) : (clearNoisy s).noisy = false := rfl
@[simp] theorem clearNoisy_seq (s : State) : (clearNoisy s).seq = s.seq := rfl
@[simp] theorem clearNoisy_dly (s : State) : (clearNoisy s).dly = s.dly := rfl
@[simp] theorem clearNoisy_dlyPtr (s : State) : (clearNoisy s).dlyPtr = s.dlyPtr := rfl
@[simp] theorem clearNoisy_eqZ (s : State) : (clearNoisy s).eqZ = s.eqZ := rfl
@[simp] theorem clearNoisy_eqA (s : State) : (clearNoisy s).eqA = s.eqA := rfl
@[simp] theorem clearNoisy_eqQ (s : State) : (clearNoisy s).eqQ = s.eqQ := rfl
@[simp] theorem clearNoisy_eqP (s : State) : (clearNoisy s).eqP = s.eqP := rfl
@[simp] theorem clearNoisy_sdS (s : State) : (clearNoisy s).sdS = s.sdS := rfl
@[simp] theorem clearNoisy_sdI (s : State) : (clearNoisy s).sdI = s.sdI := rfl
@[simp] theorem clearNoisy_ddl (s : State) : (clearNoisy s).ddl = s.ddl := rfl
@[simp] theorem clearNoisy_ddlPtr (s : State) : (clearNoisy s).ddlPtr = s.ddlPtr := rfl
@[simp] theorem clearNoisy_retuneEn (s : State) : (clearNoisy s).retuneEn = s.retuneEn := rfl
@[simp] theorem clearNoisy_ibuf (s : State) : (clearNoisy s).ibuf = s.ibuf := rfl
@[simp] theorem clearNoisy_qbuf (s : State) : (clearNoisy s).qbuf = s.qbuf := rfl
@[simp] theorem clearNoisy_outq (s : State) : (clearNoisy s).outq = s.outq := rfl
@[simp] theorem clearNoisy_port (s : State) : (clearNoisy s).port = s.port := rfl
@[simp] theorem clearNoisy_resp (s : State) : (clearNoisy s).resp = s.resp := rfl
@[simp] theorem clearNoisy_micro (s : State) : (clearNoisy s).micro = s.micro := rfl
@[simp] theorem clearNoisy_ret (s : State) : (clearNoisy s).ret = s.ret := rfl

/-! `gateNoisy`. -/

@[simp] theorem gateNoisy_symbolRate (c : Cfg) (x : F32) (s : State) : (gateNoisy c x s).symbolRate = s.symbolRate := rfl
@[simp] theorem gateNoisy_sampleRate (c : Cfg) (x : F32) (s : State) : (gateNoisy c x s).sampleRate = s.sampleRate := rfl
@[simp] theorem gateNoisy_mu (c : Cfg) (x : F32) (s : State) : (gateNoisy c x s).mu = s.mu := rfl
@[simp] theorem gateNoisy_ioff (c : Cfg) (x : F32) (s : State) : (gateNoisy c x s).ioff = s.ioff := rfl
@[simp] theorem gateNoisy_overlap (c : Cfg) (x : F32) (s : State) : (gateNoisy c x s).overlap = s.overlap := rfl
@[simp] theorem gateNoisy_bufLen (c : Cfg) (x : F32) (s : State) : (gateNoisy c x s).bufLen = s.bufLen := rfl
@[simp] theorem gateNoisy_nominalSps (c : Cfg) (x : F32) (s : State) : (gateNoisy c x s).nominalSps = s.nominalSps := rfl
@[simp] theorem gateNoisy_observedSps (c : Cfg) (x : F32) (s : State) : (gateNoisy c x s).observedSps = s.observedSps := rfl
@[simp] theorem gateNoisy_samplePoint (c : Cfg) (x : F32) (s : State) : (gateNoisy c x s).samplePoint = s.samplePoint := rfl
@[simp] theorem gateNoisy_previousPhase (c : Cfg) (x : F32) (s : State) : (gateNoisy c x s).previousPhase = s.previousPhase := rfl
@[simp] theorem gateNoisy_ssr (c : Cfg) (x : F32) (s : State) : (gateNoisy c x s).ssr = s.ssr := rfl
@[simp] theorem gateNoisy_noisy (c : Cfg) (x : F32) (s : State) : (gateNoisy c x s).noisy = (s.noisy || noiseGate c s x) := rfl
@[simp] theorem gateNoisy_seq (c : Cfg) (x : F32) (s : State) : (gateNoisy c x s).seq = s.seq := rfl
@[simp] theorem gateNoisy_dly (c : Cfg) (x : F32) (s : State) : (gateNoisy c x s).dly = s.dly := rfl
@[simp] theorem gateNoisy_dlyPtr (c : Cfg) (x : F32) (s : State) : (gateNoisy c x s).dlyPtr = s.dlyPtr := rfl
@[simp] theorem gateNoisy_eqZ (c : Cfg) (x : F32) (s : State) : (gateNoisy c x s).eqZ = s.eqZ := rfl
@[simp] theorem gateNoisy_eqA (c : Cfg) (x : F32) (s : State) : (gateNoisy c x s).eqA = s.eqA := rfl
@[simp] theorem gateNoisy_eqQ (c : Cfg) (x : F32) (s : State) : (gateNoisy c x s).eqQ = s.eqQ := rfl
@[simp] theorem gateNoisy_eqP (c : Cfg) (x : F32) (s : State) : (gateNoisy c x s).eqP = s.eqP := rfl
@[simp] theorem gateNoisy_sdS (c : Cfg) (x : F32) (s : State) : (gateNoisy c x s).sdS = s.sdS := rfl
@[simp] theorem gateNoisy_sdI (c : Cfg) (x : F32) (s : State) : (gateNoisy c x s).sdI = s.sdI := rfl
@[simp] theorem gateNoisy_ddl (c : Cfg) (x : F32) (s : State) : (gateNoisy c x s).ddl = s.ddl := rfl
@[simp] theorem gateNoisy_ddlPtr (c : Cfg) (x : F32) (s : State) : (gateNoisy c x s).ddlPtr = s.ddlPtr := rfl
@[simp] theorem gateNoisy_retuneEn (c : Cfg) (x : F32) (s : State) : (gateNoisy c x s).retuneEn = s.retuneEn := rfl
@[simp] theorem gateNoisy_ibuf (c : Cfg) (x : F32) (s : State) : (gateNoisy c x s).ibuf = s.ibuf := rfl
@[simp] theorem gateNoisy_qbuf (c : Cfg) (x : F32) (s : State) : (gateNoisy c x s).qbuf = s.qbuf := rfl
@[simp] theorem gateNoisy_outq (c : Cfg) (x : F32) (s : State) : (gateNoisy c x s).outq = s.outq := rfl
@[simp] theorem gateNoisy_port (c : Cfg) (x : F32) (s : State) : (gateNoisy c x s).port = s.port := rfl
@[simp] theorem gateNoisy_resp (c : Cfg) (x : F32) (s : State) : (gateNoisy c x s).resp = s.resp := rfl
@[simp] theorem gateNoisy_micro (c : Cfg) (x : F32) (s : State) : (gateNoisy c x s).micro = s.micro := rfl
@[simp] theorem gateNoisy_ret (c : Cfg) (x : F32) (s : State) : (gateNoisy c x s).ret = s.ret := rfl

/-! `shiftSsr`. -/

@[simp] theorem shiftSsr_symbolRate (d : Dibit) (s : State) : (shiftSsr d s).symbolRate = s.symbolRate := rfl
@[simp] theorem shiftSsr_sampleRate (d : Dibit) (s : State) : (shiftSsr d s).sampleRate = s.sampleRate := rfl
@[simp] theorem shiftSsr_mu (d : Dibit) (s : State) : (shiftSsr d s).mu = s.mu := rfl
@[simp] theorem shiftSsr_ioff (d : Dibit) (s : State) : (shiftSsr d s).ioff = s.ioff := rfl
@[simp] theorem shiftSsr_overlap (d : Dibit) (s : State) : (shiftSsr d s).overlap = s.overlap := rfl
@[simp] theorem shiftSsr_bufLen (d : Dibit) (s : State) : (shiftSsr d s).bufLen = s.bufLen := rfl
@[simp] theorem shiftSsr_nominalSps (d : Dibit) (s : State) : (shiftSsr d s).nominalSps = s.nominalSps := rfl
@[simp] theorem shiftSsr_observedSps (d : Dibit) (s : State) : (shiftSsr d s).observedSps = s.observedSps := rfl
@[simp] theorem shiftSsr_samplePoint (d : Dibit) (s : State) : (shiftSsr d s).samplePoint = s.samplePoint := rfl
@[simp] theorem shiftSsr_previousPhase (d : Dibit) (s : State) : (shiftSsr d s).previousPhase = s.previousPhase := rfl
@[simp] theorem shiftSsr_ssr (d : Dibit) (s : State) : (shiftSsr d s).ssr = ((s.ssr <<< 2) ||| d.value.setWidth 48) := rfl
@[simp] theorem shiftSsr_noisy (d : Dibit) (s : State) : (shiftSsr d s).noisy = s.noisy := rfl
@[simp] theorem shiftSsr_seq (d : Dibit) (s : State) : (shiftSsr d s).seq = s.seq := rfl
@[simp] theorem shiftSsr_dly (d : Dibit) (s : State) : (shiftSsr d s).dly = s.dly := rfl
@[simp] theorem shiftSsr_dlyPtr (d : Dibit) (s : State) : (shiftSsr d s).dlyPtr = s.dlyPtr := rfl
@[simp] theorem shiftSsr_eqZ (d : Dibit) (s : State) : (shiftSsr d s).eqZ = s.eqZ := rfl
@[simp] theorem shiftSsr_eqA (d : Dibit) (s : State) : (shiftSsr d s).eqA = s.eqA := rfl
@[simp] theorem shiftSsr_eqQ (d : Dibit) (s : State) : (shiftSsr d s).eqQ = s.eqQ := rfl
@[simp] theorem shiftSsr_eqP (d : Dibit) (s : State) : (shiftSsr d s).eqP = s.eqP := rfl
@[simp] theorem shiftSsr_sdS (d : Dibit) (s : State) : (shiftSsr d s).sdS = s.sdS := rfl
@[simp] theorem shiftSsr_sdI (d : Dibit) (s : State) : (shiftSsr d s).sdI = s.sdI := rfl
@[simp] theorem shiftSsr_ddl (d : Dibit) (s : State) : (shiftSsr d s).ddl = s.ddl := rfl
@[simp] theorem shiftSsr_ddlPtr (d : Dibit) (s : State) : (shiftSsr d s).ddlPtr = s.ddlPtr := rfl
@[simp] theorem shiftSsr_retuneEn (d : Dibit) (s : State) : (shiftSsr d s).retuneEn = s.retuneEn := rfl
@[simp] theorem shiftSsr_ibuf (d : Dibit) (s : State) : (shiftSsr d s).ibuf = s.ibuf := rfl
@[simp] theorem shiftSsr_qbuf (d : Dibit) (s : State) : (shiftSsr d s).qbuf = s.qbuf := rfl
@[simp] theorem shiftSsr_outq (d : Dibit) (s : State) : (shiftSsr d s).outq = s.outq := rfl
@[simp] theorem shiftSsr_port (d : Dibit) (s : State) : (shiftSsr d s).port = s.port := rfl
@[simp] theorem shiftSsr_resp (d : Dibit) (s : State) : (shiftSsr d s).resp = s.resp := rfl
@[simp] theorem shiftSsr_micro (d : Dibit) (s : State) : (shiftSsr d s).micro = s.micro := rfl
@[simp] theorem shiftSsr_ret (d : Dibit) (s : State) : (shiftSsr d s).ret = s.ret := rfl

/-! `loopUpdOp`: the timing loop touches two registers (R136, R157). -/

@[simp] theorem loopUpdOp_symbolRate (c : Cfg) (e : F32) (s : State) : (loopUpdOp c e s).symbolRate = s.symbolRate := rfl
@[simp] theorem loopUpdOp_sampleRate (c : Cfg) (e : F32) (s : State) : (loopUpdOp c e s).sampleRate = s.sampleRate := rfl
@[simp] theorem loopUpdOp_mu (c : Cfg) (e : F32) (s : State) : (loopUpdOp c e s).mu = s.mu := rfl
@[simp] theorem loopUpdOp_ioff (c : Cfg) (e : F32) (s : State) : (loopUpdOp c e s).ioff = s.ioff := rfl
@[simp] theorem loopUpdOp_overlap (c : Cfg) (e : F32) (s : State) : (loopUpdOp c e s).overlap = s.overlap := rfl
@[simp] theorem loopUpdOp_bufLen (c : Cfg) (e : F32) (s : State) : (loopUpdOp c e s).bufLen = s.bufLen := rfl
@[simp] theorem loopUpdOp_nominalSps (c : Cfg) (e : F32) (s : State) : (loopUpdOp c e s).nominalSps = s.nominalSps := rfl
@[simp] theorem loopUpdOp_observedSps (c : Cfg) (e : F32) (s : State) : (loopUpdOp c e s).observedSps = loopObserved c e s := rfl
@[simp] theorem loopUpdOp_samplePoint (c : Cfg) (e : F32) (s : State) : (loopUpdOp c e s).samplePoint = c.num.fadd s.samplePoint (c.num.fadd (loopObserved c e s) (c.num.fmul e scGainF)) := rfl
@[simp] theorem loopUpdOp_previousPhase (c : Cfg) (e : F32) (s : State) : (loopUpdOp c e s).previousPhase = s.previousPhase := rfl
@[simp] theorem loopUpdOp_ssr (c : Cfg) (e : F32) (s : State) : (loopUpdOp c e s).ssr = s.ssr := rfl
@[simp] theorem loopUpdOp_noisy (c : Cfg) (e : F32) (s : State) : (loopUpdOp c e s).noisy = s.noisy := rfl
@[simp] theorem loopUpdOp_seq (c : Cfg) (e : F32) (s : State) : (loopUpdOp c e s).seq = s.seq := rfl
@[simp] theorem loopUpdOp_dly (c : Cfg) (e : F32) (s : State) : (loopUpdOp c e s).dly = s.dly := rfl
@[simp] theorem loopUpdOp_dlyPtr (c : Cfg) (e : F32) (s : State) : (loopUpdOp c e s).dlyPtr = s.dlyPtr := rfl
@[simp] theorem loopUpdOp_eqZ (c : Cfg) (e : F32) (s : State) : (loopUpdOp c e s).eqZ = s.eqZ := rfl
@[simp] theorem loopUpdOp_eqA (c : Cfg) (e : F32) (s : State) : (loopUpdOp c e s).eqA = s.eqA := rfl
@[simp] theorem loopUpdOp_eqQ (c : Cfg) (e : F32) (s : State) : (loopUpdOp c e s).eqQ = s.eqQ := rfl
@[simp] theorem loopUpdOp_eqP (c : Cfg) (e : F32) (s : State) : (loopUpdOp c e s).eqP = s.eqP := rfl
@[simp] theorem loopUpdOp_sdS (c : Cfg) (e : F32) (s : State) : (loopUpdOp c e s).sdS = s.sdS := rfl
@[simp] theorem loopUpdOp_sdI (c : Cfg) (e : F32) (s : State) : (loopUpdOp c e s).sdI = s.sdI := rfl
@[simp] theorem loopUpdOp_ddl (c : Cfg) (e : F32) (s : State) : (loopUpdOp c e s).ddl = s.ddl := rfl
@[simp] theorem loopUpdOp_ddlPtr (c : Cfg) (e : F32) (s : State) : (loopUpdOp c e s).ddlPtr = s.ddlPtr := rfl
@[simp] theorem loopUpdOp_retuneEn (c : Cfg) (e : F32) (s : State) : (loopUpdOp c e s).retuneEn = s.retuneEn := rfl
@[simp] theorem loopUpdOp_ibuf (c : Cfg) (e : F32) (s : State) : (loopUpdOp c e s).ibuf = s.ibuf := rfl
@[simp] theorem loopUpdOp_qbuf (c : Cfg) (e : F32) (s : State) : (loopUpdOp c e s).qbuf = s.qbuf := rfl
@[simp] theorem loopUpdOp_outq (c : Cfg) (e : F32) (s : State) : (loopUpdOp c e s).outq = s.outq := rfl
@[simp] theorem loopUpdOp_port (c : Cfg) (e : F32) (s : State) : (loopUpdOp c e s).port = s.port := rfl
@[simp] theorem loopUpdOp_resp (c : Cfg) (e : F32) (s : State) : (loopUpdOp c e s).resp = s.resp := rfl
@[simp] theorem loopUpdOp_micro (c : Cfg) (e : F32) (s : State) : (loopUpdOp c e s).micro = s.micro := rfl
@[simp] theorem loopUpdOp_ret (c : Cfg) (e : F32) (s : State) : (loopUpdOp c e s).ret = s.ret := rfl

/-! `setRates`. -/

@[simp] theorem setRates_symbolRate (c : Cfg) (sr : Word) (fs : F32) (b : Bool) (s : State) : (setRates c sr fs b s).symbolRate = sr := rfl
@[simp] theorem setRates_sampleRate (c : Cfg) (sr : Word) (fs : F32) (b : Bool) (s : State) : (setRates c sr fs b s).sampleRate = fs := rfl
@[simp] theorem setRates_mu (c : Cfg) (sr : Word) (fs : F32) (b : Bool) (s : State) : (setRates c sr fs b s).mu = s.mu := rfl
@[simp] theorem setRates_ioff (c : Cfg) (sr : Word) (fs : F32) (b : Bool) (s : State) : (setRates c sr fs b s).ioff = s.ioff := rfl
@[simp] theorem setRates_overlap (c : Cfg) (sr : Word) (fs : F32) (b : Bool) (s : State) : (setRates c sr fs b s).overlap = s.overlap := rfl
@[simp] theorem setRates_bufLen (c : Cfg) (sr : Word) (fs : F32) (b : Bool) (s : State) : (setRates c sr fs b s).bufLen = s.bufLen := rfl
@[simp] theorem setRates_nominalSps (c : Cfg) (sr : Word) (fs : F32) (b : Bool) (s : State) : (setRates c sr fs b s).nominalSps = nominalOf c sr fs := rfl
@[simp] theorem setRates_observedSps (c : Cfg) (sr : Word) (fs : F32) (b : Bool) (s : State) : (setRates c sr fs b s).observedSps = s.observedSps := rfl
@[simp] theorem setRates_samplePoint (c : Cfg) (sr : Word) (fs : F32) (b : Bool) (s : State) : (setRates c sr fs b s).samplePoint = s.samplePoint := rfl
@[simp] theorem setRates_previousPhase (c : Cfg) (sr : Word) (fs : F32) (b : Bool) (s : State) : (setRates c sr fs b s).previousPhase = s.previousPhase := rfl
@[simp] theorem setRates_ssr (c : Cfg) (sr : Word) (fs : F32) (b : Bool) (s : State) : (setRates c sr fs b s).ssr = s.ssr := rfl
@[simp] theorem setRates_noisy (c : Cfg) (sr : Word) (fs : F32) (b : Bool) (s : State) : (setRates c sr fs b s).noisy = s.noisy := rfl
@[simp] theorem setRates_seq (c : Cfg) (sr : Word) (fs : F32) (b : Bool) (s : State) : (setRates c sr fs b s).seq = s.seq := rfl
@[simp] theorem setRates_dly (c : Cfg) (sr : Word) (fs : F32) (b : Bool) (s : State) : (setRates c sr fs b s).dly = s.dly := rfl
@[simp] theorem setRates_dlyPtr (c : Cfg) (sr : Word) (fs : F32) (b : Bool) (s : State) : (setRates c sr fs b s).dlyPtr = s.dlyPtr := rfl
@[simp] theorem setRates_eqZ (c : Cfg) (sr : Word) (fs : F32) (b : Bool) (s : State) : (setRates c sr fs b s).eqZ = s.eqZ := rfl
@[simp] theorem setRates_eqA (c : Cfg) (sr : Word) (fs : F32) (b : Bool) (s : State) : (setRates c sr fs b s).eqA = s.eqA := rfl
@[simp] theorem setRates_eqQ (c : Cfg) (sr : Word) (fs : F32) (b : Bool) (s : State) : (setRates c sr fs b s).eqQ = s.eqQ := rfl
@[simp] theorem setRates_eqP (c : Cfg) (sr : Word) (fs : F32) (b : Bool) (s : State) : (setRates c sr fs b s).eqP = s.eqP := rfl
@[simp] theorem setRates_sdS (c : Cfg) (sr : Word) (fs : F32) (b : Bool) (s : State) : (setRates c sr fs b s).sdS = s.sdS := rfl
@[simp] theorem setRates_sdI (c : Cfg) (sr : Word) (fs : F32) (b : Bool) (s : State) : (setRates c sr fs b s).sdI = s.sdI := rfl
@[simp] theorem setRates_ddl (c : Cfg) (sr : Word) (fs : F32) (b : Bool) (s : State) : (setRates c sr fs b s).ddl = s.ddl := rfl
@[simp] theorem setRates_ddlPtr (c : Cfg) (sr : Word) (fs : F32) (b : Bool) (s : State) : (setRates c sr fs b s).ddlPtr = s.ddlPtr := rfl
@[simp] theorem setRates_retuneEn (c : Cfg) (sr : Word) (fs : F32) (b : Bool) (s : State) : (setRates c sr fs b s).retuneEn = b := rfl
@[simp] theorem setRates_ibuf (c : Cfg) (sr : Word) (fs : F32) (b : Bool) (s : State) : (setRates c sr fs b s).ibuf = s.ibuf := rfl
@[simp] theorem setRates_qbuf (c : Cfg) (sr : Word) (fs : F32) (b : Bool) (s : State) : (setRates c sr fs b s).qbuf = s.qbuf := rfl
@[simp] theorem setRates_outq (c : Cfg) (sr : Word) (fs : F32) (b : Bool) (s : State) : (setRates c sr fs b s).outq = s.outq := rfl
@[simp] theorem setRates_port (c : Cfg) (sr : Word) (fs : F32) (b : Bool) (s : State) : (setRates c sr fs b s).port = s.port := rfl
@[simp] theorem setRates_resp (c : Cfg) (sr : Word) (fs : F32) (b : Bool) (s : State) : (setRates c sr fs b s).resp = s.resp := rfl
@[simp] theorem setRates_micro (c : Cfg) (sr : Word) (fs : F32) (b : Bool) (s : State) : (setRates c sr fs b s).micro = s.micro := rfl
@[simp] theorem setRates_ret (c : Cfg) (sr : Word) (fs : F32) (b : Bool) (s : State) : (setRates c sr fs b s).ret = s.ret := rfl

/-! `resetRegs`: what `RESET` writes before `UPDOBS`, and what it leaves (R230, R233). -/

@[simp] theorem resetRegs_symbolRate (c : Cfg) (s : State) : (resetRegs c s).symbolRate = s.symbolRate := rfl
@[simp] theorem resetRegs_sampleRate (c : Cfg) (s : State) : (resetRegs c s).sampleRate = s.sampleRate := rfl
@[simp] theorem resetRegs_mu (c : Cfg) (s : State) : (resetRegs c s).mu = s.mu := rfl
@[simp] theorem resetRegs_ioff (c : Cfg) (s : State) : (resetRegs c s).ioff = s.ioff := rfl
@[simp] theorem resetRegs_overlap (c : Cfg) (s : State) : (resetRegs c s).overlap = s.overlap := rfl
@[simp] theorem resetRegs_bufLen (c : Cfg) (s : State) : (resetRegs c s).bufLen = s.bufLen := rfl
@[simp] theorem resetRegs_nominalSps (c : Cfg) (s : State) : (resetRegs c s).nominalSps = s.nominalSps := rfl
@[simp] theorem resetRegs_observedSps (c : Cfg) (s : State) : (resetRegs c s).observedSps = s.nominalSps := rfl
@[simp] theorem resetRegs_samplePoint (c : Cfg) (s : State) : (resetRegs c s).samplePoint = s.nominalSps := rfl
@[simp] theorem resetRegs_previousPhase (c : Cfg) (s : State) : (resetRegs c s).previousPhase = zeroF := rfl
@[simp] theorem resetRegs_ssr (c : Cfg) (s : State) : (resetRegs c s).ssr = 0#48 := rfl
@[simp] theorem resetRegs_noisy (c : Cfg) (s : State) : (resetRegs c s).noisy = false := rfl
@[simp] theorem resetRegs_seq (c : Cfg) (s : State) : (resetRegs c s).seq = .await := rfl
@[simp] theorem resetRegs_dly (c : Cfg) (s : State) : (resetRegs c s).dly = List.replicate 16 zeroF := rfl
@[simp] theorem resetRegs_dlyPtr (c : Cfg) (s : State) : (resetRegs c s).dlyPtr = 0 := rfl
@[simp] theorem resetRegs_eqZ (c : Cfg) (s : State) : (resetRegs c s).eqZ = List.replicate (2 * c.len) zeroF := rfl
@[simp] theorem resetRegs_eqA (c : Cfg) (s : State) : (resetRegs c s).eqA = List.replicate (2 * c.len) zeroF := rfl
@[simp] theorem resetRegs_eqQ (c : Cfg) (s : State) : (resetRegs c s).eqQ = resetTaps c := rfl
@[simp] theorem resetRegs_eqP (c : Cfg) (s : State) : (resetRegs c s).eqP = 0 := rfl
@[simp] theorem resetRegs_sdS (c : Cfg) (s : State) : (resetRegs c s).sdS = List.replicate 48 zeroF := rfl
@[simp] theorem resetRegs_sdI (c : Cfg) (s : State) : (resetRegs c s).sdI = 0 := rfl
@[simp] theorem resetRegs_ddl (c : Cfg) (s : State) : (resetRegs c s).ddl = List.replicate 24 .d00Plus1 := rfl
@[simp] theorem resetRegs_ddlPtr (c : Cfg) (s : State) : (resetRegs c s).ddlPtr = 0 := rfl
@[simp] theorem resetRegs_retuneEn (c : Cfg) (s : State) : (resetRegs c s).retuneEn = s.retuneEn := rfl
@[simp] theorem resetRegs_ibuf (c : Cfg) (s : State) : (resetRegs c s).ibuf = s.ibuf := rfl
@[simp] theorem resetRegs_qbuf (c : Cfg) (s : State) : (resetRegs c s).qbuf = s.qbuf := rfl
@[simp] theorem resetRegs_outq (c : Cfg) (s : State) : (resetRegs c s).outq = [] := rfl
@[simp] theorem resetRegs_port (c : Cfg) (s : State) : (resetRegs c s).port = s.port := rfl
@[simp] theorem resetRegs_resp (c : Cfg) (s : State) : (resetRegs c s).resp = s.resp := rfl
@[simp] theorem resetRegs_micro (c : Cfg) (s : State) : (resetRegs c s).micro = s.micro := rfl
@[simp] theorem resetRegs_ret (c : Cfg) (s : State) : (resetRegs c s).ret = s.ret := rfl

/-! `recvHandOver`. -/

@[simp] theorem recvHandOver_symbolRate (s : State) : (recvHandOver s).symbolRate = s.symbolRate := rfl
@[simp] theorem recvHandOver_sampleRate (s : State) : (recvHandOver s).sampleRate = s.sampleRate := rfl
@[simp] theorem recvHandOver_mu (s : State) : (recvHandOver s).mu = s.mu := rfl
@[simp] theorem recvHandOver_ioff (s : State) : (recvHandOver s).ioff = s.ioff := rfl
@[simp] theorem recvHandOver_overlap (s : State) : (recvHandOver s).overlap = s.overlap := rfl
@[simp] theorem recvHandOver_bufLen (s : State) : (recvHandOver s).bufLen = s.bufLen := rfl
@[simp] theorem recvHandOver_nominalSps (s : State) : (recvHandOver s).nominalSps = s.nominalSps := rfl
@[simp] theorem recvHandOver_observedSps (s : State) : (recvHandOver s).observedSps = s.observedSps := rfl
@[simp] theorem recvHandOver_samplePoint (s : State) : (recvHandOver s).samplePoint = s.samplePoint := rfl
@[simp] theorem recvHandOver_previousPhase (s : State) : (recvHandOver s).previousPhase = s.previousPhase := rfl
@[simp] theorem recvHandOver_ssr (s : State) : (recvHandOver s).ssr = s.ssr := rfl
@[simp] theorem recvHandOver_noisy (s : State) : (recvHandOver s).noisy = s.noisy := rfl
@[simp] theorem recvHandOver_seq (s : State) : (recvHandOver s).seq = s.seq := rfl
@[simp] theorem recvHandOver_dly (s : State) : (recvHandOver s).dly = s.dly := rfl
@[simp] theorem recvHandOver_dlyPtr (s : State) : (recvHandOver s).dlyPtr = s.dlyPtr := rfl
@[simp] theorem recvHandOver_eqZ (s : State) : (recvHandOver s).eqZ = s.eqZ := rfl
@[simp] theorem recvHandOver_eqA (s : State) : (recvHandOver s).eqA = s.eqA := rfl
@[simp] theorem recvHandOver_eqQ (s : State) : (recvHandOver s).eqQ = s.eqQ := rfl
@[simp] theorem recvHandOver_eqP (s : State) : (recvHandOver s).eqP = s.eqP := rfl
@[simp] theorem recvHandOver_sdS (s : State) : (recvHandOver s).sdS = s.sdS := rfl
@[simp] theorem recvHandOver_sdI (s : State) : (recvHandOver s).sdI = s.sdI := rfl
@[simp] theorem recvHandOver_ddl (s : State) : (recvHandOver s).ddl = s.ddl := rfl
@[simp] theorem recvHandOver_ddlPtr (s : State) : (recvHandOver s).ddlPtr = s.ddlPtr := rfl
@[simp] theorem recvHandOver_retuneEn (s : State) : (recvHandOver s).retuneEn = s.retuneEn := rfl
@[simp] theorem recvHandOver_ibuf (s : State) : (recvHandOver s).ibuf = s.ibuf := rfl
@[simp] theorem recvHandOver_qbuf (s : State) : (recvHandOver s).qbuf = s.qbuf := rfl
@[simp] theorem recvHandOver_outq (s : State) : (recvHandOver s).outq = [] := rfl
@[simp] theorem recvHandOver_port (s : State) : (recvHandOver s).port = s.port := rfl
@[simp] theorem recvHandOver_resp (s : State) : (recvHandOver s).resp = respHeader 0 (s.outq.map Dibit.toWord).length :: s.outq.map Dibit.toWord := rfl
@[simp] theorem recvHandOver_micro (s : State) : (recvHandOver s).micro = s.micro := rfl
@[simp] theorem recvHandOver_ret (s : State) : (recvHandOver s).ret = s.ret := rfl

end Sys2Proof.Machine
end

