-- ==== Sys2Proof/Laws/Ops.lean ====
section
/-! SUPPORT. For each shared operation, once, everything it can answer. -/

namespace Sys2Proof.Machine

/-! The hardware's record and its numerics. -/

@[simp] theorem hw_num : hw.num = ieee := rfl
@[simp] theorem hw_n : hw.n = 12 := rfl
@[simp] theorem hw_len : hw.len = 25 := rfl
@[simp] theorem hw_w : hw.w = 1 := rfl
@[simp] theorem hw_step : hw.step = stepF := rfl
@[simp] theorem hw_obsGain : hw.obsGain = obsGainF := rfl
@[simp] theorem hw_noiseMult : hw.noiseMult = noiseMultF := rfl
@[simp] theorem hw_eqMode : hw.eqMode = .residual := rfl
@[simp] theorem hw_taps : hw.taps = Config.taps := rfl
theorem hw_bufCap : hw.bufCap = Config.bufCapExtra + 15 := rfl
theorem hw_bufCap_ge : 15 ≤ hw.bufCap := by rw [hw_bufCap]; omega

@[simp] theorem ieee_fadd : ieee.fadd = f32Add := rfl
@[simp] theorem ieee_fsub : ieee.fsub = f32Sub := rfl
@[simp] theorem ieee_fmul : ieee.fmul = f32Mul := rfl
@[simp] theorem ieee_fdiv : ieee.fdiv = f32Div := rfl
@[simp] theorem ieee_ffloor : ieee.ffloor = f32Floor := rfl
@[simp] theorem ieee_fabs : ieee.fabs = f32Abs := rfl
@[simp] theorem ieee_fneg : ieee.fneg = f32Neg := rfl
@[simp] theorem ieee_flt : ieee.flt = f32Lt := rfl
@[simp] theorem ieee_fle : ieee.fle = f32Le := rfl
@[simp] theorem ieee_fgt : ieee.fgt = f32Gt := rfl
@[simp] theorem ieee_fge : ieee.fge = f32Ge := rfl
@[simp] theorem ieee_feq : ieee.feq = f32Eq := rfl
@[simp] theorem ieee_isfinite : ieee.isfinite = f32IsFinite := rfl
@[simp] theorem ieee_i2f : ieee.i2f = f32OfInt := rfl
@[simp] theorem ieee_f2i : ieee.f2i = f32ToInt := rfl
@[simp] theorem ieee_atan2 : ieee.atan2 = Config.atan2 := rfl

/-! Results. -/

@[simp] theorem ok_bind {α β : Type} (a : α) (f : α → Res β) : ((Except.ok a : Res α) >>= f) = f a := rfl

@[simp] theorem error_bind {α β : Type} (e : Stop) (f : α → Res β) : ((Except.error e : Res α) >>= f) = .error e := rfl

theorem bind_eq_ok {α β : Type} {x : Res α} {f : α → Res β} {b : β} :
    (x >>= f) = .ok b ↔ ∃ a, x = .ok a ∧ f a = .ok b := by
  cases x <;> simp

theorem bind_eq_error {α β : Type} {x : Res α} {f : α → Res β} {e : Stop} :
    (x >>= f) = .error e ↔ x = .error e ∨ ∃ a, x = .ok a ∧ f a = .error e := by
  cases x <;> simp

@[simp] theorem outcome_ok (s : State) : outcome (.ok s) = .next s := rfl

@[simp] theorem outcomeRet_ok (s : State) (r : Ret) : outcomeRet s (.ok r) = .next { s with ret := r } := rfl

theorem outcome_eq_next {r : Res State} {t : State} : outcome r = .next t ↔ r = .ok t := by
  match r with
  | .ok s => simp [outcome]
  | .error (.fault f) => simp [outcome]
  | .error (.refused f) => simp [outcome]

theorem outcomeRet_eq_next {s t : State} {r : Res Ret} :
    outcomeRet s r = .next t ↔ ∃ v, r = .ok v ∧ t = { s with ret := v } := by
  match r with
  | .ok v => simp [outcomeRet, eq_comm]
  | .error (.fault f) => simp [outcomeRet]
  | .error (.refused f) => simp [outcomeRet]

@[simp] theorem outOfRange_ne_ok {α : Type} {st : Store} {i : Int} {a : α} : outOfRange st i ≠ (.ok a : Res α) := by
  simp [outOfRange]

/-! Register files. -/

theorem cellGet_eq_ok {α : Type} {st : Store} {xs : List α} {i : Nat} {v : α} :
    cellGet st xs i = .ok v ↔ xs[i]? = some v := by
  unfold cellGet
  cases xs[i]? <;> simp

theorem cellSet_eq_ok {α : Type} {st : Store} {xs ys : List α} {i : Nat} {v : α} :
    cellSet st xs i v = .ok ys ↔ i < xs.length ∧ ys = xs.set i v := by
  unfold cellSet
  split_ifs with h
  · simp [h, eq_comm]
  · simp [h]

theorem pairSet_eq_ok {α : Type} {st : Store} {xs ys : List α} {m i : Nat} {v : α} :
    pairSet st xs m i v = .ok ys ↔ i + m < xs.length ∧ ys = (xs.set i v).set (i + m) v := by
  unfold pairSet
  simp only [bind_eq_ok, cellSet_eq_ok]
  constructor
  · rintro ⟨a, ⟨h1, rfl⟩, h2, rfl⟩
    exact ⟨by simpa using h2, rfl⟩
  · rintro ⟨h, rfl⟩
    exact ⟨_, ⟨by omega, rfl⟩, by simpa using h, rfl⟩

/-- A write of a pair keeps a ring's size. -/
theorem pairSet_length {α : Type} {st : Store} {xs ys : List α} {m i : Nat} {v : α} (h : pairSet st xs m i v = .ok ys) :
    ys.length = xs.length := by
  obtain ⟨_, rfl⟩ := pairSet_eq_ok.mp h
  simp

/-- A write of a pair keeps the two halves of a ring equal (R47). -/
theorem pairSet_halves {α : Type} {st : Store} {xs ys : List α} {m i : Nat} {v : α} (h : pairSet st xs m i v = .ok ys)
    (hl : xs.length = 2 * m) (hr : ∀ j, j < m → xs[j]? = xs[j + m]?) : ∀ j, j < m → ys[j]? = ys[j + m]? := by
  obtain ⟨hi, rfl⟩ := pairSet_eq_ok.mp h
  intro j hj
  have := hr j hj
  simp only [List.getElem?_set, List.length_set]
  split_ifs <;> first | rfl | omega

theorem natIndex_eq_ok {st : Store} {i : Int} {n : Nat} : natIndex st i = .ok n ↔ i = n := by
  unfold natIndex
  split_ifs with h
  · simp; omega
  · simp; omega

/-- What a run of reads answers: as many values as asked for, each what a read at its index answers. -/
theorem readRun_eq_ok {α : Type} {f : Nat → Res α} {i n : Nat} {vs : List α} :
    readRun f i n = .ok vs ↔ vs.length = n ∧ ∀ k v, vs[k]? = some v → f (i + k) = .ok v := by
  induction n generalizing i vs with
  | zero =>
    simp only [readRun, Except.ok.injEq, List.length_eq_zero_iff]
    constructor
    · rintro rfl; simp
    · rintro ⟨rfl, _⟩; rfl
  | succ n ih =>
    simp only [readRun, bind_eq_ok, ih]
    constructor
    · rintro ⟨v, hv, ws, ⟨hl, hw⟩, he⟩
      cases he
      refine ⟨by simp [hl], fun k w hk => ?_⟩
      cases k with
      | zero => simp at hk; subst hk; exact hv
      | succ k =>
        simp at hk
        have := hw k w hk
        rwa [show i + (k + 1) = i + 1 + k by omega]
    · rintro ⟨hl, hw⟩
      cases vs with
      | nil => simp at hl
      | cons v vs =>
        refine ⟨v, by simpa using hw 0 v rfl, vs, ⟨by simpa using hl, fun k w hk => ?_⟩, rfl⟩
        have := hw (k + 1) w (by simpa using hk)
        rwa [show i + (k + 1) = i + 1 + k by omega] at this

/-- A run of reads answers if each of them does. -/
theorem readRun_of_forall {α : Type} {f : Nat → Res α} {g : Nat → α} {i n : Nat}
    (h : ∀ k, k < n → f (i + k) = .ok (g k)) : readRun f i n = .ok ((List.range n).map g) := by
  rw [readRun_eq_ok]
  refine ⟨by simp, fun k v hk => ?_⟩
  have hkn : k < n := by
    have := List.getElem?_eq_some_iff.mp hk
    obtain ⟨h1, _⟩ := this
    simpa using h1
  simp [hkn] at hk
  rw [← hk]; exact h k hkn

theorem readRun_exists {α : Type} {f : Nat → Res α} {i n : Nat} (h : ∀ k, k < n → ∃ v, f (i + k) = .ok v) :
    ∃ vs, readRun f i n = .ok vs ∧ vs.length = n := by
  induction n generalizing i with
  | zero => exact ⟨[], rfl, rfl⟩
  | succ n ih =>
    obtain ⟨v, hv⟩ := h 0 (by omega)
    obtain ⟨vs, hvs, hl⟩ := ih (i := i + 1) (fun k hk => by
      have := h (k + 1) (by omega)
      rwa [show i + (k + 1) = i + 1 + k by omega] at this)
    refine ⟨v :: vs, ?_, by simp [hl]⟩
    rw [Nat.add_zero] at hv
    simp [readRun, hv, hvs]

/-- A run of cells of a register file is a slice of it. -/
theorem readRun_cellGet {α : Type} {st : Store} {xs : List α} {i n : Nat} (h : i + n ≤ xs.length) :
    readRun (cellGet st xs) i n = .ok ((xs.drop i).take n) := by
  rw [readRun_eq_ok]
  refine ⟨by simp; omega, fun k v hk => ?_⟩
  rw [cellGet_eq_ok]
  rw [List.getElem?_take] at hk
  split_ifs at hk
  rwa [List.getElem?_drop] at hk

/-- A run of cells of a register file answers only inside it. -/
theorem readRun_cellGet_eq_ok {α : Type} {st : Store} {xs vs : List α} {i n : Nat} (hn : 0 < n)
    (h : readRun (cellGet st xs) i n = .ok vs) : i + n ≤ xs.length ∧ vs = (xs.drop i).take n := by
  have h' := readRun_eq_ok.mp h
  have hb : i + n ≤ xs.length := by
    have hlt : n - 1 < vs.length := by omega
    have := cellGet_eq_ok.mp (h'.2 (n - 1) vs[n - 1] (List.getElem?_eq_getElem hlt))
    obtain ⟨h1, _⟩ := List.getElem?_eq_some_iff.mp this
    omega
  refine ⟨hb, ?_⟩
  have := readRun_cellGet (st := st) hb
  rw [h] at this
  exact Except.ok.inj this

theorem toInt_eq_ok {c : Cfg} {x : F32} {i : Int} : toInt c x = .ok i ↔ c.num.f2i x = some i := by
  unfold toInt
  cases c.num.f2i x <;> simp

theorem tapRead_eq_ok {c : Cfg} {r k : Nat} {v : F32} : tapRead c r k = .ok v ↔ r < 128 ∧ k < 8 ∧ c.taps r k = v := by
  unfold tapRead
  split_ifs with h1 h2 <;> simp [*]

theorem ibufRead_eq_ok {s : State} {i : Nat} {v : F32} : ibufRead s i = .ok v ↔ i < s.bufLen ∧ s.ibuf.get i = v := by
  unfold ibufRead
  split_ifs with h <;> simp [h]

theorem qbufRead_eq_ok {s : State} {i : Nat} {v : F32} : qbufRead s i = .ok v ↔ i < s.bufLen ∧ s.qbuf.get i = v := by
  unfold qbufRead
  split_ifs with h <;> simp [h]

/-! `UPDOBS` and `RESET`. -/

/-- For every operand of -4 or more `OVERLAP` is the floor plus 4, no free value. -/
theorem overlapOf_of_nonneg {sps : F32} {f : Int} (h : 0 ≤ f + 4) : overlapOf sps f = (f + 4).toNat :=
  if_neg (by omega)

/-- `UPDOBS` completes exactly where `f2i` of the floor is defined, with these three registers written and no other. -/
theorem updObsOp_eq_ok {c : Cfg} {sps : F32} {s t : State} :
    updObsOp c sps s = .ok t ↔
      ∃ f, c.num.f2i (c.num.ffloor sps) = some f ∧
        t = { s with mu := c.num.fsub sps (c.num.ffloor sps), ioff := f - 4, overlap := overlapOf sps f } := by
  simp only [updObsOp, bind_eq_ok, toInt_eq_ok, Except.ok.injEq, @eq_comm State _ t]

theorem resetBuffers_eq_ok {c : Cfg} {s t : State} :
    resetBuffers c s = .ok t ↔
      s.overlap ≤ c.bufCap ∧ t = { s with ibuf := [], qbuf := [], bufLen := s.overlap } := by
  have hz : ∀ (n i : Nat), SampleMem.setRun [] i (List.replicate n zeroF) = [] := by
    intro n
    induction n with
    | zero => intro i; rfl
    | succ n ih => intro i; rw [List.replicate_succ, SampleMem.setRun]; exact ih (i + 1)
  unfold resetBuffers sampleLoad
  simp only [List.length_replicate, hz]
  split_ifs with h
  · simp [h, eq_comm]
  · simp only [bind_eq_ok]
    constructor
    · rintro ⟨a, ha, _⟩; exact absurd ha outOfRange_ne_ok
    · rintro ⟨h', _⟩; exact absurd h' h

/-- The state `RESET` leaves when the floor of `NOMINAL_SPS` is `f` (R230). -/
def resetState (c : Cfg) (f : Int) (s : State) : State :=
  { resetRegs c s with
    mu := c.num.fsub s.nominalSps (c.num.ffloor s.nominalSps)
    ioff := f - 4
    overlap := overlapOf s.nominalSps f
    ibuf := []
    qbuf := []
    bufLen := overlapOf s.nominalSps f }

theorem resetOp_eq_ok {c : Cfg} {s t : State} :
    resetOp c s = .ok t ↔
      ∃ f, c.num.f2i (c.num.ffloor s.nominalSps) = some f ∧ overlapOf s.nominalSps f ≤ c.bufCap ∧
        t = resetState c f s := by
  unfold resetOp
  simp only [bind_eq_ok, updObsOp_eq_ok, resetBuffers_eq_ok]
  constructor
  · rintro ⟨a, ⟨f, hf, rfl⟩, hcap, rfl⟩
    exact ⟨f, hf, hcap, rfl⟩
  · rintro ⟨f, hf, hcap, rfl⟩
    exact ⟨_, ⟨f, hf, rfl⟩, hcap, rfl⟩

end Sys2Proof.Machine
end

