-- ==== Sys2Proof/Laws/Units.lean ====
section
/-! SUPPORT. For each unit operation, once, everything it can answer, and that it answers in a state of the right shape. -/

namespace Sys2Proof.Machine

/-! The equalizer. -/

theorem eqInsertOp_eq_ok {c : Cfg} {d : Dibit} {ph : F32} {s t : State} :
    eqInsertOp c d ph s = .ok t ↔
      s.eqP + c.len < s.eqZ.length ∧ s.eqP + c.len < s.eqA.length ∧
        t = { s with
          eqZ := (s.eqZ.set s.eqP ph).set (s.eqP + c.len) ph
          eqA := (s.eqA.set s.eqP (ideal d)).set (s.eqP + c.len) (ideal d)
          eqP := (s.eqP + 1) % c.len } := by
  unfold eqInsertOp
  simp only [bind_eq_ok, pairSet_eq_ok]
  constructor
  · rintro ⟨z, ⟨hz, rfl⟩, a, ⟨ha, rfl⟩, h⟩
    cases h; exact ⟨hz, ha, rfl⟩
  · rintro ⟨hz, ha, rfl⟩
    exact ⟨_, ⟨hz, rfl⟩, _, ⟨ha, rfl⟩, rfl⟩

theorem cfgLen_pos (c : Cfg) : 0 < c.len := Nat.succ_pos _

theorem Shape.eqInsertOp_ok {c : Cfg} {s : State} (h : Shape c s) (d : Dibit) (ph : F32) :
    eqInsertOp c d ph s = .ok { s with
      eqZ := (s.eqZ.set s.eqP ph).set (s.eqP + c.len) ph
      eqA := (s.eqA.set s.eqP (ideal d)).set (s.eqP + c.len) (ideal d)
      eqP := (s.eqP + 1) % c.len } := by
  have := h.eqP
  exact eqInsertOp_eq_ok.mpr ⟨by rw [h.eqZ]; omega, by rw [h.eqA]; omega, rfl⟩

theorem Shape.eqResiduals_ok {c : Cfg} {s : State} (h : Shape c s) :
    eqResiduals c s = .ok (List.zipWith c.num.fsub ((s.eqZ.drop s.eqP).take c.len) ((s.eqA.drop s.eqP).take c.len)) := by
  have := h.eqP
  unfold eqResiduals eqWindowZ eqWindowA
  rw [readRun_cellGet (by rw [h.eqZ]; omega), readRun_cellGet (by rw [h.eqA]; omega)]
  rfl

theorem Shape.eqTaps_ok {c : Cfg} {s : State} (h : Shape c s) : eqTaps c s = .ok s.eqQ := by
  unfold eqTaps
  rw [readRun_cellGet (by rw [h.eqQ]; omega), List.drop_zero, List.take_of_length_le (by rw [h.eqQ])]

theorem mapOffCentre_length {n k : Nat} {f : F32 → F32 → F32} {qs rs : List F32} :
    (mapOffCentre n f k qs rs).length = min qs.length rs.length := by
  induction qs generalizing k rs with
  | nil => simp [mapOffCentre]
  | cons q qs ih =>
    cases rs with
    | nil => simp [mapOffCentre]
    | cons r rs => simp [mapOffCentre, ih]

/-- One tap after an update of all but the centre tap. -/
theorem mapOffCentre_getElem? {n k l : Nat} {f : F32 → F32 → F32} {qs rs : List F32} {q r : F32}
    (hq : qs[l]? = some q) (hr : rs[l]? = some r) :
    (mapOffCentre n f k qs rs)[l]? = some (if k + l = n then q else f q r) := by
  induction qs generalizing k l rs with
  | nil => simp at hq
  | cons q' qs ih =>
    cases rs with
    | nil => simp at hr
    | cons r' rs =>
      cases l with
      | zero =>
        simp only [List.getElem?_cons_zero, Option.some.injEq] at hq hr
        subst hq; subst hr
        simp [mapOffCentre]
      | succ l =>
        simp only [List.getElem?_cons_succ] at hq hr
        simp only [mapOffCentre, List.getElem?_cons_succ]
        rw [ih hq hr]
        simp only [show k + 1 + l = k + (l + 1) by omega]

/-- What `EQPROC` answers: the insert's state with other taps, and `y` (R152). -/
theorem eqProcOp_eq_ok {c : Cfg} {d : Dibit} {ph : F32} {s : State} {p : State × F32} :
    eqProcOp c d ph s = .ok p ↔
      ∃ s1 rs qs zc ac, eqInsertOp c d ph s = .ok s1 ∧ eqResiduals c s1 = .ok rs ∧ eqTaps c s1 = .ok qs ∧
        s1.eqZ[s1.eqP + c.n]? = some zc ∧ s1.eqA[s1.eqP + c.n]? = some ac ∧
        p.2 = orZero c (dot c (eqTerms c rs zc) qs) ∧
        p.1 = { s1 with
          eqQ := mapOffCentre c.n (eqTapUpdate c (c.num.fmul (c.num.fmul twoF c.step) (c.num.fsub ac p.2))) 0 qs rs } := by
  unfold eqProcOp
  simp only [bind_eq_ok, cellGet_eq_ok]
  constructor
  · rintro ⟨s1, h1, rs, h2, qs, h3, zc, h4, ac, h5, h⟩
    cases h; exact ⟨s1, rs, qs, zc, ac, h1, h2, h3, h4, h5, rfl, rfl⟩
  · rintro ⟨s1, rs, qs, zc, ac, h1, h2, h3, h4, h5, h6, h7⟩
    refine ⟨s1, h1, rs, h2, qs, h3, zc, h4, ac, h5, ?_⟩
    rw [← h6, ← h7]

/-- What writing a run of window positions of `EQ_A` answers: the ring with each of those positions' pairs written. -/
theorem eqOverwrite_ok {c : Cfg} {p k : Nat} {a : List F32} {ds : List Dibit} (ha : a.length = 2 * c.len) :
    ∃ b, eqOverwrite c p k a ds = .ok b ∧ b.length = 2 * c.len := by
  induction ds generalizing k a with
  | nil => exact ⟨a, rfl, ha⟩
  | cons d ds ih =>
    have hlt := Nat.mod_lt (p + (c.len - 24) + k) (cfgLen_pos c)
    have h1 : pairSet .eqA a c.len ((p + (c.len - 24) + k) % c.len) (ideal d) =
        .ok ((a.set ((p + (c.len - 24) + k) % c.len) (ideal d)).set ((p + (c.len - 24) + k) % c.len + c.len) (ideal d)) :=
      pairSet_eq_ok.mpr ⟨by omega, rfl⟩
    obtain ⟨b, hb, hl⟩ := ih (k := k + 1)
      (a := (a.set ((p + (c.len - 24) + k) % c.len) (ideal d)).set ((p + (c.len - 24) + k) % c.len + c.len) (ideal d))
      (by simpa using ha)
    exact ⟨b, by rw [eqOverwrite, h1]; exact hb, hl⟩

theorem eqOverwrite_length {c : Cfg} {p k : Nat} {a b : List F32} {ds : List Dibit}
    (h : eqOverwrite c p k a ds = .ok b) : b.length = a.length := by
  induction ds generalizing k a with
  | nil => cases h; rfl
  | cons d ds ih =>
    rw [eqOverwrite, bind_eq_ok] at h
    obtain ⟨a', h1, h2⟩ := h
    rw [ih h2, pairSet_length h1]

theorem eqOverwrite_halves {c : Cfg} {p k : Nat} {a b : List F32} {ds : List Dibit}
    (h : eqOverwrite c p k a ds = .ok b) (hl : a.length = 2 * c.len)
    (hr : ∀ j, j < c.len → a[j]? = a[j + c.len]?) : ∀ j, j < c.len → b[j]? = b[j + c.len]? := by
  induction ds generalizing k a with
  | nil => cases h; exact hr
  | cons d ds ih =>
    rw [eqOverwrite, bind_eq_ok] at h
    obtain ⟨a', h1, h2⟩ := h
    exact ih h2 (by rw [pairSet_length h1, hl]) (pairSet_halves h1 hl hr)

/-- A cell that no written pair covers keeps its value. -/
theorem eqOverwrite_other {c : Cfg} {p k i : Nat} {a b : List F32} {ds : List Dibit}
    (h : eqOverwrite c p k a ds = .ok b)
    (hi : ∀ j, j < ds.length → i ≠ (p + (c.len - 24) + (k + j)) % c.len ∧
      i ≠ (p + (c.len - 24) + (k + j)) % c.len + c.len) : b[i]? = a[i]? := by
  induction ds generalizing k a with
  | nil => cases h; rfl
  | cons d ds ih =>
    rw [eqOverwrite, bind_eq_ok] at h
    obtain ⟨a', h1, h2⟩ := h
    obtain ⟨_, rfl⟩ := pairSet_eq_ok.mp h1
    rw [ih h2 (fun j hj => by
      have := hi (j + 1) (by simpa using hj)
      rwa [show k + 1 + j = k + (j + 1) by omega])]
    have h0 := hi 0 (by simp)
    rw [Nat.add_zero] at h0
    rw [List.getElem?_set_ne (Ne.symm h0.2), List.getElem?_set_ne (Ne.symm h0.1)]

/-- The window positions written hold the ideal phases of the dibits, in both halves. -/
theorem eqOverwrite_at {c : Cfg} {p k j : Nat} {d : Dibit} {a b : List F32} {ds : List Dibit}
    (h : eqOverwrite c p k a ds = .ok b) (hl : a.length = 2 * c.len) (hk : k + ds.length ≤ c.len) (hj : ds[j]? = some d) :
    b[(p + (c.len - 24) + (k + j)) % c.len]? = some (ideal d) ∧
      b[(p + (c.len - 24) + (k + j)) % c.len + c.len]? = some (ideal d) := by
  induction ds generalizing k j a with
  | nil => simp at hj
  | cons e ds ih =>
    rw [eqOverwrite, bind_eq_ok] at h
    obtain ⟨a', h1, h2⟩ := h
    have hl' : a'.length = 2 * c.len := by rw [pairSet_length h1, hl]
    simp only [List.length_cons] at hk
    cases j with
    | succ j =>
      have := ih (k := k + 1) (j := j) h2 hl' (by omega) (by simpa using hj)
      rwa [show k + 1 + j = k + (j + 1) by omega] at this
    | zero =>
      simp only [List.getElem?_cons_zero, Option.some.injEq] at hj
      subst hj
      have hlt := Nat.mod_lt (p + (c.len - 24) + k) (cfgLen_pos c)
      have hne : ∀ j, j < ds.length →
          (p + (c.len - 24) + k) % c.len ≠ (p + (c.len - 24) + (k + 1 + j)) % c.len := by
        intro j hj e
        have e' : (p + (c.len - 24) + k + 0) % c.len = (p + (c.len - 24) + k + (1 + j)) % c.len := by
          rw [Nat.add_zero, show p + (c.len - 24) + k + (1 + j) = p + (c.len - 24) + (k + 1 + j) by omega]; exact e
        have e2 : 0 % c.len = (1 + j) % c.len := Nat.ModEq.add_left_cancel' (p + (c.len - 24) + k) e'
        rw [Nat.zero_mod, Nat.mod_eq_of_lt (by omega)] at e2
        omega
      obtain ⟨hb, rfl⟩ := pairSet_eq_ok.mp h1
      rw [Nat.add_zero]
      have hlt' : ∀ j, (p + (c.len - 24) + (k + 1 + j)) % c.len < c.len := fun j => Nat.mod_lt _ (cfgLen_pos c)
      constructor
      · rw [eqOverwrite_other h2 (fun j hj => ⟨hne j hj, by have := hlt' j; omega⟩)]
        rw [List.getElem?_set_ne (by have := (cfgLen_pos c); omega), List.getElem?_set_self (by omega)]
      · rw [eqOverwrite_other h2 (fun j hj => ⟨by have := hlt' j; omega, by have := hne j hj; omega⟩)]
        rw [List.getElem?_set_self (by simpa using hb)]

/-- What `EQSYNC` answers (R154). -/
theorem eqSyncOp_eq_ok {c : Cfg} {ds : List Dibit} {s t : State} :
    eqSyncOp c ds s = .ok t ↔
      ds.length = 24 ∧ ∃ a rs qs main, eqOverwrite c s.eqP 0 s.eqA ds = .ok a ∧
        eqResiduals c { s with eqA := a } = .ok rs ∧ eqTaps c s = .ok qs ∧ rs[c.n]? = some main ∧
        t = { s with eqA := a, eqQ := mapOffCentre c.n (fun _ r => eqTapRetune c main r) 0 qs rs } := by
  unfold eqSyncOp
  split_ifs with hl
  · simp only [bind_eq_ok, cellGet_eq_ok]
    constructor
    · rintro ⟨a, h1, rs, h2, qs, h3, main, h4, h⟩
      cases h; exact ⟨hl, a, rs, qs, main, h1, h2, h3, h4, rfl⟩
    · rintro ⟨_, a, rs, qs, main, h1, h2, h3, h4, rfl⟩
      exact ⟨a, h1, rs, h2, qs, h3, main, h4, rfl⟩
  · constructor
    · intro h; exact absurd h outOfRange_ne_ok
    · intro h; exact absurd h.1 hl

/-! The sync detector and the delay line. -/

theorem syncCorrOp_eq_ok {c : Cfg} {ph : F32} {s : State} {p : State × F32} :
    syncCorrOp c ph s = .ok p ↔
      s.sdI + 24 < s.sdS.length ∧ (s.sdI + 1) % 24 + 24 ≤ s.sdS.length ∧
        p.1 = { s with
          sdS := (s.sdS.set s.sdI (clampSym c threeQPiF ph)).set (s.sdI + 24) (clampSym c threeQPiF ph)
          sdI := (s.sdI + 1) % 24 } ∧
        p.2 = dot c syncRef ((((s.sdS.set s.sdI (clampSym c threeQPiF ph)).set (s.sdI + 24)
          (clampSym c threeQPiF ph)).drop ((s.sdI + 1) % 24)).take 24) := by
  unfold syncCorrOp
  simp only [bind_eq_ok, pairSet_eq_ok]
  constructor
  · rintro ⟨ring, ⟨h1, rfl⟩, w, h2, h⟩
    obtain ⟨h3, rfl⟩ := readRun_cellGet_eq_ok (by norm_num) h2
    cases h
    exact ⟨h1, by simpa using h3, rfl, rfl⟩
  · rintro ⟨h1, h2, h3, h4⟩
    refine ⟨_, ⟨h1, rfl⟩, _, readRun_cellGet (by simpa using h2), ?_⟩
    obtain ⟨t, v⟩ := p
    simp only at h3 h4
    subst h3; subst h4; rfl

theorem Shape.syncCorrOp_ok {c : Cfg} {s : State} (h : Shape c s) (ph : F32) : ∃ p, syncCorrOp c ph s = .ok p := by
  have h1 := h.sdI
  have h2 := h.sdS
  have h3 := Nat.mod_lt (s.sdI + 1) (show 0 < 24 by norm_num)
  exact ⟨⟨_, _⟩, syncCorrOp_eq_ok.mpr ⟨by omega, by omega, rfl, rfl⟩⟩

theorem ddlPushOp_eq_ok {d : Dibit} {s : State} {p : State × Dibit} :
    ddlPushOp d s = .ok p ↔
      s.ddl[s.ddlPtr]? = some p.2 ∧
        p.1 = { s with ddl := s.ddl.set s.ddlPtr d, ddlPtr := (s.ddlPtr + 1) % 24 } := by
  unfold ddlPushOp
  simp only [bind_eq_ok, cellGet_eq_ok, cellSet_eq_ok]
  constructor
  · rintro ⟨out, h1, ring, ⟨_, rfl⟩, h⟩
    cases h; exact ⟨h1, rfl⟩
  · rintro ⟨h1, h2⟩
    have hl := (List.getElem?_eq_some_iff.mp h1).1
    refine ⟨p.2, h1, _, ⟨hl, rfl⟩, ?_⟩
    rw [← h2]

theorem Shape.ddlPushOp_ok {c : Cfg} {s : State} (h : Shape c s) (d : Dibit) : ∃ p, ddlPushOp d s = .ok p := by
  have h1 := h.ddl
  have h2 := h.ddlPtr
  exact ⟨⟨_, _⟩, ddlPushOp_eq_ok.mpr ⟨List.getElem?_eq_getElem (by omega), rfl⟩⟩

theorem ddlOverwrite_ok {p k : Nat} {a ds : List Dibit} (ha : a.length = 24) :
    ∃ b, ddlOverwrite p k a ds = .ok b ∧ b.length = 24 := by
  induction ds generalizing k a with
  | nil => exact ⟨a, rfl, ha⟩
  | cons d ds ih =>
    have hlt := Nat.mod_lt (p + k) (show 0 < 24 by norm_num)
    have h1 : cellSet .ddl a ((p + k) % 24) d = .ok (a.set ((p + k) % 24) d) := cellSet_eq_ok.mpr ⟨by omega, rfl⟩
    obtain ⟨b, hb, hl⟩ := ih (k := k + 1) (a := a.set ((p + k) % 24) d) (by simpa using ha)
    exact ⟨b, by rw [ddlOverwrite, h1]; exact hb, hl⟩

theorem ddlOverwrite_length {p k : Nat} {a b ds : List Dibit} (h : ddlOverwrite p k a ds = .ok b) :
    b.length = a.length := by
  induction ds generalizing k a with
  | nil => cases h; rfl
  | cons d ds ih =>
    rw [ddlOverwrite, bind_eq_ok] at h
    obtain ⟨a', h1, h2⟩ := h
    obtain ⟨_, rfl⟩ := cellSet_eq_ok.mp h1
    rw [ih h2, List.length_set]

theorem ddlOverwrite_other {p k i : Nat} {a b ds : List Dibit} (h : ddlOverwrite p k a ds = .ok b)
    (hi : ∀ j, j < ds.length → i ≠ (p + (k + j)) % 24) : b[i]? = a[i]? := by
  induction ds generalizing k a with
  | nil => cases h; rfl
  | cons d ds ih =>
    rw [ddlOverwrite, bind_eq_ok] at h
    obtain ⟨a', h1, h2⟩ := h
    obtain ⟨_, rfl⟩ := cellSet_eq_ok.mp h1
    rw [ih h2 (fun j hj => by
      have := hi (j + 1) (by simpa using hj)
      rwa [show k + 1 + j = k + (j + 1) by omega])]
    have h0 := hi 0 (by simp)
    rw [Nat.add_zero] at h0
    rw [List.getElem?_set_ne (Ne.symm h0)]

/-- After an overwrite of at most the whole ring, the dibits stand in order from the first place written. -/
theorem ddlOverwrite_at {p k j : Nat} {d : Dibit} {a b ds : List Dibit} (h : ddlOverwrite p k a ds = .ok b)
    (hk : k + ds.length ≤ 24) (hj : ds[j]? = some d) : b[(p + (k + j)) % 24]? = some d := by
  induction ds generalizing k j a with
  | nil => simp at hj
  | cons e ds ih =>
    rw [ddlOverwrite, bind_eq_ok] at h
    obtain ⟨a', h1, h2⟩ := h
    simp only [List.length_cons] at hk
    cases j with
    | succ j =>
      have := ih (k := k + 1) (j := j) h2 (by omega) (by simpa using hj)
      rwa [show k + 1 + j = k + (j + 1) by omega] at this
    | zero =>
      simp only [List.getElem?_cons_zero, Option.some.injEq] at hj
      subst hj
      obtain ⟨hb, rfl⟩ := cellSet_eq_ok.mp h1
      rw [Nat.add_zero, ddlOverwrite_other h2 (fun j hj => by omega), List.getElem?_set_self hb]

theorem ddlSyncOp_eq_ok {s t : State} :
    ddlSyncOp s = .ok t ↔
      ∃ ring, ddlOverwrite s.ddlPtr 0 s.ddl syncDibits = .ok ring ∧ t = { s with ddl := ring } := by
  unfold ddlSyncOp
  simp only [bind_eq_ok, Except.ok.injEq]
  constructor <;> rintro ⟨ring, h, h'⟩ <;> exact ⟨ring, h, h'.symm⟩

theorem Shape.ddlSyncOp_ok {c : Cfg} {s : State} (h : Shape c s) : ∃ t, ddlSyncOp s = .ok t := by
  obtain ⟨b, hb, _⟩ := ddlOverwrite_ok (p := s.ddlPtr) (k := 0) (ds := syncDibits) h.ddl
  exact ⟨_, ddlSyncOp_eq_ok.mpr ⟨b, hb, rfl⟩⟩

end Sys2Proof.Machine
end

