-- ==== Sys2Proof/Laws/Files.lean ====
section
/-! SUPPORT. The register files under the unit operations: every operation that answers keeps their sizes, their rings and
the centre tap (10_state.md rules R34 to R41, R47), and in a state of the right shape it answers. -/

namespace Sys2Proof.Machine

/-- The three invariants of the register files. -/
structure Files (c : Cfg) (s : State) : Prop where
  shape : Shape c s
  rings : Rings c s
  centre : CentreTap c s

/-- The invariants depend on the register files only. -/
theorem Files.congr {c : Cfg} {s t : State} (h : Files c s) (h1 : t.dly = s.dly) (h2 : t.dlyPtr = s.dlyPtr)
    (h3 : t.eqZ = s.eqZ) (h4 : t.eqA = s.eqA) (h5 : t.eqQ = s.eqQ) (h6 : t.eqP = s.eqP) (h7 : t.sdS = s.sdS)
    (h8 : t.sdI = s.sdI) (h9 : t.ddl = s.ddl) (h10 : t.ddlPtr = s.ddlPtr) : Files c t := by
  obtain ⟨⟨a1, a2, a3, a4, a5, a6, a7, a8, a9, a10⟩, ⟨b1, b2, b3, b4⟩, b5⟩ := h
  unfold CentreTap at b5
  refine ⟨⟨?_, ?_, ?_, ?_, ?_, ?_, ?_, ?_, ?_, ?_⟩, ⟨?_, ?_, ?_, ?_⟩, ?_⟩
  all_goals first | (unfold CentreTap; rw [h5]; exact b5) | (simp only [h1, h2, h3, h4, h5, h6, h7, h8, h9, h10]; assumption)

theorem setPair_halves {xs : List F32} {m i : Nat} {v : F32} (hi : i + m < xs.length) (hl : xs.length = 2 * m)
    (hr : ∀ j, j < m → xs[j]? = xs[j + m]?) :
    ∀ j, j < m → ((xs.set i v).set (i + m) v)[j]? = ((xs.set i v).set (i + m) v)[j + m]? :=
  pairSet_halves (st := .eqZ) (pairSet_eq_ok.mpr ⟨hi, rfl⟩) hl hr

/-! The equalizer. -/

theorem eqInsertOp_files {c : Cfg} {d : Dibit} {ph : F32} {s t : State} (h : eqInsertOp c d ph s = .ok t)
    (hf : Files c s) : Files c t := by
  obtain ⟨h1, h2, rfl⟩ := eqInsertOp_eq_ok.mp h
  obtain ⟨⟨a1, a2, a3, a4, a5, a6, a7, a8, a9, a10⟩, ⟨b1, b2, b3, b4⟩, b5⟩ := hf
  exact ⟨⟨a1, a2, by simpa using a3, by simpa using a4, a5, Nat.mod_lt _ (cfgLen_pos c), a7, a8, a9, a10⟩,
    ⟨b1, setPair_halves h1 a3 b2, setPair_halves h2 a4 b3, b4⟩, b5⟩

/-- New taps made of the old ones and residuals keep the size and the centre tap. -/
theorem mapOffCentre_files {c : Cfg} {s : State} (hf : Files c s) {f : F32 → F32 → F32} {rs : List F32}
    (hr : rs.length = c.len) : Files c { s with eqQ := mapOffCentre c.n f 0 s.eqQ rs } := by
  obtain ⟨⟨a1, a2, a3, a4, a5, a6, a7, a8, a9, a10⟩, ⟨b1, b2, b3, b4⟩, b5⟩ := hf
  have hn : c.n < rs.length := by rw [hr]; unfold Cfg.len; omega
  refine ⟨⟨a1, a2, a3, a4, ?_, a6, a7, a8, a9, a10⟩, ⟨b1, b2, b3, b4⟩, ?_⟩
  · show (mapOffCentre c.n f 0 s.eqQ rs).length = c.len
    rw [mapOffCentre_length, a5, hr, Nat.min_self]
  · show (mapOffCentre c.n f 0 s.eqQ rs)[c.n]? = some oneF
    rw [mapOffCentre_getElem? b5 (List.getElem?_eq_getElem hn), if_pos (Nat.zero_add _)]

theorem residuals_length {c : Cfg} {s : State} (hs : Shape c s) :
    (List.zipWith c.num.fsub ((s.eqZ.drop s.eqP).take c.len) ((s.eqA.drop s.eqP).take c.len)).length = c.len := by
  have := hs.eqP
  simp only [List.length_zipWith, List.length_take, List.length_drop, hs.eqZ, hs.eqA]
  omega

/-- The rings of `EQ_A` after an overwrite keep the invariants. -/
theorem eqOverwrite_files {c : Cfg} {ds : List Dibit} {s : State} {a : List F32}
    (h : eqOverwrite c s.eqP 0 s.eqA ds = .ok a) (hf : Files c s) : Files c { s with eqA := a } := by
  obtain ⟨⟨a1, a2, a3, a4, a5, a6, a7, a8, a9, a10⟩, ⟨b1, b2, b3, b4⟩, b5⟩ := hf
  exact ⟨⟨a1, a2, a3, by rw [← a4]; exact eqOverwrite_length h, a5, a6, a7, a8, a9, a10⟩,
    ⟨b1, b2, eqOverwrite_halves h a4 b3, b4⟩, b5⟩

theorem eqProcOp_of_shape {c : Cfg} {s : State} (hs : Shape c s) (d : Dibit) (ph : F32) : ∃ p, eqProcOp c d ph s = .ok p := by
  have h1 := hs.eqInsertOp_ok d ph
  have hP := hs.eqP
  have hm := Nat.mod_lt (s.eqP + 1) (cfgLen_pos c)
  have hn : c.n < c.len := by unfold Cfg.len; omega
  have hs1 : Shape c { s with
      eqZ := (s.eqZ.set s.eqP ph).set (s.eqP + c.len) ph
      eqA := (s.eqA.set s.eqP (ideal d)).set (s.eqP + c.len) (ideal d)
      eqP := (s.eqP + 1) % c.len } :=
    ⟨hs.dly, hs.dlyPtr, by simpa using hs.eqZ, by simpa using hs.eqA, hs.eqQ, hm, hs.sdS, hs.sdI, hs.ddl, hs.ddlPtr⟩
  obtain ⟨s1, h1, hs1⟩ : ∃ s1, eqInsertOp c d ph s = .ok s1 ∧ Shape c s1 := ⟨_, h1, hs1⟩
  have hP1 := hs1.eqP
  unfold eqProcOp
  rw [h1, ok_bind, hs1.eqResiduals_ok, ok_bind, hs1.eqTaps_ok, ok_bind,
    cellGet_eq_ok.mpr (List.getElem?_eq_getElem (show s1.eqP + c.n < s1.eqZ.length by rw [hs1.eqZ]; omega)), ok_bind,
    cellGet_eq_ok.mpr (List.getElem?_eq_getElem (show s1.eqP + c.n < s1.eqA.length by rw [hs1.eqA]; omega)), ok_bind]
  exact ⟨_, rfl⟩

theorem eqProcOp_files {c : Cfg} {d : Dibit} {ph : F32} {s : State} {p : State × F32}
    (h : eqProcOp c d ph s = .ok p) (hf : Files c s) : Files c p.1 := by
  obtain ⟨s1, rs, qs, zc, ac, h1, h2, h3, _, _, _, h7⟩ := eqProcOp_eq_ok.mp h
  have hf1 := eqInsertOp_files h1 hf
  rw [hf1.shape.eqTaps_ok] at h3
  rw [hf1.shape.eqResiduals_ok] at h2
  cases h2; cases h3
  rw [h7]
  exact mapOffCentre_files hf1 (residuals_length hf1.shape)

/-- What `EQPROC` does not write. -/
theorem eqProcOp_frame {c : Cfg} {d : Dibit} {ph : F32} {s : State} {p : State × F32} (h : eqProcOp c d ph s = .ok p) :
    p.1 = { s with eqZ := p.1.eqZ, eqA := p.1.eqA, eqP := p.1.eqP, eqQ := p.1.eqQ } := by
  obtain ⟨s1, rs, qs, zc, ac, h1, _, _, _, _, _, h7⟩ := eqProcOp_eq_ok.mp h
  obtain ⟨_, _, rfl⟩ := eqInsertOp_eq_ok.mp h1
  rw [h7]

theorem eqSyncOp_of_shape {c : Cfg} {s : State} (hs : Shape c s) {ds : List Dibit} (hl : ds.length = 24) :
    ∃ t, eqSyncOp c ds s = .ok t := by
  obtain ⟨a, ha, hal⟩ := eqOverwrite_ok (p := s.eqP) (k := 0) (ds := ds) hs.eqA
  have hs1 : Shape c { s with eqA := a } :=
    ⟨hs.dly, hs.dlyPtr, hs.eqZ, hal, hs.eqQ, hs.eqP, hs.sdS, hs.sdI, hs.ddl, hs.ddlPtr⟩
  have hn : c.n < c.len := by unfold Cfg.len; omega
  exact ⟨_, eqSyncOp_eq_ok.mpr ⟨hl, a, _, _, _, ha, hs1.eqResiduals_ok, hs.eqTaps_ok,
    List.getElem?_eq_getElem (by rw [residuals_length hs1]; exact hn), rfl⟩⟩

theorem eqSyncOp_files {c : Cfg} {ds : List Dibit} {s t : State} (h : eqSyncOp c ds s = .ok t) (hf : Files c s) :
    Files c t := by
  obtain ⟨_, a, rs, qs, main, h1, h2, h3, _, rfl⟩ := eqSyncOp_eq_ok.mp h
  have hf1 := eqOverwrite_files h1 hf
  rw [hf.shape.eqTaps_ok] at h3
  rw [hf1.shape.eqResiduals_ok] at h2
  cases h2; cases h3
  exact mapOffCentre_files hf1 (residuals_length hf1.shape)

/-- What `EQSYNC` does not write. -/
theorem eqSyncOp_frame {c : Cfg} {ds : List Dibit} {s t : State} (h : eqSyncOp c ds s = .ok t) :
    t = { s with eqA := t.eqA, eqQ := t.eqQ } := by
  obtain ⟨_, a, rs, qs, main, _, _, _, _, rfl⟩ := eqSyncOp_eq_ok.mp h
  rfl

/-! The sync detector and the delay line. -/

theorem syncCorrOp_files {c : Cfg} {ph : F32} {s : State} {p : State × F32} (h : syncCorrOp c ph s = .ok p)
    (hf : Files c s) : Files c p.1 := by
  obtain ⟨h1, _, h3, _⟩ := syncCorrOp_eq_ok.mp h
  obtain ⟨⟨a1, a2, a3, a4, a5, a6, a7, a8, a9, a10⟩, ⟨b1, b2, b3, b4⟩, b5⟩ := hf
  rw [h3]
  exact ⟨⟨a1, a2, a3, a4, a5, a6, by simpa using a7, Nat.mod_lt _ (by norm_num), a9, a10⟩,
    ⟨b1, b2, b3, setPair_halves h1 a7 b4⟩, b5⟩

theorem ddlPushOp_files {c : Cfg} {d : Dibit} {s : State} {p : State × Dibit} (h : ddlPushOp d s = .ok p)
    (hf : Files c s) : Files c p.1 := by
  obtain ⟨_, h3⟩ := ddlPushOp_eq_ok.mp h
  obtain ⟨⟨a1, a2, a3, a4, a5, a6, a7, a8, a9, a10⟩, hr, b5⟩ := hf
  rw [h3]
  exact ⟨⟨a1, a2, a3, a4, a5, a6, a7, a8, by simpa using a9, Nat.mod_lt _ (by norm_num)⟩,
    ⟨hr.dly, hr.eqZ, hr.eqA, hr.sdS⟩, b5⟩

theorem ddlSyncOp_files {c : Cfg} {s t : State} (h : ddlSyncOp s = .ok t) (hf : Files c s) : Files c t := by
  obtain ⟨ring, h1, rfl⟩ := ddlSyncOp_eq_ok.mp h
  obtain ⟨⟨a1, a2, a3, a4, a5, a6, a7, a8, a9, a10⟩, hr, b5⟩ := hf
  exact ⟨⟨a1, a2, a3, a4, a5, a6, a7, a8, by rw [← a9]; exact ddlOverwrite_length h1, a10⟩,
    ⟨hr.dly, hr.eqZ, hr.eqA, hr.sdS⟩, b5⟩

/-! The symbol processor. -/

theorem spInsertOp_eq_ok {c : Cfg} {phi : F32} {s t : State} :
    spInsertOp c phi s = .ok t ↔
      s.dlyPtr + 8 < s.dly.length ∧
        t = { s with
          noisy := s.noisy || noiseGate c s (unwrapOp c phi s.previousPhase)
          previousPhase := unwrapOp c phi s.previousPhase
          dly := (s.dly.set s.dlyPtr (unwrapOp c phi s.previousPhase)).set (s.dlyPtr + 8)
            (unwrapOp c phi s.previousPhase)
          dlyPtr := (s.dlyPtr + 1) % 8
          samplePoint := c.num.fsub s.samplePoint oneF } := by
  unfold spInsertOp gateNoisy
  simp only [bind_eq_ok, pairSet_eq_ok]
  constructor
  · rintro ⟨ring, ⟨h1, rfl⟩, h⟩
    cases h; exact ⟨h1, rfl⟩
  · rintro ⟨h1, rfl⟩
    exact ⟨_, ⟨h1, rfl⟩, rfl⟩

theorem spInsertOp_of_shape {c : Cfg} {s : State} (hs : Shape c s) (phi : F32) : ∃ t, spInsertOp c phi s = .ok t := by
  have h1 := hs.dly
  have h2 := hs.dlyPtr
  exact ⟨_, spInsertOp_eq_ok.mpr ⟨by omega, rfl⟩⟩

theorem spInsertOp_files {c : Cfg} {phi : F32} {s t : State} (h : spInsertOp c phi s = .ok t) (hf : Files c s) :
    Files c t := by
  obtain ⟨h1, rfl⟩ := spInsertOp_eq_ok.mp h
  obtain ⟨⟨a1, a2, a3, a4, a5, a6, a7, a8, a9, a10⟩, ⟨b1, b2, b3, b4⟩, b5⟩ := hf
  exact ⟨⟨by simpa using a1, Nat.mod_lt _ (by norm_num), a3, a4, a5, a6, a7, a8, a9, a10⟩,
    ⟨setPair_halves h1 a1 b1, b2, b3, b4⟩, b5⟩

theorem symbolEqualize_of_shape {c : Cfg} {s : State} (hs : Shape c s) (phi : F32) (d0 : Dibit) :
    ∃ p, symbolEqualize c phi d0 s = .ok p := by
  unfold symbolEqualize
  split_ifs
  · rw [hs.eqInsertOp_ok]; exact ⟨_, rfl⟩
  · obtain ⟨p, hp⟩ := eqProcOp_of_shape hs d0 phi
    rw [hp]; exact ⟨_, rfl⟩

theorem symbolEqualize_files {c : Cfg} {phi : F32} {d0 : Dibit} {s : State} {p : State × Dibit × F32}
    (h : symbolEqualize c phi d0 s = .ok p) (hf : Files c s) : Files c p.1 := by
  unfold symbolEqualize at h
  split_ifs at h
  · obtain ⟨t, h1, h2⟩ := bind_eq_ok.mp h
    cases h2; exact eqInsertOp_files h1 hf
  · obtain ⟨t, h1, h2⟩ := bind_eq_ok.mp h
    cases h2; exact eqProcOp_files h1 hf

/-- What EQUALIZE does not write. -/
theorem symbolEqualize_frame {c : Cfg} {phi : F32} {d0 : Dibit} {s : State} {p : State × Dibit × F32}
    (h : symbolEqualize c phi d0 s = .ok p) :
    p.1 = { s with eqZ := p.1.eqZ, eqA := p.1.eqA, eqP := p.1.eqP, eqQ := p.1.eqQ } := by
  unfold symbolEqualize at h
  split_ifs at h
  · obtain ⟨t, h1, h2⟩ := bind_eq_ok.mp h
    obtain ⟨_, _, rfl⟩ := eqInsertOp_eq_ok.mp h1
    cases h2; rfl
  · obtain ⟨t, h1, h2⟩ := bind_eq_ok.mp h
    cases h2; exact eqProcOp_frame h1

/-- What EMIT answers (R134, R138, R139). -/
theorem symbolEmit_eq_ok {c : Cfg} {score : F32} {d1 : Dibit} {s t : State} :
    symbolEmit c score d1 s = .ok t ↔
      if isSyncEvent c score then
        ∃ u v, ddlSyncOp s = .ok u ∧ (if u.retuneEn then eqSyncOp c syncDibits u else .ok u) = .ok v ∧
          t = emit .d01Plus3 v
      else ∃ p, ddlPushOp d1 s = .ok p ∧ t = emit p.2 p.1 := by
  unfold symbolEmit
  rw [show (cellGet .operand syncDibits 0 : Res Dibit) = .ok .d01Plus3 from rfl]
  split_ifs with he
  · rw [bind_eq_ok]
    refine exists_congr fun u => ?_
    simp only [ok_bind]
    split_ifs
    · rw [bind_eq_ok]
      constructor
      · rintro ⟨h1, v, h2, h3⟩
        cases h3; exact ⟨v, h1, h2, rfl⟩
      · rintro ⟨v, h1, h2, rfl⟩
        exact ⟨h1, v, h2, rfl⟩
    · constructor
      · rintro ⟨h1, h2⟩
        cases h2; exact ⟨u, h1, rfl, rfl⟩
      · rintro ⟨v, h1, h2, rfl⟩
        cases h2; exact ⟨h1, rfl⟩
  · rw [bind_eq_ok]
    refine exists_congr fun p => and_congr_right fun _ => ?_
    rw [Except.ok.injEq, eq_comm]

theorem symbolEmit_of_shape {c : Cfg} {s : State} (hs : Shape c s) (score : F32) (d1 : Dibit) :
    ∃ t, symbolEmit c score d1 s = .ok t := by
  simp only [symbolEmit_eq_ok]
  split_ifs
  · obtain ⟨t, ht⟩ := hs.ddlSyncOp_ok
    have htl : Shape c t := by
      obtain ⟨ring, h1, rfl⟩ := ddlSyncOp_eq_ok.mp ht
      exact ⟨hs.dly, hs.dlyPtr, hs.eqZ, hs.eqA, hs.eqQ, hs.eqP, hs.sdS, hs.sdI,
        by rw [← hs.ddl]; exact ddlOverwrite_length h1, hs.ddlPtr⟩
    obtain ⟨u, hu⟩ := eqSyncOp_of_shape htl (ds := syncDibits) rfl
    by_cases hr : t.retuneEn = true
    · exact ⟨_, t, u, ht, by rw [if_pos hr]; exact hu, rfl⟩
    · exact ⟨_, t, t, ht, by rw [if_neg hr], rfl⟩
  · obtain ⟨p, hp⟩ := hs.ddlPushOp_ok d1
    exact ⟨_, p, hp, rfl⟩

/-- What EMIT leaves: one dibit more in `OUTQ`, and what it does not write. -/
theorem symbolEmit_frame {c : Cfg} {score : F32} {d1 : Dibit} {s t : State} (h : symbolEmit c score d1 s = .ok t) :
    (∃ out, t.outq = s.outq ++ [out]) ∧
      t = { s with ddl := t.ddl, ddlPtr := t.ddlPtr, eqA := t.eqA, eqQ := t.eqQ, outq := t.outq } := by
  rw [symbolEmit_eq_ok] at h
  split_ifs at h with he
  · obtain ⟨u, v, h1, h4, rfl⟩ := h
    obtain ⟨ring, _, rfl⟩ := ddlSyncOp_eq_ok.mp h1
    split_ifs at h4
    · rw [eqSyncOp_frame h4]; exact ⟨⟨_, rfl⟩, rfl⟩
    · cases h4; exact ⟨⟨_, rfl⟩, rfl⟩
  · obtain ⟨p, h1, rfl⟩ := h
    obtain ⟨_, h3⟩ := ddlPushOp_eq_ok.mp h1
    rw [h3]; exact ⟨⟨p.2, rfl⟩, rfl⟩

theorem symbolEmit_files {c : Cfg} {score : F32} {d1 : Dibit} {s t : State} (h : symbolEmit c score d1 s = .ok t)
    (hf : Files c s) : Files c t := by
  rw [symbolEmit_eq_ok] at h
  split_ifs at h with he
  · obtain ⟨u, v, h1, h4, rfl⟩ := h
    have hu := ddlSyncOp_files h1 hf
    have hv : Files c v := by
      split_ifs at h4
      · exact eqSyncOp_files h4 hu
      · cases h4; exact hu
    exact hv.congr rfl rfl rfl rfl rfl rfl rfl rfl rfl rfl
  · obtain ⟨p, h1, rfl⟩ := h
    exact (ddlPushOp_files h1 hf).congr rfl rfl rfl rfl rfl rfl rfl rfl rfl rfl

theorem symbolDecide_eq_ok {c : Cfg} {s : State} {p : F32 × Dibit × F32} :
    symbolDecide c s = .ok p ↔
      ∃ prec foll, interpOp c s .dly s.dlyPtr s.samplePoint = .ok p.1 ∧ s.dly[s.dlyPtr + 3]? = some prec ∧
        s.dly[s.dlyPtr + 4]? = some foll ∧ p.2.1 = decideOp c p.1 ∧
        p.2.2 = if s.noisy then zeroF else terrOp c p.2.1 prec p.1 foll := by
  obtain ⟨phi, d0, e⟩ := p
  unfold symbolDecide
  simp only [bind_eq_ok, cellGet_eq_ok]
  constructor
  · rintro ⟨phi, h1, prec, h2, foll, h3, h⟩
    cases h; exact ⟨prec, foll, h1, h2, h3, rfl, rfl⟩
  · rintro ⟨prec, foll, h1, h2, h3, h4, h5⟩
    subst h4; subst h5
    exact ⟨phi, h1, prec, h2, foll, h3, rfl⟩

/-- What `SYMBOL` answers, state by state of `SEQ` (R134). -/
theorem symbolOp_eq_ok {c : Cfg} {s t : State} :
    symbolOp c s = .ok t ↔
      ∃ p e k u, symbolDecide c (setSeq .decide s) = .ok p ∧
        symbolEqualize c p.1 p.2.1 (setSeq .equalize (loopUpdOp c p.2.2 (setSeq .updateLoop s))) = .ok e ∧
        symbolCorrelate c e.2.1 e.2.2 (setSeq .correlate e.1) = .ok k ∧
        symbolEmit c k.2 e.2.1 (setSeq .emit k.1) = .ok u ∧ t = setSeq .await (clearNoisy u) := by
  unfold symbolOp
  simp only [bind_eq_ok, Except.ok.injEq]
  constructor
  · rintro ⟨p, h1, e, h2, k, h3, u, h4, h5⟩
    exact ⟨p, e, k, u, h1, h2, h3, h4, h5.symm⟩
  · rintro ⟨p, e, k, u, h1, h2, h3, h4, h5⟩
    exact ⟨p, h1, e, h2, k, h3, u, h4, h5.symm⟩

theorem symbolOp_files {c : Cfg} {s t : State} (h : symbolOp c s = .ok t) (hf : Files c s) : Files c t := by
  obtain ⟨p, e, k, u, _, h2, h3, h4, rfl⟩ := symbolOp_eq_ok.mp h
  have g1 : Files c (setSeq .equalize (loopUpdOp c p.2.2 (setSeq .updateLoop s))) :=
    hf.congr rfl rfl rfl rfl rfl rfl rfl rfl rfl rfl
  have g2 := symbolEqualize_files h2 g1
  have g3 : Files c k.1 := by
    unfold symbolCorrelate at h3
    obtain ⟨r, h5, h6⟩ := bind_eq_ok.mp h3
    cases h6
    exact (syncCorrOp_files h5 (g2.congr rfl rfl rfl rfl rfl rfl rfl rfl rfl rfl)).congr
      rfl rfl rfl rfl rfl rfl rfl rfl rfl rfl
  have g4 := symbolEmit_files h4 (g3.congr rfl rfl rfl rfl rfl rfl rfl rfl rfl rfl)
  exact g4.congr rfl rfl rfl rfl rfl rfl rfl rfl rfl rfl

/-- What `SYMBOL` answers where it answers: the loop filter's two registers for some timing error, one dibit more,
`NOISY` clear, `SEQ` in AWAIT, and what it does not write. -/
theorem symbolOp_frame {c : Cfg} {s t : State} (h : symbolOp c s = .ok t) :
    (∃ p, symbolDecide c (setSeq .decide s) = .ok p ∧ t.observedSps = loopObserved c p.2.2 s ∧
      t.samplePoint = (loopUpdOp c p.2.2 s).samplePoint) ∧
    (∃ out, t.outq = s.outq ++ [out]) ∧ t.noisy = false ∧ t.seq = .await ∧
      t = { s with
        observedSps := t.observedSps, samplePoint := t.samplePoint, eqZ := t.eqZ, eqA := t.eqA, eqP := t.eqP
        eqQ := t.eqQ, sdS := t.sdS, sdI := t.sdI, ssr := t.ssr, ddl := t.ddl, ddlPtr := t.ddlPtr, outq := t.outq
        noisy := t.noisy, seq := t.seq } := by
  obtain ⟨p, e, k, u, h1, h2, h3, h4, rfl⟩ := symbolOp_eq_ok.mp h
  unfold symbolCorrelate at h3
  obtain ⟨r, h5, h6⟩ := bind_eq_ok.mp h3
  obtain ⟨_, _, h7, _⟩ := syncCorrOp_eq_ok.mp h5
  have f2 := symbolEqualize_frame h2
  obtain ⟨f3, f4⟩ := symbolEmit_frame h4
  cases h6
  dsimp only at f3 f4
  refine ⟨⟨p, h1, ?_, ?_⟩, ?_, rfl, rfl, ?_⟩
  · rw [f4, h7, f2]; rfl
  · rw [f4, h7, f2]; rfl
  · obtain ⟨out, ho⟩ := f3
    refine ⟨out, ?_⟩
    show u.outq = _
    rw [ho, h7, f2]; rfl
  · rw [f4, h7, f2]
    simp only [setSeq, clearNoisy, shiftSsr, loopUpdOp]

end Sys2Proof.Machine
end

