-- ==== Sys2Proof/Laws/PerInstr.lean ====
section
/-! SUPPORT. Facts about the instruction as syntax, one lemma per instruction.

`HeaderLength`: the number of words that follow the header of a well-formed instruction is a function of its header
alone (30_encoding.md rule R87 for the commands; assumption log 7 for the micro-sequencer's slot), and the header is a
micro-operation number of R96 exactly when the instruction is a unit operation. -/

namespace Sys2Proof.Laws

/-- What the header of an instruction says of it. -/
def HeaderLength.Statement (i : Instr) : Prop :=
  i.WellFormed → ∃ h ws, encode i = h :: ws ∧ isMicroNumber h = !i.isCommand ∧
    ws.length = if i.isCommand then portOperandWords h else microOperandWords h

theorem HeaderLength.cfg (retune : Bool) (sr : Word) (fs : F32) : HeaderLength.Statement (.cfg retune sr fs) := by
  intro _
  cases retune <;> exact ⟨_, _, rfl, rfl, rfl⟩

theorem HeaderLength.setfs (fs : F32) : HeaderLength.Statement (.setfs fs) :=
  fun _ => ⟨_, _, rfl, rfl, rfl⟩

theorem HeaderLength.rst : HeaderLength.Statement .rst := fun _ => ⟨_, _, rfl, rfl, rfl⟩

/-- The header of a batch carries its length and no bit else (R88). -/
theorem recvHeader_facts {n : Nat} (hn : n < 16777216) :
    recvCount (BitVec.ofNat 32 (n * 256 + 4)) = n ∧ isRecvHeader (BitVec.ofNat 32 (n * 256 + 4)) = true ∧
      isCfgHeader (BitVec.ofNat 32 (n * 256 + 4)) = false ∧ isSetfsHeader (BitVec.ofNat 32 (n * 256 + 4)) = false ∧
      isRstHeader (BitVec.ofNat 32 (n * 256 + 4)) = false := by
  have hlow : BitVec.ofNat 32 (n * 256 + 4) &&& 0x000000FF#32 = 0x00000004#32 := by
    apply BitVec.eq_of_toNat_eq
    rw [BitVec.toNat_and, BitVec.toNat_ofNat, Nat.mod_eq_of_lt (by omega)]
    show (n * 256 + 4) &&& (2 ^ 8 - 1) = 4
    rw [Nat.and_two_pow_sub_one_eq_mod]
    omega
  have hand : ∀ m k : Word, m &&& 0x000000FF#32 = 0x000000FF#32 →
      BitVec.ofNat 32 (n * 256 + 4) &&& m = k → k &&& 0x000000FF#32 = 0x00000004#32 := by
    intro m k hm h
    rw [← h, BitVec.and_assoc, hm, hlow]
  refine ⟨?_, ?_, ?_, ?_, ?_⟩
  · unfold recvCount
    rw [BitVec.toNat_ofNat, Nat.mod_eq_of_lt (by omega)]
    omega
  · unfold isRecvHeader
    rw [hlow]; rfl
  · refine Bool.eq_false_iff.mpr fun h => ?_
    have := hand 0xFFFFFEFF#32 0x00000001#32 (by decide) (by simpa [isCfgHeader] using h)
    exact absurd this (by decide)
  · refine Bool.eq_false_iff.mpr fun h => ?_
    have h' : BitVec.ofNat 32 (n * 256 + 4) = 0x00000002#32 := by simpa [isSetfsHeader] using h
    exact absurd (h' ▸ hlow : (0x00000002#32 : Word) &&& 0x000000FF#32 = 0x00000004#32) (by decide)
  · refine Bool.eq_false_iff.mpr fun h => ?_
    have h' : BitVec.ofNat 32 (n * 256 + 4) = 0x00000003#32 := by simpa [isRstHeader] using h
    exact absurd (h' ▸ hlow : (0x00000003#32 : Word) &&& 0x000000FF#32 = 0x00000004#32) (by decide)

/-- A batch's header is no micro-operation number: its low byte is 4 and the next 24 bits hold the length. -/
theorem recvHeader_not_micro {n : Nat} (hn : n < 16777216) : isMicroNumber (BitVec.ofNat 32 (n * 256 + 4)) = false := by
  unfold isMicroNumber
  rw [BitVec.toNat_ofNat, Nat.mod_eq_of_lt (by omega)]
  rcases Nat.eq_zero_or_pos n with rfl | hp
  · decide
  · have : Nat.ble (n * 256 + 4) 0x20 = false := by
      rw [← Bool.not_eq_true, Nat.ble_eq]; omega
    rw [this, Bool.and_false]

theorem HeaderLength.recv (ts : BitVec 64) (batch : List (F32 × F32)) : HeaderLength.Statement (.recv ts batch) := by
  intro h
  have hn : batch.length < 16777216 := of_decide_eq_true h
  obtain ⟨h1, h2, h3, h4, _⟩ := recvHeader_facts hn
  refine ⟨_, _, rfl, recvHeader_not_micro hn, ?_⟩
  simp [Instr.isCommand, portOperandWords, h1, h2, h3, h4]
  omega

theorem HeaderLength.rdcsr (addr : BitVec 12) : HeaderLength.Statement (.rdcsr addr) := by
  intro _
  have hw : (BitVec.ofNat 32 (addr.toNat * 256 + 5)) &&& 0x000000FF#32 = 0x00000005#32 := by
    apply BitVec.eq_of_toNat_eq
    have := addr.isLt
    rw [BitVec.toNat_and, BitVec.toNat_ofNat, Nat.mod_eq_of_lt (by omega)]
    show (addr.toNat * 256 + 5) &&& (2 ^ 8 - 1) = 5
    rw [Nat.and_two_pow_sub_one_eq_mod]
    omega
  refine ⟨_, _, rfl, ?_, ?_⟩
  · have := addr.isLt
    unfold isMicroNumber
    rw [BitVec.toNat_ofNat, Nat.mod_eq_of_lt (by omega)]
    rcases Nat.eq_zero_or_pos addr.toNat with h0 | hp
    · rw [h0]; rfl
    · have : Nat.ble (addr.toNat * 256 + 5) 0x20 = false := by
        rw [← Bool.not_eq_true, Nat.ble_eq]; omega
      rw [this, Bool.and_false]; rfl
  · have hr : isRecvHeader (BitVec.ofNat 32 (addr.toNat * 256 + 5)) = false := by unfold isRecvHeader; rw [hw]; rfl
    have hs : isSetfsHeader (BitVec.ofNat 32 (addr.toNat * 256 + 5)) = false :=
      Bool.eq_false_iff.mpr fun h => by
        have h' : BitVec.ofNat 32 (addr.toNat * 256 + 5) = 0x00000002#32 := by simpa [isSetfsHeader] using h
        exact absurd (h' ▸ hw : (0x00000002#32 : Word) &&& 0x000000FF#32 = 0x00000005#32) (by decide)
    have hc : isCfgHeader (BitVec.ofNat 32 (addr.toNat * 256 + 5)) = false :=
      Bool.eq_false_iff.mpr fun h => by
        have h' : BitVec.ofNat 32 (addr.toNat * 256 + 5) &&& 0xFFFFFEFF#32 = 0x00000001#32 := by
          simpa [isCfgHeader] using h
        have h'' : (0x00000001#32 : Word) &&& 0x000000FF#32 = 0x00000005#32 := by
          rw [← h', BitVec.and_assoc, show (0xFFFFFEFF#32 : Word) &&& 0x000000FF#32 = 0x000000FF#32 by decide, hw]
        exact absurd h'' (by decide)
    simp [Instr.isCommand, portOperandWords, hc, hs, hr]

theorem HeaderLength.interp (sp : Space) (off : Nat) (mu : F32) : HeaderLength.Statement (.interp sp off mu) :=
  fun _ => ⟨_, _, rfl, rfl, rfl⟩

theorem HeaderLength.cmulc (pI pQ cI cQ : F32) : HeaderLength.Statement (.cmulc pI pQ cI cQ) :=
  fun _ => ⟨_, _, rfl, rfl, rfl⟩

theorem HeaderLength.phase (dQ dI : F32) : HeaderLength.Statement (.phase dQ dI) := fun _ => ⟨_, _, rfl, rfl, rfl⟩

theorem HeaderLength.diff (x : Nat) : HeaderLength.Statement (.diff x) := fun _ => ⟨_, _, rfl, rfl, rfl⟩

theorem HeaderLength.unwrap (c p : F32) : HeaderLength.Statement (.unwrap c p) := fun _ => ⟨_, _, rfl, rfl, rfl⟩

theorem HeaderLength.spsample (phiIn : F32) : HeaderLength.Statement (.spsample phiIn) :=
  fun _ => ⟨_, _, rfl, rfl, rfl⟩

theorem HeaderLength.symbol : HeaderLength.Statement .symbol := fun _ => ⟨_, _, rfl, rfl, rfl⟩

theorem HeaderLength.loopupd (eps : F32) : HeaderLength.Statement (.loopupd eps) :=
  fun _ => ⟨_, _, rfl, rfl, rfl⟩

theorem HeaderLength.eqproc (d : Dibit) (ph : F32) : HeaderLength.Statement (.eqproc d ph) :=
  fun _ => ⟨_, _, rfl, rfl, rfl⟩

theorem HeaderLength.eqnoupd (d : Dibit) (ph : F32) : HeaderLength.Statement (.eqnoupd d ph) :=
  fun _ => ⟨_, _, rfl, rfl, rfl⟩

theorem HeaderLength.eqsync (t : List Dibit) : HeaderLength.Statement (.eqsync t) :=
  fun _ => ⟨_, _, rfl, rfl, rfl⟩

theorem HeaderLength.updobs (sps : F32) : HeaderLength.Statement (.updobs sps) :=
  fun _ => ⟨_, _, rfl, rfl, rfl⟩

theorem HeaderLength.decidePhi (phi : F32) : HeaderLength.Statement (.decidePhi phi) :=
  fun _ => ⟨_, _, rfl, rfl, rfl⟩

theorem HeaderLength.terr (d : Dibit) (prec cur foll : F32) : HeaderLength.Statement (.terr d prec cur foll) :=
  fun _ => ⟨_, _, rfl, rfl, rfl⟩

theorem HeaderLength.synccorr (ph : F32) : HeaderLength.Statement (.synccorr ph) :=
  fun _ => ⟨_, _, rfl, rfl, rfl⟩

theorem HeaderLength.ddlpush (d : Dibit) : HeaderLength.Statement (.ddlpush d) := fun _ => ⟨_, _, rfl, rfl, rfl⟩

theorem HeaderLength.ddlsync : HeaderLength.Statement .ddlsync := fun _ => ⟨_, _, rfl, rfl, rfl⟩

end Sys2Proof.Laws
end

