-- ==== Sys2Proof/Laws/Rates.lean ====
section
/-! SUPPORT. What the rates that `CHECK` accepts give the timing loop (44_facade_commands.md rule R172; 10_state.md rules
R27, R28): bounds on `NOMINAL_SPS`, `OBS_LO`, `OBS_HI`, for the hardware's record. -/

namespace Sys2Proof.Machine

theorem f32IsFinite_iff_key (x : F32) : f32IsFinite x = true ↔ (f32Key x).natAbs < 2139095040 := by
  rw [f32IsFinite_iff, f32Key_natAbs]

theorem unitsPerOne_pos_int : (0 : Int) < unitsPerOne := by exact_mod_cast unitsPerOne_pos

theorem f32Val_of_sign {x : F32} {m : Nat} (hs : f32Sign x = false) (hm : f32Mag x = m) : f32Val x = m := by
  unfold f32Val; rw [hs, hm]; rfl

theorem f32Val_of_mag {x : F32} {a b : Nat} (hs : f32Sign x = false) (h : f32Mag x * a = b * unitsPerOne) :
    f32Val x * (a : Int) = (b : Int) * unitsPerOne := by
  rw [f32Val_of_sign hs rfl]; exact_mod_cast h

/-! What the literals stand for. -/

theorem f32Val_zeroF : f32Val zeroF = 0 := by
  have h := f32Val_of_mag (x := zeroF) (a := 1) (b := 0) (by decide +kernel) (by decide +kernel)
  rw [Nat.cast_one, mul_one] at h
  rw [h]; norm_num

theorem f32Val_oneF : f32Val oneF = unitsPerOne := by
  have h := f32Val_of_mag (x := oneF) (a := 1) (b := 1) (by decide +kernel) (by decide +kernel)
  rw [Nat.cast_one, mul_one, one_mul] at h
  exact h

theorem f32Val_twoF : f32Val twoF = 2 * unitsPerOne := by
  have h := f32Val_of_mag (x := twoF) (a := 1) (b := 2) (by decide +kernel) (by decide +kernel)
  rw [Nat.cast_one, mul_one] at h
  rw [h]; norm_num

theorem f32Val_fourF : f32Val fourF = 4 * unitsPerOne := by
  have h := f32Val_of_mag (x := fourF) (a := 1) (b := 4) (by decide +kernel) (by decide +kernel)
  rw [Nat.cast_one, mul_one] at h
  rw [h]; norm_num

theorem f32Val_fiveF : f32Val fiveF = 5 * unitsPerOne := by
  have h := f32Val_of_mag (x := fiveF) (a := 1) (b := 5) (by decide +kernel) (by decide +kernel)
  rw [Nat.cast_one, mul_one] at h
  rw [h]; norm_num

theorem f32IsFinite_literals : f32IsFinite zeroF = true ∧ f32IsFinite oneF = true ∧ f32IsFinite twoF = true ∧
    f32IsFinite fourF = true ∧ f32IsFinite fiveF = true := by decide +kernel

theorem roundKey_natAbs (v : Int) (d : Nat) : (roundKey v d).natAbs = f32RoundBody v.natAbs d := by
  unfold roundKey
  generalize f32RoundBody v.natAbs d = k
  split
  · rw [Int.natAbs_neg, Int.natAbs_natCast]
  · rw [Int.natAbs_natCast]

/-- Growing the divisor from one unit does not enlarge a rounded magnitude. -/
theorem f32RoundBody_le_body {x : F32} (hx : f32IsFinite x = true) {n d u : Nat} (hd : 0 < d) (hu : 0 < u)
    (h : n * u ≤ f32Mag x * u * d) : f32RoundBody n d ≤ f32Body x := by
  have hb := (f32IsFinite_iff x).mp hx
  have he : f32RoundBody (magBody (f32Body x) * u) u = f32Body x := f32RoundBody_magBody hu hb.le
  calc f32RoundBody n d ≤ f32RoundBody (magBody (f32Body x) * u) u :=
        f32RoundBody_mono hd hu (by rw [← f32Mag_eq]; exact h)
    _ = f32Body x := he

/-- The size of a product with a factor of at most one. -/
theorem f32Mul_key_natAbs_le {x c : F32} (hx : f32IsFinite x = true) (hc : f32IsFinite c = true)
    (h : f32Mag c ≤ unitsPerOne) : (f32Key (f32Mul x c)).natAbs ≤ (f32Key x).natAbs := by
  rw [(f32Mul_key hx hc).2, f32Key_natAbs, roundKey_natAbs, Int.natAbs_mul, f32Val_natAbs, f32Val_natAbs]
  exact f32RoundBody_le_body hx unitsPerOne_pos unitsPerOne_pos
    (Nat.mul_le_mul_right _ (Nat.mul_le_mul_left _ h))

/-- The places of a positive value's product with factors below and above one. -/
theorem f32Mul_key_mono {x c y : F32} (hx : f32IsFinite x = true) (hc : f32IsFinite c = true) (hy : f32IsFinite y = true)
    (h : f32Val x * f32Val c ≤ f32Val y * unitsPerOne) : f32Key (f32Mul x c) ≤ f32Key y := by
  rw [(f32Mul_key hx hc).2, ← roundKey_val hy unitsPerOne_pos]
  exact roundKey_mono unitsPerOne_pos unitsPerOne_pos (mul_le_mul_of_nonneg_right h unitsPerOne_pos_int.le)

theorem le_f32Mul_key {x c y : F32} (hx : f32IsFinite x = true) (hc : f32IsFinite c = true) (hy : f32IsFinite y = true)
    (h : f32Val y * unitsPerOne ≤ f32Val x * f32Val c) : f32Key y ≤ f32Key (f32Mul x c) := by
  rw [(f32Mul_key hx hc).2, ← roundKey_val hy unitsPerOne_pos]
  exact roundKey_mono unitsPerOne_pos unitsPerOne_pos (mul_le_mul_of_nonneg_right h unitsPerOne_pos_int.le)

/-- The clamp factors of R10. -/
theorem clampFactors : oneMinusCf hw = 0x3F7FDF3B#32 ∧ onePlusCf hw = 0x3F801062#32 := by decide +kernel

theorem oneMinusCf_val : f32Val 0x3F7FDF3B#32 * ((16777216 : Nat) : Int) = ((16768827 : Nat) : Int) * unitsPerOne :=
  f32Val_of_mag (by decide +kernel) (by decide +kernel)

theorem onePlusCf_val : f32Val 0x3F801062#32 * ((8388608 : Nat) : Int) = ((8392802 : Nat) : Int) * unitsPerOne :=
  f32Val_of_mag (by decide +kernel) (by decide +kernel)

theorem oneMinusCf_mag : f32Mag 0x3F7FDF3B#32 ≤ unitsPerOne := by decide +kernel

theorem clampFactors_finite : f32IsFinite 0x3F7FDF3B#32 = true ∧ f32IsFinite 0x3F801062#32 = true := by decide +kernel

/-- `NOMINAL_SPS` of a positive symbol rate and a finite sample rate is finite. -/
theorem nominalOf_finite {sr : Word} {fs : F32} (hsr : 0 < sr.toInt) (hfs : f32IsFinite fs = true) :
    f32IsFinite (nominalOf hw sr fs) = true := by
  have hup : sr.toInt ≤ 2147483648 := by
    have := BitVec.toInt_lt (x := sr); norm_num at this; omega
  have k1 := f32OfInt_mono (i := 1) (j := sr.toInt) (by omega)
  have k2 := f32OfInt_mono hup
  have e1 : f32Key (f32OfInt 1) = 0x3F800000 := by decide +kernel
  have e2 : f32Key (f32OfInt 2147483648) = 0x4F000000 := by decide +kernel
  have hyf : f32IsFinite (f32OfInt sr.toInt) = true := by rw [f32IsFinite_iff_key]; omega
  have hv : (unitsPerOne : Int) ≤ f32Val (f32OfInt sr.toInt) := by
    rw [← f32Val_oneF, f32Val_le_iff]
    have : f32Key oneF = 0x3F800000 := by decide +kernel
    omega
  have hm : unitsPerOne ≤ f32Mag (f32OfInt sr.toInt) := by
    rw [← f32Val_natAbs]; omega
  have hz : f32IsZero (f32OfInt sr.toInt) = false := by
    rw [Bool.eq_false_iff]; intro c
    rw [f32IsZero_iff, ← f32Key_natAbs] at c
    omega
  have hd := f32Div_key hfs hyf hz
  show f32IsFinite (f32Div fs (f32OfInt sr.toInt)) = true
  have hb := (f32IsFinite_iff fs).mp hfs
  rw [f32IsFinite_iff_key, hd.2, roundKey_natAbs]
  refine lt_of_le_of_lt ?_ hb
  have hna : ∀ (c : Bool) (k : Nat), (if c = true then -(k : Int) else (k : Int)).natAbs = k := by
    intro c k; cases c <;> simp
  rw [hna]
  refine f32RoundBody_le_body hfs (lt_of_lt_of_le unitsPerOne_pos hm) unitsPerOne_pos ?_
  exact Nat.mul_le_mul_left _ hm

theorem magBody_shape {e m : Nat} (hm : m < 8388608) :
    magBody ((e + 1) * 8388608 + m) = (m + 8388608) * 2 ^ e := by
  unfold magBody
  rw [show ((e + 1) * 8388608 + m) / 8388608 = e + 1 by omega, show ((e + 1) * 8388608 + m) % 8388608 = m by omega,
    if_neg (by omega), Nat.add_sub_cancel]

theorem sub_4096_low {m p q : Nat} (hm : m < 4096) (hq : q ≤ p) :
    (m + 8384512 + 8388608) * p + 2 * (2048 * q) ≤ (m + 8388608) * (p * 2) ∧
      (m + 8388608) * (p * 2) * 16768827 ≤ (m + 8384512 + 8388608) * p * 16777216 := by
  constructor
  · nlinarith
  · have h3 : (m + 8388608) * 2 * 16768827 ≤ (m + 8384512 + 8388608) * 16777216 := by linarith
    have := Nat.mul_le_mul_right p h3
    linarith

theorem sub_4096_high {j p q : Nat} (hq : q ≤ p) :
    (j + 8388608) * (p * 2) + 2 * (2048 * q) ≤ (j + 4096 + 8388608) * (p * 2) ∧
      (j + 4096 + 8388608) * (p * 2) * 16768827 ≤ (j + 8388608) * (p * 2) * 16777216 := by
  constructor
  · nlinarith
  · have h3 : (j + 4096 + 8388608) * 16768827 ≤ (j + 8388608) * 16777216 := by linarith
    have := Nat.mul_le_mul_right (p * 2) h3
    linarith

theorem unitsPerOne_split : unitsPerOne = 2048 * 2 ^ 138 := by decide +kernel

/-- Of a pattern of 8192 or more, the pattern 4096 places below it is smaller by 2 or more, and is not below the
product with the lower clamp factor. -/
theorem magBody_add_4096 {b : Nat} (hb : 140 * 8388608 ≤ b + 4096) :
    magBody b + 2 * unitsPerOne ≤ magBody (b + 4096) ∧ magBody (b + 4096) * 16768827 ≤ magBody b * 16777216 := by
  have hq (k : Nat) : (2 : Nat) ^ 138 ≤ 2 ^ (k + 138) := Nat.pow_le_pow_right (by norm_num) (by omega)
  have split_low : ∀ k m : Nat, (k + 139) * 8388608 + (m + 8384512) + 4096 = (k + 139 + 1) * 8388608 + m := by
    intro k m; omega
  have split_high : ∀ k j : Nat, (k + 139 + 1) * 8388608 + j + 4096 = (k + 139 + 1) * 8388608 + (j + 4096) := by
    intro k j; omega
  rcases Nat.lt_or_ge (b % 8388608) 8384512 with hlt | hge
  · obtain ⟨k, j, hj, rfl⟩ : ∃ k j, j < 8384512 ∧ b = (k + 139 + 1) * 8388608 + j :=
      ⟨b / 8388608 - 140, b % 8388608, hlt, by omega⟩
    have h1 := magBody_shape (e := k + 139) (m := j) (by omega)
    have h2 := magBody_shape (e := k + 139) (m := j + 4096) (by omega)
    rw [split_high, h1, h2, unitsPerOne_split, Nat.pow_succ 2 (k + 138)]
    exact sub_4096_high (hq k)
  · obtain ⟨k, m, hm, rfl⟩ : ∃ k m, m < 4096 ∧ b = (k + 139) * 8388608 + (m + 8384512) :=
      ⟨b / 8388608 - 139, b % 8388608 - 8384512, by omega, by omega⟩
    have h1 := magBody_shape (e := k + 138) (m := m + 8384512) (by omega)
    have h2 := magBody_shape (e := k + 139) (m := m) (by omega)
    have h1' : magBody ((k + 139) * 8388608 + (m + 8384512)) = (m + 8384512 + 8388608) * 2 ^ (k + 138) := h1
    rw [split_low, h1', h2, unitsPerOne_split, Nat.pow_succ 2 (k + 138)]
    exact sub_4096_low hm (hq k)

/-! `CHECK`. -/

/-- The integer part of a value. -/
def intPart (x : F32) : Int := f32Val x / (unitsPerOne : Int)

theorem intPart_le (x : F32) : intPart x * unitsPerOne ≤ f32Val x := Int.ediv_mul_le _ (ne_of_gt unitsPerOne_pos_int)

theorem lt_intPart (x : F32) : f32Val x < (intPart x + 1) * unitsPerOne := by
  have := Int.lt_ediv_add_one_mul_self (f32Val x) unitsPerOne_pos_int
  exact this

theorem intPart_mono {x y : F32} (h : f32Key x ≤ f32Key y) : intPart x ≤ intPart y :=
  Int.ediv_le_ediv unitsPerOne_pos_int ((f32Val_le_iff x y).mpr h)

theorem le_intPart {x : F32} {i : Int} : i ≤ intPart x ↔ i * unitsPerOne ≤ f32Val x :=
  Int.le_ediv_iff_mul_le unitsPerOne_pos_int

/-- The bounds of R27 for a nominal value that `CHECK` accepts. -/
structure RateBounds (nom : F32) : Prop where
  nomFinite : f32IsFinite nom = true
  loFinite : f32IsFinite (obsLoOf hw nom) = true
  hiFinite : f32IsFinite (obsHiOf hw nom) = true
  lo_le : f32Key (obsLoOf hw nom) ≤ f32Key nom
  le_hi : f32Key nom ≤ f32Key (obsHiOf hw nom)
  four : 4 ≤ intPart (obsLoOf hw nom)
  adjacent : intPart (obsHiOf hw nom) ≤ intPart (obsLoOf hw nom) + 1
  room : intPart (obsHiOf hw nom) + 5 ≤ (hw.bufCap : Int)

theorem f32Floor_intPart {x : F32} (hx : f32IsFinite x = true) :
    f32IsFinite (f32Floor x) = true ∧ f32Val (f32Floor x) = intPart x * unitsPerOne := f32Floor_val hx

/-- Of a nominal value of 8192 or more the clamp bounds are 2 or more apart. -/
theorem bounds_apart {nom : F32} (hn : f32IsFinite nom = true) (hb : 8192 ≤ intPart nom)
    (hle : f32Key nom ≤ f32Key (obsHiOf hw nom)) :
    intPart (obsLoOf hw nom) + 2 ≤ intPart (obsHiOf hw nom) := by
  have hkey : f32Key (0x46000000#32 : F32) = 0x46000000 := by decide +kernel
  have hval : f32Val 0x46000000#32 * ((1 : Nat) : Int) = ((8192 : Nat) : Int) * unitsPerOne :=
    f32Val_of_mag (by decide +kernel) (by decide +kernel)
  have h8192 : f32Val 0x46000000#32 ≤ f32Val nom := by
    have := le_intPart.mp hb
    rw [Nat.cast_one, mul_one] at hval
    rw [hval]; exact_mod_cast this
  rw [f32Val_le_iff, hkey] at h8192
  have hs : f32Sign nom = false := by
    rw [Bool.eq_false_iff]; intro c
    unfold f32Key at h8192; rw [c] at h8192; simp at h8192; omega
  have hbody : 0x46000000 ≤ f32Body nom := by
    unfold f32Key at h8192; rw [hs] at h8192; simpa using h8192
  have hfin := (f32IsFinite_iff nom).mp hn
  obtain ⟨b, hbb⟩ : ∃ b, f32Body nom = b + 4096 := ⟨f32Body nom - 4096, by omega⟩
  obtain ⟨m1, m2⟩ := magBody_add_4096 (b := b) (by omega)
  have hz : f32IsFinite (f32Pack false b) = true := by
    rw [f32IsFinite_iff, f32Body_pack (by omega)]; omega
  have hzv : f32Val (f32Pack false b) = magBody b := by
    rw [f32Val_eq, f32Sign_pack (by omega), f32Body_pack (by omega)]; rfl
  have hnv : f32Val nom = magBody (b + 4096) := by
    rw [f32Val_eq, hs, hbb]; rfl
  have hlo : f32Key (obsLoOf hw nom) ≤ f32Key (f32Pack false b) := by
    unfold obsLoOf
    rw [clampFactors.1]
    refine f32Mul_key_mono hn clampFactors_finite.1 hz ?_
    have hc := oneMinusCf_val
    have hm : (magBody (b + 4096) : Int) * 16768827 ≤ (magBody b : Int) * 16777216 := by exact_mod_cast m2
    rw [hnv, hzv]
    have hu := unitsPerOne_pos_int
    generalize f32Val 0x3F7FDF3B#32 = v at hc ⊢
    generalize (magBody (b + 4096) : Int) = A at hm ⊢
    generalize (magBody b : Int) = B at hm ⊢
    generalize (unitsPerOne : Int) = U at hc hu ⊢
    push_cast at hc
    have e1 : A * v * 16777216 = A * 16768827 * U := by rw [mul_assoc, hc]; ring
    have e2 := mul_le_mul_of_nonneg_right hm hu.le
    linarith
  have hbig : f32Val (f32Pack false b) + 2 * unitsPerOne ≤ f32Val nom := by
    rw [hzv, hnv]; exact_mod_cast m1
  have h1 := intPart_mono hlo
  have h2 := intPart_mono hle
  have h3 : intPart (f32Pack false b) + 2 ≤ intPart nom := by
    rw [le_intPart]
    have := intPart_le (f32Pack false b)
    linarith
  omega

/-- The checks that a pair of rates with code 0 has passed, but for the third. -/
theorem check_eq_zero {sr : Word} {fs : F32} (h : check hw sr fs = 0) :
    ¬ sr.toInt ≤ 0 ∧ f32IsFinite fs = true ∧
      ¬ (f32Lt (f32Floor (obsLoOf hw (nominalOf hw sr fs))) fourF ||
        f32Gt (f32Sub (f32Floor (obsHiOf hw (nominalOf hw sr fs))) (f32Floor (obsLoOf hw (nominalOf hw sr fs)))) oneF) =
          true ∧
      ¬ f32Gt (f32Add (f32Floor (obsHiOf hw (nominalOf hw sr fs))) fiveF) (f32OfInt (hw.bufCap : Int)) = true := by
  have key : ∀ (b1 : Prop) [Decidable b1] (b2 b3 b4 b4' b5 : Bool),
      (if b1 then 1 else if (!b2) = true then 2 else if b3 = true then 3 else if (b4 || b4') = true then 4
        else if b5 = true then 4 else 0) = (0 : Nat) →
      ¬ b1 ∧ b2 = true ∧ ¬ (b4 || b4') = true ∧ ¬ b5 = true := by
    intro b1 _ b2 b3 b4 b4' b5
    by_cases h1 : b1 <;> cases b2 <;> cases b3 <;> cases b4 <;> cases b4' <;> cases b5 <;> simp [h1]
  unfold check at h
  dsimp only at h
  obtain ⟨a1, a2, a3, a4⟩ := key _ _ _ _ _ _ h
  simp only [hw_num, ieee_isfinite, ieee_flt, ieee_ffloor, ieee_fgt, ieee_fsub, ieee_fadd, ieee_i2f] at a2 a3 a4
  exact ⟨a1, a2, a3, a4⟩

/-- What `CHECK` accepting a pair of rates guarantees (R172). -/
theorem rateBounds_of_check {sr : Word} {fs : F32} (h : check hw sr fs = 0) : RateBounds (nominalOf hw sr fs) := by
  obtain ⟨h1, hfs, h4, h5⟩ := check_eq_zero h
  have hnom := nominalOf_finite (not_le.mp h1) hfs
  generalize nominalOf hw sr fs = nom at *
  have hlo1 : obsLoOf hw nom = f32Mul nom 0x3F7FDF3B#32 := by unfold obsLoOf; rw [clampFactors.1]; rfl
  have hhi1 : obsHiOf hw nom = f32Mul nom 0x3F801062#32 := by unfold obsHiOf; rw [clampFactors.2]; rfl
  have hlof : f32IsFinite (obsLoOf hw nom) = true := by
    rw [f32IsFinite_iff_key, hlo1]
    refine lt_of_le_of_lt (f32Mul_key_natAbs_le hnom clampFactors_finite.1 oneMinusCf_mag) ?_
    exact (f32IsFinite_iff_key nom).mp hnom
  obtain ⟨fl1, fl2⟩ := f32Floor_intPart hlof
  simp only [Bool.or_eq_true, not_or, Bool.not_eq_true] at h4
  have hfour : 4 ≤ intPart (obsLoOf hw nom) := by
    have h6 := (f32Lt_false_iff (f32IsNaN_eq_false fl1) (f32IsNaN_eq_false f32IsFinite_literals.2.2.2.1)).mp h4.1
    rw [← f32Val_le_iff, f32Val_fourF, fl2] at h6
    exact le_of_mul_le_mul_right h6 unitsPerOne_pos_int
  have hpos : 0 ≤ f32Val nom := by
    by_contra hneg
    have hc : f32Key (obsLoOf hw nom) ≤ f32Key zeroF := by
      rw [hlo1]
      refine f32Mul_key_mono hnom clampFactors_finite.1 f32IsFinite_literals.1 ?_
      rw [f32Val_zeroF]
      have hv : 0 ≤ f32Val 0x3F7FDF3B#32 := by rw [f32Val_of_sign (by decide +kernel) rfl]; positivity
      nlinarith [not_le.mp hneg]
    have h7 := intPart_mono hc
    have : intPart zeroF = 0 := by unfold intPart; rw [f32Val_zeroF]; simp
    omega
  have hlole : f32Key (obsLoOf hw nom) ≤ f32Key nom := by
    rw [hlo1]
    refine f32Mul_key_mono hnom clampFactors_finite.1 hnom ?_
    have hc := oneMinusCf_val
    have hu := unitsPerOne_pos_int
    refine mul_le_mul_of_nonneg_left ?_ hpos
    generalize f32Val 0x3F7FDF3B#32 = v at hc ⊢
    generalize (unitsPerOne : Int) = U at hc hu ⊢
    push_cast at hc
    linarith
  have hlehi : f32Key nom ≤ f32Key (obsHiOf hw nom) := by
    rw [hhi1]
    refine le_f32Mul_key hnom clampFactors_finite.2 hnom ?_
    have hc := onePlusCf_val
    have hu := unitsPerOne_pos_int
    refine mul_le_mul_of_nonneg_left ?_ hpos
    generalize f32Val 0x3F801062#32 = v at hc ⊢
    generalize (unitsPerOne : Int) = U at hc hu ⊢
    push_cast at hc
    linarith
  have hhinan : f32IsNaN (obsHiOf hw nom) = false := by
    rw [hhi1]; exact (f32Mul_key hnom clampFactors_finite.2).1
  have hhif : f32IsFinite (obsHiOf hw nom) = true := by
    by_contra hc
    have hinf : f32IsInf (obsHiOf hw nom) = true := by
      rw [f32IsInf_iff]
      rw [f32IsFinite_iff] at hc
      have : ¬ 2139095040 < f32Body (obsHiOf hw nom) := by rw [← f32IsNaN_iff, hhinan]; simp
      omega
    have hsub : f32Sub (f32Floor (obsHiOf hw nom)) (f32Floor (obsLoOf hw nom)) = obsHiOf hw nom := by
      have hfl : f32Floor (obsHiOf hw nom) = obsHiOf hw nom := by
        unfold f32Floor; rw [if_neg (by simp [hhinan]), if_pos (by simp [hinf])]
      rw [hfl]
      unfold f32Sub f32AddNum
      rw [if_neg (by simp [hhinan, f32IsNaN_eq_false fl1, f32IsInf_eq_false fl1]), if_pos hinf]
    have h8 := h4.2
    rw [hsub] at h8
    have hone : f32IsNaN oneF = false := f32IsNaN_eq_false f32IsFinite_literals.2.1
    rw [show f32Gt (obsHiOf hw nom) oneF = f32Lt oneF (obsHiOf hw nom) from rfl, f32Lt_false_iff hone hhinan] at h8
    have hk1 : f32Key oneF = 0x3F800000 := by decide +kernel
    have hk2 : f32Key (obsHiOf hw nom) = 2139095040 ∨ f32Key (obsHiOf hw nom) = -2139095040 := by
      have := f32Key_natAbs (obsHiOf hw nom)
      rw [(f32IsInf_iff _).mp hinf] at this
      omega
    have hk3 : 0 ≤ f32Key nom := by
      have : f32Key zeroF ≤ f32Key nom := by rw [← f32Val_le_iff, f32Val_zeroF]; exact hpos
      have hk0 : f32Key zeroF = 0 := by decide +kernel
      omega
    omega
  obtain ⟨fh1, fh2⟩ := f32Floor_intPart hhif
  have hadj : intPart (obsHiOf hw nom) ≤ intPart (obsLoOf hw nom) + 1 := by
    by_contra hc
    have hs := f32Sub_key fh1 fl1
    rw [fh2, fl2] at hs
    have h8 := h4.2
    rw [show f32Gt (f32Sub (f32Floor (obsHiOf hw nom)) (f32Floor (obsLoOf hw nom))) oneF =
      f32Lt oneF (f32Sub (f32Floor (obsHiOf hw nom)) (f32Floor (obsLoOf hw nom))) from rfl,
      f32Lt_false_iff (f32IsNaN_eq_false f32IsFinite_literals.2.1) hs.1, hs.2] at h8
    have h9 : f32Key twoF ≤ roundKey (intPart (obsHiOf hw nom) * unitsPerOne -
        intPart (obsLoOf hw nom) * unitsPerOne) 1 := by
      rw [← roundKey_val f32IsFinite_literals.2.2.1 (d := 1) one_pos]
      refine roundKey_mono one_pos one_pos ?_
      rw [f32Val_twoF]
      have hu := unitsPerOne_pos_int
      have : intPart (obsLoOf hw nom) + 2 ≤ intPart (obsHiOf hw nom) := by omega
      push_cast
      nlinarith
    have hk1 : f32Key oneF = 0x3F800000 := by decide +kernel
    have hk2 : f32Key twoF = 0x40000000 := by decide +kernel
    omega
  have hsmall : intPart (obsHiOf hw nom) ≤ 8192 := by
    by_contra hc
    have hn8 : intPart nom < 8192 := by
      by_contra hge
      have := bounds_apart hnom (not_lt.mp hge) hlehi
      omega
    have h10 := intPart_mono hlole
    omega
  refine ⟨hnom, hlof, hhif, hlole, hlehi, hfour, hadj, ?_⟩
  by_contra hc
  have hs := f32Add_key fh1 f32IsFinite_literals.2.2.2.2
  rw [fh2, f32Val_fiveF] at hs
  have hk : f32Key (f32OfInt (intPart (obsHiOf hw nom) + 5)) =
      roundKey (intPart (obsHiOf hw nom) * unitsPerOne + 5 * unitsPerOne) 1 := by
    rw [(f32OfInt_key _).2, add_mul]
  have h11 : f32Gt (f32Add (f32Floor (obsHiOf hw nom)) fiveF) (f32OfInt (hw.bufCap : Int)) = false := by simpa using h5
  rw [show f32Gt (f32Add (f32Floor (obsHiOf hw nom)) fiveF) (f32OfInt (hw.bufCap : Int)) =
    f32Lt (f32OfInt (hw.bufCap : Int)) (f32Add (f32Floor (obsHiOf hw nom)) fiveF) from rfl,
    f32Lt_false_iff (f32OfInt_key _).1 hs.1, hs.2, ← hk, ← f32Val_le_iff] at h11
  have e1 := f32OfInt_val (i := intPart (obsHiOf hw nom) + 5) (b := 0) (by norm_num) (Or.inr (by omega))
  have e2 := f32OfInt_val (i := (hw.bufCap : Int)) (b := 0) (by norm_num) (Or.inr (by omega))
  rw [e1.2, e2.2] at h11
  have := le_of_mul_le_mul_right h11 unitsPerOne_pos_int
  omega

/-- The integer part of a value within the clamp bounds. -/
theorem RateBounds.intPart_mem {nom x : F32} (h : RateBounds nom) (h1 : f32Key (obsLoOf hw nom) ≤ f32Key x)
    (h2 : f32Key x ≤ f32Key (obsHiOf hw nom)) : 4 ≤ intPart x ∧ intPart (obsLoOf hw nom) ≤ intPart x ∧
      intPart x ≤ intPart (obsHiOf hw nom) :=
  ⟨le_trans h.four (intPart_mono h1), intPart_mono h1, intPart_mono h2⟩

end Sys2Proof.Machine
end

