-- ==== Sys2Proof/Laws/Timing.lean ====
section
/-! SUPPORT. The interpolator and the timing loop in binary32 (40_interpolator.md rule R111; 42_symbol_processor.md rules
R133, R136; 44_facade_commands.md rule R166). -/

namespace Sys2Proof.Machine

/-! The tap row. -/

theorem zeroF_key : f32Key zeroF = 0 := by decide +kernel

theorem oneF_key : f32Key oneF = 1065353216 := by decide +kernel

/-- A fraction that `INTERP` takes is finite and stands in `[0, 1)`. -/
theorem interpFraction_val {mu : F32} (h : interpFractionOk hw mu = true) :
    f32IsFinite mu = true ∧ 0 ≤ f32Val mu ∧ f32Val mu < unitsPerOne := by
  simp only [interpFractionOk, hw_num, ieee_fle, ieee_flt, Bool.and_eq_true] at h
  obtain ⟨_, hn, h1⟩ := f32Le_true h.1
  obtain ⟨_, _, h2⟩ := f32Lt_true h.2
  have hf := f32IsFinite_of_between f32IsFinite_literals.1 f32IsFinite_literals.2.1 h1 h2.le
  refine ⟨hf, ?_, ?_⟩
  · rw [← f32Val_le_iff, f32Val_zeroF] at h1; exact h1
  · rw [← f32Val_lt_iff, f32Val_oneF] at h2; exact h2

theorem rowsF_val : f32Val rowsF = 128 * unitsPerOne := by
  have h := f32Val_of_mag (x := rowsF) (a := 1) (b := 128) (by decide +kernel) (by decide +kernel)
  rw [Nat.cast_one, mul_one] at h
  rw [h]; norm_num

theorem rowsF_finite : f32IsFinite rowsF = true := by decide +kernel

/-- Of a value below 1, the product with 128 is exact. -/
theorem mul_rows_val {mu : F32} (hf : f32IsFinite mu = true) (h0 : 0 ≤ f32Val mu) (h1 : f32Val mu < unitsPerOne) :
    f32IsFinite (f32Mul mu rowsF) = true ∧ f32Val (f32Mul mu rowsF) = f32Val mu * 128 := by
  have hk := (f32Mul_key hf rowsF_finite)
  rw [rowsF_val] at hk
  have hb := (f32IsFinite_iff mu).mp hf
  have habs : f32Val mu = f32Mag mu := by rw [← f32Val_natAbs]; omega
  have hshift : ∀ b : Nat, 2 ^ roundShift (magBody b * 128) ∣ magBody b * 128 := by
    intro b
    unfold magBody
    split_ifs with h
    · have := two_pow_roundShift_dvd (m := b) (e := 7) (by omega)
      exact this
    · have := two_pow_roundShift_dvd (m := b % 8388608 + 8388608) (e := b / 8388608 - 1 + 7) (by omega)
      rw [pow_add, ← mul_assoc] at this
      exact this
  have hlt : f32Mag mu * 128 < magBody 2139095040 := by
    rw [magBody_inf_eq]
    have : f32Mag mu < unitsPerOne := by omega
    have hp : 128 ≤ 2 ^ 128 := by norm_num
    calc f32Mag mu * 128 < unitsPerOne * 128 := by omega
      _ ≤ 2 ^ 128 * unitsPerOne := by rw [mul_comm]; exact Nat.mul_le_mul_right _ hp
  have hr := f32Round_val (neg := false) (v := f32Mag mu * 128) (by rw [f32Mag_eq]; exact hshift _) hlt
  have hkey : f32Key (f32Mul mu rowsF) = f32Key (f32Round false (f32Mag mu * 128) 1) := by
    have e : f32Val mu * (128 * (unitsPerOne : Int)) = f32Val (f32Round false (f32Mag mu * 128) 1) * unitsPerOne := by
      rw [hr.2, habs]; simp; ring
    rw [hk.2, e, roundKey_val hr.1 unitsPerOne_pos]
  have hfin : f32IsFinite (f32Mul mu rowsF) = true := by
    rw [f32IsFinite_iff_key, hkey]; exact (f32IsFinite_iff_key _).mp hr.1
  refine ⟨hfin, ?_⟩
  rw [(f32Val_eq_iff _ _).mpr hkey, hr.2, habs]; simp

/-- The row that `INTERP` selects is `floor(mu * 128)`, one of the 128 (R111). -/
theorem interpRow_eq {mu : F32} (h : interpFractionOk hw mu = true) :
    ∃ r : Nat, r < 128 ∧ (r : Int) * unitsPerOne ≤ f32Val mu * 128 ∧ f32Val mu * 128 < (r + 1) * unitsPerOne ∧
      toInt hw (interpRow hw mu) = .ok (r : Int) := by
  obtain ⟨hf, h0, h1⟩ := interpFraction_val h
  obtain ⟨g1, g2⟩ := mul_rows_val hf h0 h1
  have hu := unitsPerOne_pos_int
  have ht := f32ToInt_floor g1
  rw [g2] at ht
  have hlo : 0 ≤ f32Val mu * 128 / (unitsPerOne : Int) := Int.ediv_nonneg (by omega) hu.le
  have hhi : f32Val mu * 128 / (unitsPerOne : Int) < 128 := Int.ediv_lt_of_lt_mul hu (by omega)
  refine ⟨(f32Val mu * 128 / (unitsPerOne : Int)).toNat, by omega, ?_, ?_, ?_⟩
  · rw [Int.toNat_of_nonneg hlo]; exact Int.ediv_mul_le _ (ne_of_gt hu)
  · rw [Int.toNat_of_nonneg hlo]; exact Int.lt_ediv_add_one_mul_self _ hu
  · rw [Int.toNat_of_nonneg hlo, toInt_eq_ok]; exact ht

/-- `INTERP` on eight readable cells (R110, R111). -/
theorem interpOp_of_reads {s : State} {sp : Space} {off : Nat} {mu : F32} {xs : List F32}
    (h : interpFractionOk hw mu = true) (hx : readRun (spaceRead s sp) off 8 = .ok xs) :
    ∃ r : Nat, r < 128 ∧ (r : Int) * unitsPerOne ≤ f32Val mu * 128 ∧ f32Val mu * 128 < (r + 1) * unitsPerOne ∧
      interpOp hw s sp off mu = .ok (dot hw ((List.range 8).map (fun k => Config.taps r k)) xs) := by
  obtain ⟨r, h1, h2, h3, h4⟩ := interpRow_eq h
  refine ⟨r, h1, h2, h3, ?_⟩
  have ht : readRun (tapRead hw r) 0 8 = .ok ((List.range 8).map (fun k => Config.taps r k)) :=
    readRun_of_forall (fun k hk => tapRead_eq_ok.mpr ⟨h1, by omega, by rw [Nat.zero_add]; rfl⟩)
  unfold interpOp
  rw [if_pos h, h4, ok_bind, natIndex_eq_ok.mpr rfl, ok_bind, ht, ok_bind, hx, ok_bind]

/-- `INTERP` answers only for a fraction in `[0, 1)` and eight readable cells. -/
theorem interpOp_eq_ok {s : State} {sp : Space} {off : Nat} {mu v : F32} (h : interpOp hw s sp off mu = .ok v) :
    interpFractionOk hw mu = true ∧ ∃ xs, readRun (spaceRead s sp) off 8 = .ok xs := by
  unfold interpOp at h
  split_ifs at h with hm
  obtain ⟨_, _, h⟩ := bind_eq_ok.mp h
  obtain ⟨_, _, h⟩ := bind_eq_ok.mp h
  obtain ⟨_, _, h⟩ := bind_eq_ok.mp h
  obtain ⟨xs, hx, _⟩ := bind_eq_ok.mp h
  exact ⟨hm, xs, hx⟩

theorem interpOp_ibuf {s : State} {off : Nat} {mu : F32} (h : interpFractionOk hw mu = true) (hb : off + 8 ≤ s.bufLen) :
    ∃ v, interpOp hw s .ibuf off mu = .ok v := by
  obtain ⟨xs, hx, _⟩ := readRun_exists (f := spaceRead s .ibuf) (i := off) (n := 8)
    (fun k hk => ⟨_, ibufRead_eq_ok.mpr ⟨by omega, rfl⟩⟩)
  obtain ⟨r, _, _, _, hv⟩ := interpOp_of_reads h hx
  exact ⟨_, hv⟩

theorem interpOp_qbuf {s : State} {off : Nat} {mu : F32} (h : interpFractionOk hw mu = true) (hb : off + 8 ≤ s.bufLen) :
    ∃ v, interpOp hw s .qbuf off mu = .ok v := by
  obtain ⟨xs, hx, _⟩ := readRun_exists (f := spaceRead s .qbuf) (i := off) (n := 8)
    (fun k hk => ⟨_, qbufRead_eq_ok.mpr ⟨by omega, rfl⟩⟩)
  obtain ⟨r, _, _, _, hv⟩ := interpOp_of_reads h hx
  exact ⟨_, hv⟩

theorem interpOp_dly {s : State} {off : Nat} {mu : F32} (h : interpFractionOk hw mu = true) (hb : off + 8 ≤ s.dly.length) :
    ∃ v, interpOp hw s .dly off mu = .ok v := by
  have hx : readRun (spaceRead s .dly) off 8 = .ok ((s.dly.drop off).take 8) := readRun_cellGet hb
  obtain ⟨r, _, _, _, hv⟩ := interpOp_of_reads h hx
  exact ⟨_, hv⟩

/-! `DIFF`. -/

/-- `DIFF` answers where its reads are in range (R122). -/
theorem diffOp_ok {s : State} {x off : Nat} (ho : s.ioff + x = off) (hx : x < s.bufLen) (hb : off + 8 ≤ s.bufLen)
    (h : interpFractionOk hw s.mu = true) :
    ∃ cI cQ, interpOp hw s .ibuf off s.mu = .ok cI ∧ interpOp hw s .qbuf off s.mu = .ok cQ ∧
      diffOp hw s x = .ok (phaseOp hw (cmulcOp hw (s.ibuf.get x) (s.qbuf.get x) cI cQ).2
        (cmulcOp hw (s.ibuf.get x) (s.qbuf.get x) cI cQ).1) := by
  obtain ⟨cI, hI⟩ := interpOp_ibuf h hb
  obtain ⟨cQ, hQ⟩ := interpOp_qbuf h hb
  refine ⟨cI, cQ, hI, hQ, ?_⟩
  unfold diffOp
  rw [ibufRead_eq_ok.mpr ⟨hx, rfl⟩, ok_bind, qbufRead_eq_ok.mpr ⟨hx, rfl⟩, ok_bind, natIndex_eq_ok.mpr ho, ok_bind, hI,
    ok_bind, hQ, ok_bind]

/-! The loop filter. -/

theorem clampLoop {o nom lo hi : F32} (hlo : f32IsFinite lo = true) (hhi : f32IsFinite hi = true)
    (hnom : f32IsFinite nom = true) (h1 : f32Key lo ≤ f32Key nom) (h2 : f32Key nom ≤ f32Key hi) :
    f32IsFinite (if (!f32IsFinite o) = true then nom else if f32Gt o hi = true then hi
      else if f32Lt o lo = true then lo else o) = true ∧
    f32Key lo ≤ f32Key (if (!f32IsFinite o) = true then nom else if f32Gt o hi = true then hi
      else if f32Lt o lo = true then lo else o) ∧
    f32Key (if (!f32IsFinite o) = true then nom else if f32Gt o hi = true then hi
      else if f32Lt o lo = true then lo else o) ≤ f32Key hi := by
  by_cases ho : f32IsFinite o = true
  · have hn := f32IsNaN_eq_false ho
    rw [if_neg (by simp [ho])]
    by_cases c1 : f32Gt o hi = true
    · rw [if_pos c1]; exact ⟨hhi, le_trans h1 h2, le_rfl⟩
    · rw [if_neg c1]
      by_cases c2 : f32Lt o lo = true
      · rw [if_pos c2]; exact ⟨hlo, le_rfl, le_trans h1 h2⟩
      · rw [if_neg c2]
        rw [Bool.not_eq_true] at c1 c2
        exact ⟨ho, (f32Lt_false_iff hn (f32IsNaN_eq_false hlo)).mp c2, (f32Lt_false_iff (f32IsNaN_eq_false hhi) hn).mp c1⟩
  · rw [if_pos (by simpa using ho)]
    exact ⟨hnom, h1, h2⟩

/-- In a session whose bounds are sound, the loop filter's `OBSERVED_SPS` is within them for every timing error (R136,
SRC's P7). -/
theorem loopObserved_bounded {s : State} (h : RateBounds s.nominalSps) (eps : F32) :
    f32IsFinite (loopObserved hw eps s) = true ∧ f32Key (obsLo hw s) ≤ f32Key (loopObserved hw eps s) ∧
      f32Key (loopObserved hw eps s) ≤ f32Key (obsHi hw s) := by
  have hlo : f32IsFinite (obsLo hw s) = true := h.loFinite
  have hhi : f32IsFinite (obsHi hw s) = true := h.hiFinite
  have h1 : f32Key (obsLo hw s) ≤ f32Key s.nominalSps := h.lo_le
  have h2 : f32Key s.nominalSps ≤ f32Key (obsHi hw s) := h.le_hi
  exact clampLoop hlo hhi h.nomFinite h1 h2

/-- The session gives sound bounds. -/
theorem Session.rateBounds {s : State} (h : Session hw s) : RateBounds s.nominalSps := by
  rw [h.nominal]; exact rateBounds_of_check h.checked

theorem loopBounded_iff {s : State} (h : RateBounds s.nominalSps) :
    LoopBounded hw s ↔ f32IsFinite s.observedSps = true ∧ f32Key (obsLo hw s) ≤ f32Key s.observedSps ∧
      f32Key s.observedSps ≤ f32Key (obsHi hw s) := by
  have hlo : f32IsNaN (obsLo hw s) = false := f32IsNaN_eq_false h.loFinite
  have hhi : f32IsNaN (obsHi hw s) = false := f32IsNaN_eq_false h.hiFinite
  constructor
  · rintro ⟨a, b, c⟩
    have a' : f32IsFinite s.observedSps = true := a
    exact ⟨a', (f32Le_iff hlo (f32IsNaN_eq_false a')).mp b, (f32Le_iff (f32IsNaN_eq_false a') hhi).mp c⟩
  · rintro ⟨a, b, c⟩
    exact ⟨a, (f32Le_iff hlo (f32IsNaN_eq_false a)).mpr b, (f32Le_iff (f32IsNaN_eq_false a) hhi).mpr c⟩

/-! `UPDOBS`. -/

/-- The fraction of a finite value that is not negative is exact (R166). -/
theorem fraction_val {x : F32} (hx : f32IsFinite x = true) (h0 : 0 ≤ f32Val x) :
    f32IsFinite (f32Sub x (f32Floor x)) = true ∧
      f32Val (f32Sub x (f32Floor x)) = f32Val x - intPart x * unitsPerOne := by
  obtain ⟨g1, g2⟩ := f32Floor_intPart hx
  have hk := f32Sub_key hx g1
  rw [g2] at hk
  have hu := unitsPerOne_pos_int
  have habs : f32Val x = f32Mag x := by rw [← f32Val_natAbs]; omega
  have hd : f32Val x - intPart x * unitsPerOne = ((f32Mag x % unitsPerOne : Nat) : Int) := by
    unfold intPart
    rw [habs]; push_cast
    have := Int.emod_add_mul_ediv (f32Mag x : Int) (unitsPerOne : Int)
    linarith
  have hshift : 2 ^ roundShift (f32Mag x % unitsPerOne) ∣ f32Mag x % unitsPerOne := by
    have key : ∀ m e : Nat, m < 16777216 → 2 ^ roundShift (m * 2 ^ e % 2 ^ 149) ∣ m * 2 ^ e % 2 ^ 149 := by
      intro m e hm
      rcases Nat.lt_or_ge e 149 with h | h
      · have e1 : m * 2 ^ e % 2 ^ 149 = m % 2 ^ (149 - e) * 2 ^ e := by
          rw [show (149 : Nat) = 149 - e + e by omega, pow_add, Nat.mul_mod_mul_right, Nat.add_sub_cancel]
        rw [e1]
        exact two_pow_roundShift_dvd (le_trans (Nat.mod_le _ _) hm.le)
      · have e1 : m * 2 ^ e % 2 ^ 149 = 0 := by
          rw [show e = e - 149 + 149 by omega, pow_add, ← mul_assoc]; exact Nat.mul_mod_left _ _
        rw [e1]; exact dvd_zero _
    rw [f32Mag_eq, unitsPerOne_eq]
    unfold magBody
    split_ifs with h
    · have := key (f32Body x) 0 (by omega)
      rwa [pow_zero, mul_one] at this
    · exact key (f32Body x % 8388608 + 8388608) (f32Body x / 8388608 - 1) (by omega)
  have hlt : f32Mag x % unitsPerOne < magBody 2139095040 := by
    rw [magBody_inf_eq]
    calc f32Mag x % unitsPerOne < unitsPerOne := Nat.mod_lt _ unitsPerOne_pos
      _ ≤ 2 ^ 128 * unitsPerOne := Nat.le_mul_of_pos_left _ (by positivity)
  have hr := f32Round_val (neg := false) hshift hlt
  have hkey : f32Key (f32Sub x (f32Floor x)) = f32Key (f32Round false (f32Mag x % unitsPerOne) 1) := by
    rw [hk.2, hd, ← roundKey_val hr.1 (d := 1) one_pos, hr.2]; simp
  refine ⟨by rw [f32IsFinite_iff_key, hkey]; exact (f32IsFinite_iff_key _).mp hr.1, ?_⟩
  rw [(f32Val_eq_iff _ _).mpr hkey, hr.2, hd]; simp

/-- The fraction that `UPDOBS` stores is one that `INTERP` takes (R166, R114). -/
theorem fraction_ok {x : F32} (hx : f32IsFinite x = true) (h0 : 0 ≤ f32Val x) :
    interpFractionOk hw (f32Sub x (f32Floor x)) = true := by
  obtain ⟨h1, h2⟩ := fraction_val hx h0
  have hn := f32IsNaN_eq_false h1
  have a := intPart_le x
  have b := lt_intPart x
  unfold interpFractionOk
  rw [Bool.and_eq_true]
  constructor
  · refine (f32Le_iff (f32IsNaN_eq_false f32IsFinite_literals.1) hn).mpr ?_
    rw [← f32Val_le_iff, f32Val_zeroF, h2]; linarith
  · refine (f32Lt_iff hn (f32IsNaN_eq_false f32IsFinite_literals.2.1)).mpr ?_
    rw [← f32Val_lt_iff, f32Val_oneF, h2]; linarith

/-- `UPDOBS` of a finite value (R166): only `OVERLAP` below -4 is a free value. -/
theorem updObsOp_of_finite {x : F32} (hx : f32IsFinite x = true) (s : State) :
    updObsOp hw x s = .ok { s with
      mu := f32Sub x (f32Floor x), ioff := intPart x - 4, overlap := overlapOf x (intPart x) } :=
  updObsOp_eq_ok.mpr ⟨intPart x, f32ToInt_floor hx, rfl⟩

/-- `UPDOBS` of a finite value of 4 or more (R166). -/
theorem updObsOp_of_four {x : F32} (hx : f32IsFinite x = true) (h4 : 4 ≤ intPart x) (s : State) :
    updObsOp hw x s = .ok { s with
      mu := f32Sub x (f32Floor x), ioff := intPart x - 4, overlap := (intPart x + 4).toNat } := by
  rw [updObsOp_of_finite hx, overlapOf_of_nonneg (by omega)]

/-! The countdown. -/

/-- Above 1, one less is not negative: a countdown that falls below 1 is a fraction that `INTERP` takes (R133). -/
theorem countdown_ok {x : F32} (h : f32Lt x oneF = false) (h' : f32Lt (f32Sub x oneF) oneF = true) :
    interpFractionOk hw (f32Sub x oneF) = true := by
  have h1 := f32IsFinite_literals.2.1
  have h1n := f32IsNaN_eq_false h1
  obtain ⟨hn, _, _⟩ := f32Lt_true h'
  unfold interpFractionOk
  rw [Bool.and_eq_true]
  refine ⟨?_, h'⟩
  refine (f32Le_iff (f32IsNaN_eq_false f32IsFinite_literals.1) hn).mpr ?_
  have hxn : f32IsNaN x = false := by
    by_contra c
    rw [Bool.not_eq_false] at c
    rw [show f32Sub x oneF = f32NaN .sub x oneF by unfold f32Sub; rw [c]; rfl] at hn
    simp at hn
  rw [f32Lt_false_iff hxn h1n] at h
  by_cases hf : f32IsFinite x = true
  · obtain ⟨_, hk⟩ := f32Sub_key hf h1
    rw [hk, zeroF_key]
    have : roundKey 0 1 ≤ roundKey (f32Val x - f32Val oneF) 1 := by
      refine roundKey_mono one_pos one_pos ?_
      rw [← f32Val_le_iff] at h
      push_cast; linarith
    rwa [show roundKey 0 1 = 0 by decide +kernel] at this
  · have hi : f32IsInf x = true := by
      rw [f32IsInf_iff]
      rw [f32IsFinite_iff] at hf
      have : ¬ 2139095040 < f32Body x := by rw [← f32IsNaN_iff, hxn]; simp
      omega
    have he : f32Sub x oneF = x := by
      unfold f32Sub f32AddNum
      rw [if_neg (by simp [hxn, h1n, f32IsInf_eq_false h1]), if_pos hi]
    rw [he, zeroF_key]
    rw [oneF_key] at h
    omega

/-! NaN operands. -/

theorem f32Add_nan_right {x y : F32} (h : f32IsNaN y = true) : f32IsNaN (f32Add x y) = true := by
  unfold f32Add; rw [if_pos (by simp [h])]; exact f32IsNaN_nan _ _ _

theorem f32Mul_nan_left {x y : F32} (h : f32IsNaN x = true) : f32IsNaN (f32Mul x y) = true := by
  unfold f32Mul; rw [if_pos (by simp [h])]; exact f32IsNaN_nan _ _ _

theorem f32Sub_nan_left {x y : F32} (h : f32IsNaN x = true) : f32IsNaN (f32Sub x y) = true := by
  unfold f32Sub; rw [if_pos (by simp [h])]; exact f32IsNaN_nan _ _ _

theorem f32Lt_of_nan_left {x y : F32} (h : f32IsNaN x = true) : f32Lt x y = false := by simp [f32Lt, h]

/-! The timing error and the re-arming. -/

theorem eighthPi_key : f32Key eighthPiF = 1053364187 := by decide +kernel

/-- The timing error is a NaN or at most `EIGHTH_PI` in magnitude (R191). -/
theorem terrOp_bounded (d : Dibit) (prec cur foll : F32) :
    f32IsNaN (terrOp hw d prec cur foll) = true ∨ (f32Key (terrOp hw d prec cur foll)).natAbs ≤ 1053364187 := by
  have hclamp : ∀ v, f32IsNaN (clampSym hw eighthPiF v) = true ∨
      (f32Key (clampSym hw eighthPiF v)).natAbs ≤ 1053364187 := by
    intro v
    have hb : f32IsNaN eighthPiF = false := by decide +kernel
    have hk := eighthPi_key
    have hkn := f32Key_neg eighthPiF
    show f32IsNaN (if f32Gt v eighthPiF = true then eighthPiF
      else if f32Lt v (f32Neg eighthPiF) = true then f32Neg eighthPiF else v) = true ∨
      (f32Key (if f32Gt v eighthPiF = true then eighthPiF
      else if f32Lt v (f32Neg eighthPiF) = true then f32Neg eighthPiF else v)).natAbs ≤ 1053364187
    by_cases c1 : f32Gt v eighthPiF = true
    · rw [if_pos c1]; right; omega
    · rw [if_neg c1]
      by_cases c2 : f32Lt v (f32Neg eighthPiF) = true
      · rw [if_pos c2]; right; omega
      · rw [if_neg c2]
        by_cases hn : f32IsNaN v = true
        · exact Or.inl hn
        · rw [Bool.not_eq_true] at c1 c2 hn
          have h1 := (f32Lt_false_iff hb hn).mp c1
          have h2 := (f32Lt_false_iff hn (by rw [f32IsNaN_neg]; exact hb)).mp c2
          right; omega
  unfold terrOp
  have h := hclamp (f32Sub (ideal d) cur)
  show f32IsNaN (if f32Lt prec foll = true then clampSym hw eighthPiF (f32Sub (ideal d) cur)
      else f32Neg (clampSym hw eighthPiF (f32Sub (ideal d) cur))) = true ∨
    (f32Key (if f32Lt prec foll = true then clampSym hw eighthPiF (f32Sub (ideal d) cur)
      else f32Neg (clampSym hw eighthPiF (f32Sub (ideal d) cur)))).natAbs ≤ 1053364187
  by_cases c : f32Lt prec foll = true
  · rw [if_pos c]; exact h
  · rw [if_neg c, f32IsNaN_neg, f32Key_neg, Int.natAbs_neg]; exact h

/-- Of an `OBSERVED_SPS` of 4 or more and a timing error in its range, the re-armed countdown is at least 1, or a NaN
(R133, R136). -/
theorem rearm_armed {sp o eps : F32} (hsp : interpFractionOk hw sp = true) (ho : f32IsFinite o = true) (h4 : 4 ≤ intPart o)
    (he : f32IsNaN eps = true ∨ (f32Key eps).natAbs ≤ 1053364187) :
    f32Lt (f32Add sp (f32Add o (f32Mul eps scGainF))) oneF = false := by
  rcases he with he | he
  · exact f32Lt_of_nan_left (f32Add_nan_right (f32Add_nan_right (f32Mul_nan_left he)))
  · obtain ⟨hspf, hsp0, _⟩ := interpFraction_val hsp
    have hef : f32IsFinite eps = true := by rw [f32IsFinite_iff_key]; omega
    have hsc : f32IsFinite scGainF = true := by decide +kernel
    have hp := f32Mul_key_natAbs_le hef hsc (by decide +kernel)
    have hpn := (f32Mul_key hef hsc).1
    generalize f32Mul eps scGainF = p at hp hpn ⊢
    have hpf : f32IsFinite p = true := by rw [f32IsFinite_iff_key]; omega
    have hu := unitsPerOne_pos_int
    have hpv : -unitsPerOne ≤ f32Val p := by
      have : f32Val (f32Neg oneF) ≤ f32Val p := by
        rw [f32Val_le_iff, f32Key_neg, oneF_key]; omega
      rwa [f32Val_neg, f32Val_oneF] at this
    have hov := le_intPart.mp h4
    have h1 := f32IsFinite_literals.2.1
    obtain ⟨hwn, hwk⟩ := f32Add_key ho hpf
    have hone : roundKey (f32Val oneF) 1 = f32Key oneF := by
      have := roundKey_val h1 (d := 1) one_pos
      rwa [Nat.cast_one, mul_one] at this
    have hw1 : f32Key oneF ≤ f32Key (f32Add o p) := by
      rw [hwk, ← hone]
      refine roundKey_mono one_pos one_pos ?_
      rw [f32Val_oneF]; push_cast; linarith
    generalize f32Add o p = w at hwn hw1 ⊢
    by_cases hwf : f32IsFinite w = true
    · obtain ⟨hzn, hzk⟩ := f32Add_key hspf hwf
      rw [f32Lt_false_iff hzn (f32IsNaN_eq_false h1), hzk, ← hone]
      refine roundKey_mono one_pos one_pos ?_
      rw [← f32Val_le_iff] at hw1
      push_cast; linarith
    · have hi : f32IsInf w = true := by
        rw [f32IsInf_iff]
        rw [f32IsFinite_iff] at hwf
        have : ¬ 2139095040 < f32Body w := by rw [← f32IsNaN_iff, hwn]; simp
        omega
      have hz : f32Add sp w = w := by
        unfold f32Add f32AddNum
        rw [if_neg (by simp [hwn, f32IsNaN_eq_false hspf, f32IsInf_eq_false hspf]),
          if_neg (by simp [f32IsInf_eq_false hspf]), if_pos hi]
      rw [hz, f32Lt_false_iff hwn (f32IsNaN_eq_false h1)]
      exact hw1

end Sys2Proof.Machine
end

