-- ==== Sys2Proof/Laws/Samples.lean ====
section
/-! SUPPORT. One sample and one block of a batch, in a sound session: they run to an end, and what they leave
(42_symbol_processor.md rules R131, R133, R134; 44_facade_commands.md rules R167, R170). -/

namespace Sys2Proof.Machine

theorem setSeq_shape {c : Cfg} {s : State} (q : SeqState) (h : Shape c s) : Shape c (setSeq q s) :=
  ⟨h.dly, h.dlyPtr, h.eqZ, h.eqA, h.eqQ, h.eqP, h.sdS, h.sdI, h.ddl, h.ddlPtr⟩

/-- `SYMBOL` runs to its end where the countdown is a fraction (R134). -/
theorem symbolOp_of_shape {s : State} (hf : Files hw s) (hm : interpFractionOk hw s.samplePoint = true) :
    ∃ t, symbolOp hw s = .ok t := by
  have hs := hf.shape
  have hd := hs.dly
  have hp := hs.dlyPtr
  obtain ⟨phi, h1⟩ := interpOp_dly (s := setSeq .decide s) (off := s.dlyPtr) hm (by show _ ≤ s.dly.length; omega)
  obtain ⟨p, h1⟩ : ∃ p, symbolDecide hw (setSeq .decide s) = .ok p :=
    ⟨(phi, decideOp hw phi, if s.noisy then zeroF else terrOp hw (decideOp hw phi) (s.dly[s.dlyPtr + 3]) phi
      (s.dly[s.dlyPtr + 4])), symbolDecide_eq_ok.mpr ⟨s.dly[s.dlyPtr + 3], s.dly[s.dlyPtr + 4], h1,
      List.getElem?_eq_getElem _, List.getElem?_eq_getElem _, rfl, rfl⟩⟩
  have g1 : Files hw (setSeq .equalize (loopUpdOp hw p.2.2 (setSeq .updateLoop s))) :=
    hf.congr rfl rfl rfl rfl rfl rfl rfl rfl rfl rfl
  obtain ⟨e, h2⟩ := symbolEqualize_of_shape g1.shape p.1 p.2.1
  have g2 : Files hw (setSeq .correlate e.1) :=
    (symbolEqualize_files h2 g1).congr rfl rfl rfl rfl rfl rfl rfl rfl rfl rfl
  obtain ⟨r, h3⟩ := g2.shape.syncCorrOp_ok e.2.2
  have h4 : symbolCorrelate hw e.2.1 e.2.2 (setSeq .correlate e.1) = .ok (shiftSsr e.2.1 r.1, r.2) := by
    unfold symbolCorrelate; rw [h3, ok_bind]
  have g3 : Files hw (setSeq .emit (shiftSsr e.2.1 r.1)) :=
    (syncCorrOp_files h3 g2).congr rfl rfl rfl rfl rfl rfl rfl rfl rfl rfl
  obtain ⟨u, h5⟩ := symbolEmit_of_shape g3.shape r.2 e.2.1
  exact ⟨_, symbolOp_eq_ok.mpr ⟨p, e, _, u, h1, h2, h4, h5, rfl⟩⟩

/-- The timing error of `SYMBOL` is a NaN or within `EIGHTH_PI`. -/
theorem symbolDecide_bounded {s : State} {p : F32 × Dibit × F32} (h : symbolDecide hw s = .ok p) :
    f32IsNaN p.2.2 = true ∨ (f32Key p.2.2).natAbs ≤ 1053364187 := by
  obtain ⟨prec, foll, _, _, _, _, h5⟩ := symbolDecide_eq_ok.mp h
  rw [h5]
  by_cases hn : s.noisy = true
  · rw [if_pos hn]; right; rw [zeroF_key]; norm_num
  · rw [if_neg hn]; exact terrOp_bounded _ _ _ _

theorem symbolDecide_fraction {s : State} {p : F32 × Dibit × F32} (h : symbolDecide hw s = .ok p) :
    interpFractionOk hw s.samplePoint = true := by
  obtain ⟨prec, foll, h1, _⟩ := symbolDecide_eq_ok.mp h
  exact (interpOp_eq_ok h1).1

/-- The session of a sample: the register files, the rates' bounds and the loop within them. -/
structure Running (s : State) : Prop where
  files : Files hw s
  rates : RateBounds s.nominalSps
  loop : LoopBounded hw s

theorem Running.intPart_mem {s : State} (h : Running s) : 4 ≤ intPart s.observedSps ∧
    intPart (obsLo hw s) ≤ intPart s.observedSps ∧ intPart s.observedSps ≤ intPart (obsHi hw s) := by
  obtain ⟨_, h1, h2⟩ := (loopBounded_iff h.rates).mp h.loop
  exact h.rates.intPart_mem h1 h2

theorem Running.observed_finite {s : State} (h : Running s) : f32IsFinite s.observedSps = true :=
  ((loopBounded_iff h.rates).mp h.loop).1

theorem Running.observed_nonneg {s : State} (h : Running s) : 0 ≤ f32Val s.observedSps := by
  have := le_intPart.mp h.intPart_mem.1
  have hu := unitsPerOne_pos_int
  linarith

/-- What `SPSAMPLE` leaves of the fields that are not its own. -/
theorem spSampleOp_frame {c : Cfg} {phi : F32} {s t : State} (h : spSampleOp c phi s = .ok t) :
    (t.outq = s.outq ∨ ∃ out, t.outq = s.outq ++ [out]) ∧ (s.seq = .await → t.seq = .await) ∧
      t = { s with
        observedSps := t.observedSps, samplePoint := t.samplePoint, previousPhase := t.previousPhase, ssr := t.ssr
        noisy := t.noisy, seq := t.seq, dly := t.dly, dlyPtr := t.dlyPtr, eqZ := t.eqZ, eqA := t.eqA, eqP := t.eqP
        eqQ := t.eqQ, sdS := t.sdS, sdI := t.sdI, ddl := t.ddl, ddlPtr := t.ddlPtr, outq := t.outq } := by
  unfold spSampleOp at h
  obtain ⟨a, h1, h2⟩ := bind_eq_ok.mp h
  obtain ⟨_, ha⟩ := spInsertOp_eq_ok.mp h1
  split_ifs at h2
  · obtain ⟨_, ⟨out, ho⟩, _, hs, hf⟩ := symbolOp_frame h2
    refine ⟨Or.inr ⟨out, by rw [ho, ha]⟩, fun _ => hs, ?_⟩
    rw [hf, ha]
  · cases h2
    refine ⟨Or.inl (by rw [ha]), fun hq => by rw [ha]; exact hq, ?_⟩
    rw [ha]

/-- `SPSAMPLE` in a sound session with the countdown armed runs to its end, and leaves the same (R131, R133). -/
theorem spSampleOp_running {s : State} (hr : Running s) (ha : Armed hw s) (phi : F32) :
    ∃ t, spSampleOp hw phi s = .ok t ∧ Running t ∧ Armed hw t ∧ t.nominalSps = s.nominalSps ∧
      (f32IsNaN s.samplePoint = true → f32IsNaN t.samplePoint = true ∧ t.outq = s.outq) := by
  obtain ⟨a, h1⟩ := spInsertOp_of_shape hr.files.shape phi
  have hfa := spInsertOp_files h1 hr.files
  obtain ⟨_, hae⟩ := spInsertOp_eq_ok.mp h1
  have hnom : a.nominalSps = s.nominalSps := by rw [hae]
  have hobs : a.observedSps = s.observedSps := by rw [hae]
  have hsp : a.samplePoint = f32Sub s.samplePoint oneF := by rw [hae]; rfl
  have hrates : RateBounds a.nominalSps := by rw [hnom]; exact hr.rates
  have hlb : LoopBounded hw a := by
    rw [loopBounded_iff hrates]
    have := (loopBounded_iff hr.rates).mp hr.loop
    unfold obsLo obsHi at this ⊢
    rw [hnom, hobs]; exact this
  have harm : f32Lt s.samplePoint oneF = false := ha
  unfold spSampleOp
  rw [h1, ok_bind]
  show ∃ t, (if f32Lt a.samplePoint oneF = true then symbolOp hw a else .ok a) = .ok t ∧ _
  by_cases hc : f32Lt a.samplePoint oneF = true
  · rw [if_pos hc]
    rw [hsp] at hc
    have hm : interpFractionOk hw a.samplePoint = true := by rw [hsp]; exact countdown_ok harm hc
    obtain ⟨t, ht⟩ := symbolOp_of_shape hfa hm
    obtain ⟨⟨p, hp, ho, hs⟩, _, _, _, hfr⟩ := symbolOp_frame ht
    have hb := symbolDecide_bounded hp
    have hlo := loopObserved_bounded (s := a) hrates p.2.2
    have hnt : t.nominalSps = a.nominalSps := by rw [hfr]
    have hrt : RateBounds t.nominalSps := by rw [hnt]; exact hrates
    have hlt : LoopBounded hw t := by
      rw [loopBounded_iff hrt, ho]
      unfold obsLo obsHi at hlo ⊢
      rw [hnt]; exact hlo
    have hrun : Running t := ⟨symbolOp_files ht hfa, hrt, hlt⟩
    refine ⟨t, ht, hrun, ?_, by rw [hnt, hnom], fun hn => ?_⟩
    · show f32Lt t.samplePoint oneF = false
      rw [hs]
      have h4 := hrun.intPart_mem.1
      rw [ho] at h4
      exact rearm_armed hm hlo.1 h4 hb
    · rw [f32Lt_of_nan_left (f32Sub_nan_left hn)] at hc
      cases hc
  · rw [if_neg hc]
    refine ⟨a, rfl, ⟨hfa, hrates, hlb⟩, by simpa [Armed] using hc, hnom, fun hn => ⟨?_, by rw [hae]⟩⟩
    rw [hsp]; exact f32Sub_nan_left hn

/-- The block position of a sound session: what `UPDOBS(OBSERVED_SPS)` leaves (R166). -/
theorem Running.placed {s : State} (h : Running s) (hm : s.mu = f32Sub s.observedSps (f32Floor s.observedSps))
    (hi : s.ioff = intPart s.observedSps - 4) (ho : (s.overlap : Int) = intPart s.observedSps + 4) : Placed hw s := by
  have h4 := h.intPart_mem.1
  refine ⟨hm, ?_, by omega, by omega⟩
  show f32ToInt (f32Floor s.observedSps) = some (s.ioff + 4)
  rw [f32ToInt_floor h.observed_finite, hi]
  congr 1
  unfold intPart
  omega

/-- What `Placed` says in a sound session, in integers. -/
theorem Placed.intPart_eq {s : State} (h : Placed hw s) (hr : Running s) :
    s.ioff = intPart s.observedSps - 4 ∧ (s.overlap : Int) = intPart s.observedSps + 4 := by
  have h1 : f32ToInt (f32Floor s.observedSps) = some (s.ioff + 4) := h.ioff
  rw [f32ToInt_floor hr.observed_finite] at h1
  have h2 := Option.some.inj h1
  have h3 := h.overlap
  unfold intPart
  omega

/-- One sample of a batch of `n` in a sound session (R167 with `W = 1`): it runs to its end and leaves the session sound
and the block position that of `OBSERVED_SPS`. -/
theorem recvBlock_running {s : State} {x n m : Nat} (hr : Running s) (ha : Armed hw s) (hp : Placed hw s)
    (hl : (m : Int) = intPart (obsLo hw s) + 4) (hb : m + n ≤ s.bufLen) (hx : x < n) :
    ∃ ph t u, diffOp hw s x = .ok ph ∧ spSampleOp hw ph s = .ok t ∧ updObsOp hw t.observedSps t = .ok u ∧
      recvBlock hw x 1 s = .ok u ∧ Running u ∧ Armed hw u ∧ Placed hw u ∧ u.nominalSps = s.nominalSps ∧
      u.bufLen = s.bufLen ∧ (f32IsNaN s.samplePoint = true → f32IsNaN u.samplePoint = true ∧ u.outq = s.outq) := by
  obtain ⟨hi, _⟩ := hp.intPart_eq hr
  obtain ⟨i4, i1, i2⟩ := hr.intPart_mem
  have hadj : intPart (obsHi hw s) ≤ intPart (obsLo hw s) + 1 := hr.rates.adjacent
  have hmu : interpFractionOk hw s.mu = true := by
    rw [hp.mu]; exact fraction_ok hr.observed_finite hr.observed_nonneg
  obtain ⟨cI, cQ, _, _, hd⟩ := diffOp_ok (s := s) (x := x) (off := (s.ioff + x).toNat) (by omega) (by omega) (by omega) hmu
  obtain ⟨t, ht, hrt, hat, hnt, hnan⟩ := spSampleOp_running hr ha
    (phaseOp hw (cmulcOp hw (s.ibuf.get x) (s.qbuf.get x) cI cQ).2 (cmulcOp hw (s.ibuf.get x) (s.qbuf.get x) cI cQ).1)
  have hu := updObsOp_of_four hrt.observed_finite hrt.intPart_mem.1 t
  obtain ⟨_, _, hfr⟩ := spSampleOp_frame ht
  have hbl : t.bufLen = s.bufLen := by rw [hfr]
  refine ⟨_, t, _, hd, ht, hu, ?_, ?_, hat, ?_, hnt, hbl, hnan⟩
  · unfold recvBlock
    simp only [readRun]
    rw [hd, ok_bind, ok_bind, ok_bind]
    simp only [spSampleAll]
    rw [ht, ok_bind, ok_bind]
    exact hu
  · exact ⟨hrt.files.congr rfl rfl rfl rfl rfl rfl rfl rfl rfl rfl, hrt.rates, ⟨hrt.loop.1, hrt.loop.2, hrt.loop.3⟩⟩
  · have h4 := hrt.intPart_mem.1
    refine Running.placed ⟨hrt.files.congr rfl rfl rfl rfl rfl rfl rfl rfl rfl rfl, hrt.rates, ⟨hrt.loop.1, hrt.loop.2, hrt.loop.3⟩⟩ rfl rfl ?_
    show (((intPart t.observedSps + 4).toNat : Nat) : Int) = intPart t.observedSps + 4
    omega

/-! The placing of a batch. -/

/-- The contents of a rail after step 1 (R167): the tail's values, then the batch's. -/
theorem recvRail_ok {st : Store} {rd : Nat → Res F32} {get : Nat → F32} {bufLen ov : Nat} {rail : List F32}
    (hrd : ∀ i, i < bufLen → rd i = .ok (get i)) (hov : ov ≤ bufLen) :
    recvRail st rd bufLen ov rail = .ok ((List.range ov).map (fun j => get (bufLen - ov + j)) ++ rail) := by
  unfold recvRail
  rw [natIndex_eq_ok.mpr (show ((bufLen : Int) - ov) = ((bufLen - ov : Nat) : Int) by omega), ok_bind,
    readRun_of_forall (g := fun j => get (bufLen - ov + j)) (fun k hk => hrd _ (by omega)), ok_bind]

theorem recvRail_length {st : Store} {rd : Nat → Res F32} {bufLen ov : Nat} {rail vs : List F32}
    (h : recvRail st rd bufLen ov rail = .ok vs) : vs.length = ov + rail.length := by
  unfold recvRail at h
  obtain ⟨_, _, h⟩ := bind_eq_ok.mp h
  obtain ⟨tail, h1, h2⟩ := bind_eq_ok.mp h
  cases h2
  rw [List.length_append, (readRun_eq_ok.mp h1).1]

/-- A memory loaded with a tail and a rail reads as they do. -/
theorem rail_get {c : Cfg} {st : Store} {ov : Nat} {g : Nat → F32} {rail : List F32} {m : SampleMem}
    (h : sampleLoad c st ((List.range ov).map g ++ rail) = .ok m) :
    (∀ j, j < ov → m.get j = g j) ∧ (∀ k v, rail[k]? = some v → m.get (ov + k) = v) := by
  obtain ⟨_, _, hg⟩ := sampleLoad_ok h
  constructor
  · intro j hj
    rw [hg, List.getElem?_append_left (by simpa using hj)]
    simp [hj]
  · intro k v hk
    rw [hg, List.getElem?_append_right (by simp), List.length_map, List.length_range, Nat.add_sub_cancel_left, hk]
    rfl

/-- Only an empty batch can be one whose `RECV` changes nothing. -/
theorem recvKeeps_eq_nil {batch : List (F32 × F32)} (h : recvKeeps batch = true) : batch = [] := by
  unfold recvKeeps at h
  exact List.isEmpty_iff.mp (Bool.and_eq_true_iff.mp h).1

/-- Step 1 of `RECV` where the batch fits (R167, R170). -/
theorem recvPlace_ok {s : State} {batch : List (F32 × F32)} (ht : s.overlap ≤ s.bufLen)
    (hc : s.overlap + batch.length ≤ hw.bufCap) (hmem : MemCanonical s) :
    ∃ p, recvPlace hw batch s = .ok p ∧ BatchStored batch s p ∧ MemCanonical p := by
  have hI := recvRail_ok (st := .ibuf) (rd := ibufRead s) (get := s.ibuf.get) (bufLen := s.bufLen) (ov := s.overlap)
    (rail := batch.map Prod.fst) (fun i hi => ibufRead_eq_ok.mpr ⟨hi, rfl⟩) ht
  have hQ := recvRail_ok (st := .qbuf) (rd := qbufRead s) (get := s.qbuf.get) (bufLen := s.bufLen) (ov := s.overlap)
    (rail := batch.map Prod.snd) (fun i hi => qbufRead_eq_ok.mpr ⟨hi, rfl⟩) ht
  have lI : ∃ m, sampleLoad hw .ibuf ((List.range s.overlap).map (fun j => s.ibuf.get (s.bufLen - s.overlap + j)) ++
      batch.map Prod.fst) = .ok m := ⟨_, sampleLoad_of_le (by simpa using hc)⟩
  have lQ : ∃ m, sampleLoad hw .qbuf ((List.range s.overlap).map (fun j => s.qbuf.get (s.bufLen - s.overlap + j)) ++
      batch.map Prod.snd) = .ok m := ⟨_, sampleLoad_of_le (by simpa using hc)⟩
  obtain ⟨m, hm⟩ := lI
  obtain ⟨q, hq⟩ := lQ
  obtain ⟨mi1, mi2⟩ := rail_get hm
  obtain ⟨mq1, mq2⟩ := rail_get hq
  have hp : recvPlace hw batch s = .ok { s with
      ibuf := if recvKeeps batch then s.ibuf else m
      qbuf := if recvKeeps batch then s.qbuf else q
      bufLen := if recvKeeps batch then s.bufLen else s.overlap + batch.length } := by
    unfold recvPlace
    rw [hI, ok_bind, hQ, ok_bind, hm, ok_bind, hq, ok_bind]
  by_cases hk : recvKeeps batch = true
  · simp only [if_pos hk] at hp
    exact ⟨s, hp, .inr ⟨recvKeeps_eq_nil hk, rfl⟩, hmem⟩
  simp only [if_neg hk] at hp
  refine ⟨_, hp, .inl ⟨rfl, mi1, mq1, ?_, ?_⟩, ⟨(sampleLoad_ok hm).2.1, (sampleLoad_ok hq).2.1⟩⟩
  · intro k v hk
    exact mi2 k v.1 (by rw [List.getElem?_map, hk]; rfl)
  · intro k v hk
    exact mq2 k v.2 (by rw [List.getElem?_map, hk]; rfl)

/-- What step 1 of `RECV` answers, if it does. -/
theorem recvPlace_frame {c : Cfg} {s p : State} {batch : List (F32 × F32)} (h : recvPlace c batch s = .ok p) :
    (p = s ∧ batch = [] ∨
      p = { s with ibuf := p.ibuf, qbuf := p.qbuf, bufLen := s.overlap + batch.length } ∧ MemCanonical p) ∧
      s.overlap + batch.length ≤ c.bufCap := by
  unfold recvPlace at h
  obtain ⟨vi, h1, h⟩ := bind_eq_ok.mp h
  obtain ⟨vq, _, h⟩ := bind_eq_ok.mp h
  obtain ⟨m, hm, h⟩ := bind_eq_ok.mp h
  obtain ⟨q, hq, h⟩ := bind_eq_ok.mp h
  have hl := recvRail_length h1
  have hc := (sampleLoad_ok hm).1
  rw [hl, List.length_map] at hc
  refine ⟨?_, hc⟩
  by_cases hk : recvKeeps batch = true
  · simp only [if_pos hk] at h
    cases h
    exact .inl ⟨rfl, recvKeeps_eq_nil hk⟩
  · simp only [if_neg hk] at h
    cases h
    exact .inr ⟨rfl, ⟨(sampleLoad_ok hm).2.1, (sampleLoad_ok hq).2.1⟩⟩

/-- Step 2 of `RECV` with `W = 1` takes one sample at a time. -/
theorem recvBlocks_succ {n fuel x : Nat} {s : State} (hx : x < n) :
    recvBlocks hw n (fuel + 1) x s = (do
      let t ← recvBlock hw x 1 s
      recvBlocks hw n fuel (x + 1) t) := by
  have hw1 : min hw.w (n - x) = 1 := by rw [hw_w]; omega
  rw [recvBlocks, if_pos hx, hw1]

theorem recvBlocks_end {c : Cfg} {n fuel x : Nat} {s : State} (hx : n ≤ x) : recvBlocks c n fuel x s = .ok s := by
  cases fuel with
  | zero => rfl
  | succ f => rw [recvBlocks, if_neg (by omega)]

end Sys2Proof.Machine
end

