-- ==== Sys2Proof/Machine/Text.lean ====
section
/-! DEFINITION. The written syntax of the five commands (30_encoding.md rule R98) and the pseudo-commands (30_encoding.md
rule R99). A line is a list of characters; text that R98 does not give reads as nothing. Assumption log 18. -/

namespace Sys2Proof.Machine

/-! Numbers. -/

/-- The value of a digit in a base of at most 16. -/
def digitValue (base : Nat) (ch : Char) : Option Nat :=
  let n := ch.toNat
  let v :=
    if 48 ≤ n ∧ n ≤ 57 then n - 48
    else if 97 ≤ n ∧ n ≤ 102 then n - 87
    else if 65 ≤ n ∧ n ≤ 70 then n - 55
    else base
  if v < base then some v else none

/-- The number that digits stand for, after the digits whose value is `acc`. -/
def readNat (base : Nat) : Nat → List Char → Option Nat
  | acc, [] => some acc
  | acc, ch :: cs =>
    match digitValue base ch with
    | some v => readNat base (acc * base + v) cs
    | none => none

/-- An unsigned integer, decimal or `0x` hexadecimal. -/
def readUnsigned : List Char → Option Nat
  | [] => none
  | '0' :: 'x' :: cs => if cs.isEmpty then none else readNat 16 0 cs
  | cs => readNat 10 0 cs

/-- An integer with an optional minus sign. -/
def readInt : List Char → Option Int
  | '-' :: cs => (readUnsigned cs).map (fun n => -(n : Int))
  | cs => (readUnsigned cs).map (fun n => (n : Int))

/-- A decimal literal without its sign, as a numerator and the power of ten it is divided by. -/
def readDecimal (cs : List Char) : Option (Nat × Nat) :=
  let whole := cs.takeWhile (· != '.')
  let frac := (cs.dropWhile (· != '.')).drop 1
  if whole.isEmpty then none else (readNat 10 0 (whole ++ frac)).map (fun n => (n, Nat.pow 10 frac.length))

/-- A signed decimal literal, rounded to the nearest binary32. -/
def readReal (neg : Bool) (cs : List Char) : Option F32 :=
  (readDecimal cs).map (fun p => f32Round neg (p.1 * unitsPerOne) p.2)

/-- A bit pattern, in `0x` hexadecimal only. -/
def readPattern : List Char → Option F32
  | '0' :: 'x' :: cs =>
    (readUnsigned ('0' :: 'x' :: cs)).bind (fun n => if n < 4294967296 then some (BitVec.ofNat 32 n) else none)
  | _ => none

/-- An F32: a decimal literal, or a `0x` bit pattern prefixed `f:`. -/
def readF32 : List Char → Option F32
  | 'f' :: ':' :: cs => readPattern cs
  | '-' :: cs => readReal true cs
  | cs => readReal false cs

/-! Lines. -/

/-- A space or a tab. -/
def isBlank (ch : Char) : Bool := ch == ' ' || ch == '\t'

/-- A text without the blanks around it. -/
def trimBlanks (cs : List Char) : List Char := (((cs.dropWhile isBlank).reverse).dropWhile isBlank).reverse

/-- The parts of a text between occurrences of a character. -/
def splitAtChar (sep : Char) : List Char → List (List Char)
  | [] => [[]]
  | ch :: cs =>
    match splitAtChar sep cs with
    | w :: ws => if ch == sep then [] :: w :: ws else (ch :: w) :: ws
    | [] => []

/-- Every reading of a list of texts, if there is one for each. -/
def readAll {α : Type} (f : List Char → Option α) : List (List Char) → Option (List α)
  | [] => some []
  | c :: cs => (f c).bind (fun v => (readAll f cs).map (fun vs => v :: vs))

/-- An array `[x0 x1 …]` of F32. -/
def readArray : List Char → Option (List F32)
  | '[' :: cs =>
    match cs.reverse with
    | ']' :: ds => readAll readF32 ((splitAtChar ' ' ds.reverse).filter (fun w => !w.isEmpty))
    | _ => none
  | _ => none

/-- The pseudo-command `RECV1 i, q`, which is `RECV 0, [i], [q]` (R99). -/
def recv1 (i q : F32) : Instr := .recv 0#64 [(i, q)]

/-- The pseudo-command `RDOBS`, which is `RDCSR 0x008` (R99). -/
def rdobs : Instr := .rdcsr 0x008#12

/-- The pseudo-command `RDSP`, which is `RDCSR 0x009` (R99). -/
def rdsp : Instr := .rdcsr 0x009#12

/-- The pseudo-command `CFGDMR`, which is `CFG 4800, 50000.0, 1` (R99). -/
def cfgdmr : Instr := .cfg true 4800#32 0x47435000#32

/-- `CFG symbol_rate, sample_rate, flags`: a signed 32-bit integer, an F32, and flags of which bit 0 is `retune` and every
other bit must be zero (R88, R98). -/
def readCfg (sr fs flags : List Char) : Option Instr :=
  (readInt sr).bind (fun r =>
    (readF32 fs).bind (fun f =>
      (readUnsigned flags).bind (fun b =>
        if -2147483648 ≤ r ∧ r < 2147483648 ∧ b < 2 then some (.cfg (b == 1) (BitVec.ofInt 32 r) f) else none)))

/-- `RECV ts, [i0 …], [q0 …]`: a 64-bit integer and two arrays of one length below 2^24 (R89, R98). -/
def readRecv (ts is qs : List Char) : Option Instr :=
  (readUnsigned ts).bind (fun t =>
    (readArray is).bind (fun i =>
      (readArray qs).bind (fun q =>
        if t < 18446744073709551616 ∧ i.length = q.length ∧ i.length < 16777216 then
          some (.recv (BitVec.ofNat 64 t) (i.zip q))
        else none)))

/-- `RDCSR addr` (R98): a 12-bit address. -/
def readRdcsr (addr : List Char) : Option Instr :=
  (readUnsigned addr).bind (fun a => if a < 4096 then some (.rdcsr (BitVec.ofNat 12 a)) else none)

/-- The command that a mnemonic and its operands stand for (R98, R99). -/
def readCommand (mn : List Char) (ops : List (List Char)) : Option Instr :=
  if mn = ['C', 'F', 'G'] then
    match ops with
    | [sr, fs, flags] => readCfg sr fs flags
    | _ => none
  else if mn = ['S', 'E', 'T', 'F', 'S'] then
    match ops with
    | [fs] => (readF32 fs).map Instr.setfs
    | _ => none
  else if mn = ['R', 'S', 'T'] then (if ops.isEmpty then some .rst else none)
  else if mn = ['R', 'E', 'C', 'V'] then
    match ops with
    | [ts, is, qs] => readRecv ts is qs
    | _ => none
  else if mn = ['R', 'D', 'C', 'S', 'R'] then
    match ops with
    | [addr] => readRdcsr addr
    | _ => none
  else if mn = ['R', 'E', 'C', 'V', '1'] then
    match ops with
    | [i, q] => (readF32 i).bind (fun x => (readF32 q).map (fun y => recv1 x y))
    | _ => none
  else if mn = ['R', 'D', 'O', 'B', 'S'] then (if ops.isEmpty then some rdobs else none)
  else if mn = ['R', 'D', 'S', 'P'] then (if ops.isEmpty then some rdsp else none)
  else if mn = ['C', 'F', 'G', 'D', 'M', 'R'] then (if ops.isEmpty then some cfgdmr else none)
  else none

/-- The command written on a line: `MNEMONIC operands`, the operands separated by commas; what follows a semicolon is a
comment (R98). -/
def assembleLine (line : List Char) : Option Instr :=
  let text := trimBlanks (line.takeWhile (· != ';'))
  let operands := trimBlanks (text.dropWhile (fun ch => !isBlank ch))
  readCommand (text.takeWhile (fun ch => !isBlank ch))
    (if operands.isEmpty then [] else (splitAtChar ',' operands).map trimBlanks)

end Sys2Proof.Machine
end

