-- ==== Sys2Proof/Tests/Slice0.lean ====
section
/-! SUPPORT. Tests: words written out from the encoding tables, vectors of 95_test_vectors.md and of the rules' examples,
and for every statement that has hypotheses a state that meets them. Expected values come from spec/. -/

namespace Sys2Proof.Tests

open Sys2Proof.Machine

/-! Helpers. -/

/-- The fixture `TAPS_LINEAR` of 95_test_vectors.md section 1. -/
def tapsLinear (r k : Nat) : F32 :=
  if k = 3 then f32Div (f32OfInt (128 - r)) rowsF else if k = 4 then f32Div (f32OfInt r) rowsF else zeroF

/-- The hardware's record with the fixture table and room for 64 samples. -/
def fx : Cfg := { hw with taps := tapsLinear, bufCap := 64 }

/-- A check of the value an operation answers. -/
def okAnd {α : Type} (r : Res α) (p : α → Bool) : Bool :=
  match r with
  | .ok a => p a
  | .error _ => false

/-- A check of the next state of an outcome. -/
def nextAnd (o : Host.Outcome State Fault Refusal) (p : State → Bool) : Bool :=
  match o with
  | .next s => p s
  | _ => false

/-- The outcome is a refusal. -/
def isRefused (o : Host.Outcome State Fault Refusal) : Bool :=
  match o with
  | .refused _ => true
  | _ => false

/-- The outcome is a fault. -/
def isFault (o : Host.Outcome State Fault Refusal) : Bool :=
  match o with
  | .fault _ => true
  | _ => false

/-- There is a next state where a check of it succeeds. -/
theorem next_of_nextAnd {o : Host.Outcome State Fault Refusal} {p : State → Bool} (h : nextAnd o p = true) :
    ∃ t, o = .next t ∧ p t = true := by
  cases o with
  | next s => exact ⟨s, rfl, h⟩
  | fault f => exact absurd h (by simp [nextAnd])
  | refused r => exact absurd h (by simp [nextAnd])

/-- A check that a decoder read this instruction and left these words. -/
def reads (r : Except DecodeError (Instr × List Word)) (i : Instr) (rest : List Word) : Bool :=
  match r with
  | .ok p => decide (p = (i, rest))
  | .error _ => false

/-! Ill-formed terms, one for each check of WellFormed. -/

theorem test_recv_too_long_illformed (ts : BitVec 64) (b : List (F32 × F32)) (h : b.length = 16777216) :
    ¬ (Instr.recv ts b).WellFormed := by simp [Instr.WellFormed, Instr.wellFormed, h]

theorem test_interp_offset_illformed : ¬ (Instr.interp .ibuf 4294967296 0#32).WellFormed := by decide

theorem test_diff_index_illformed : ¬ (Instr.diff 4294967296).WellFormed := by decide

theorem test_eqsync_length_illformed : ¬ (Instr.eqsync [.d00Plus1]).WellFormed := by decide

/-! Decoding. Command words from R88 and R89, micro-operation numbers from R96. -/

theorem test_decode_cfg : reads (decode [0x00000101#32, 0x000012C0#32, 0x47435000#32])
    (.cfg true 4800#32 0x47435000#32) [] = true := by decide

theorem test_decode_cfg_flag_clear : reads (decode [0x00000001#32, 0xFFFFFFFF#32, 0x7FC00001#32])
    (.cfg false 0xFFFFFFFF#32 0x7FC00001#32) [] = true := by decide

theorem test_decode_setfs : reads (decode [0x00000002#32, 0x473B8000#32, 9#32]) (.setfs 0x473B8000#32) [9#32] = true := by
  decide

theorem test_decode_rst : reads (decode [0x00000003#32]) .rst [] = true := by decide

theorem test_decode_recv : reads (decode [0x00000204#32, 1#32, 2#32, 3#32, 4#32, 5#32, 6#32])
    (.recv 0x0000000200000001#64 [(3#32, 5#32), (4#32, 6#32)]) [] = true := by decide

theorem test_decode_recv_empty : reads (decode [0x00000004#32, 0#32, 0#32, 8#32]) (.recv 0#64 []) [8#32] = true := by decide

theorem test_decode_rdcsr : reads (decode [0x00030805#32]) (.rdcsr 0x308#12) [] = true := by decide

theorem test_decode_illegal : ([0x00000000#32, 0x00000006#32, 0x00000201#32, 0x00000102#32, 0x00000103#32, 0x00100005#32,
    0x00000010#32].all (fun h => decide (decode [h] matches .error (.illegal _)))) = true := by decide

theorem test_decode_incomplete : (decode [0x00000104#32, 0#32, 0#32, 1#32] matches .error (.incomplete _)) = true := by decide

theorem test_decode_interp : reads (decodeMicro [0x10#32, 2#32, 7#32, 5#32]) (.interp .dly 7 5#32) [] = true := by decide
theorem test_decode_cmulc : reads (decodeMicro [0x11#32, 1#32, 2#32, 3#32, 4#32]) (.cmulc 1#32 2#32 3#32 4#32) [] = true := by
  decide
theorem test_decode_phase : reads (decodeMicro [0x12#32, 1#32, 2#32]) (.phase 1#32 2#32) [] = true := by decide
theorem test_decode_diff : reads (decodeMicro [0x13#32, 9#32]) (.diff 9) [] = true := by decide
theorem test_decode_unwrap : reads (decodeMicro [0x14#32, 1#32, 2#32]) (.unwrap 1#32 2#32) [] = true := by decide
theorem test_decode_spsample : reads (decodeMicro [0x15#32, 3#32]) (.spsample 3#32) [] = true := by decide
theorem test_decode_symbol : reads (decodeMicro [0x16#32]) .symbol [] = true := by decide
theorem test_decode_loopupd : reads (decodeMicro [0x17#32, 3#32]) (.loopupd 3#32) [] = true := by decide
theorem test_decode_eqproc : reads (decodeMicro [0x18#32, 1#32, 5#32]) (.eqproc .d01Plus3 5#32) [] = true := by decide
theorem test_decode_eqnoupd : reads (decodeMicro [0x19#32, 3#32, 5#32]) (.eqnoupd .d11Minus3 5#32) [] = true := by decide
theorem test_decode_eqsync : reads (decodeMicro [0x1A#32, 0xD7DFD57D#32, 0x755F#32]) (.eqsync syncDibits) [] = true := by decide
theorem test_decode_updobs : reads (decodeMicro [0x1B#32, 3#32]) (.updobs 3#32) [] = true := by decide
theorem test_decode_decide : reads (decodeMicro [0x1C#32, 3#32]) (.decidePhi 3#32) [] = true := by decide
theorem test_decode_terr : reads (decodeMicro [0x1D#32, 2#32, 1#32, 2#32, 3#32]) (.terr .d10Minus1 1#32 2#32 3#32) [] = true := by
  decide
theorem test_decode_synccorr : reads (decodeMicro [0x1E#32, 3#32]) (.synccorr 3#32) [] = true := by decide
theorem test_decode_ddlpush : reads (decodeMicro [0x1F#32, 3#32]) (.ddlpush .d11Minus3) [] = true := by decide
theorem test_decode_ddlsync : reads (decodeMicro [0x20#32]) .ddlsync [] = true := by decide
theorem test_decode_bad_operand : (decodeMicro [0x1F#32, 4#32] matches .error (.badOperand _)) = true := by decide

/-! Numerics (R7, R10). -/

/-- `OBS_GAIN = 0.05 * (SC_GAIN * SC_GAIN)`, `ONE_MINUS_CF`, `ONE_PLUS_CF` (R10). -/
theorem test_constants : f32Mul 0x3D4CCCCD#32 (f32Mul scGainF scGainF) = obsGainF ∧ oneMinusCf hw = 0x3F7FDF3B#32 ∧
    onePlusCf hw = 0x3F801062#32 := by decide +kernel

/-- R27: `OBS_LO`, `OBS_HI`, `NOISE_THR` at power-on. -/
theorem test_derived_rates : obsLo hw State.reset = 0x41269555#32 ∧ obsHi hw State.reset = 0x4126C000#32 ∧
    noiseThr hw State.reset = 0x3F394C76#32 := by decide +kernel

/-- Signed zeros: `x + (-x)` and `0 - 0` are `+0.0`, `-0 + -0` is `-0.0`. -/
theorem test_signed_zeros : f32Add 0x3F800000#32 0xBF800000#32 = 0x00000000#32 ∧
    f32Add 0x80000000#32 0x80000000#32 = 0x80000000#32 ∧ f32Add 0x80000000#32 0x00000000#32 = 0x00000000#32 := by
  decide +kernel

/-! Vectors of 95_test_vectors.md. -/

/-- The state whose delay line holds 1 to 8 twice. -/
def ramp : State :=
  { State.reset with
    dly := (List.range 8).map (fun k => f32OfInt (k + 1)) ++ (List.range 8).map (fun k => f32OfInt (k + 1)) }

/-- 3.1 (a), (b), (d), (e), (f), (g). -/
theorem test_interp : okAnd (interpOp fx ramp .dly 0 0x00000000#32) (· == 0x40800000#32) = true ∧
    okAnd (interpOp fx ramp .dly 0 0x3F000000#32) (· == 0x40900000#32) = true ∧
    okAnd (interpOp fx ramp .dly 0 0x3F7FFFFF#32) (· == 0x409FC000#32) = true ∧
    okAnd (interpOp fx ramp .dly 0 0x3C000000#32) (· == 0x40804000#32) = true ∧
    okAnd (interpOp fx ramp .dly 0 0x3BFFFFFF#32) (· == 0x40800000#32) = true ∧
    okAnd (interpOp fx ramp .dly 0 0x3ED55560#32) (· == 0x408D4000#32) = true := by decide +kernel

/-- 3.1 (i): the sum is taken in ascending order. -/
theorem test_interp_order :
    okAnd (interpOp { fx with taps := fun _ _ => oneF }
      { ramp with dly := [0x4CBEBC20#32, oneF, 0xCCBEBC20#32, oneF, zeroF, zeroF, zeroF, zeroF] } .dly 0 zeroF)
      (· == oneF) = true := by decide +kernel

/-- R114: `mu = 1` is refused. -/
theorem test_interp_refused : isRefused (exec (.interp .dly 0 oneF) State.reset) = true := by decide +kernel

/-- 3.2, rows 1 and 3. -/
theorem test_cmulc : cmulcOp hw oneF zeroF zeroF oneF = (zeroF, oneF) ∧
    (cmulcOp hw 0x3F19999A#32 0x3F4CCCCD#32 0x3F4CCCCD#32 0xBF19999A#32).2 = 0xBF800000#32 := by decide +kernel

/-- 3.2: the guard at zeros of either sign. -/
theorem test_phase_guard : nextAnd (exec (.phase 0x00000000#32 0x80000000#32) State.reset)
    (fun s => s.ret == .f32 0x00000000#32) = true := by decide +kernel

/-- R234: a differential phase of the reset zeros is `+0.0` (fixture table). -/
theorem test_diff_zero : okAnd (diffOp fx State.reset 0) (· == 0x00000000#32) = true := by decide +kernel

/-- 3.3 (a), rows 1, 2, 3, 4, 6. -/
theorem test_unwrap : unwrapOp hw 0xC0400000#32 0x40400000#32 = 0x40521FB6#32 ∧
    unwrapOp hw 0x40400000#32 0xC0400000#32 = 0xC0521FB6#32 ∧ unwrapOp hw 0x40490FDB#32 zeroF = 0x40490FDB#32 ∧
    unwrapOp hw 0x40490FDC#32 zeroF = 0xC0490FDA#32 ∧ unwrapOp hw 0xC016CBE4#32 0x4016CBE4#32 = 0x407B53D2#32 := by
  decide +kernel

/-- R131's example. -/
theorem test_spsample : nextAnd (exec (.spsample 0x3F000000#32) State.reset) (fun s =>
    s.previousPhase == 0x3F000000#32 && s.dly[0]? == some 0x3F000000#32 && s.dly[8]? == some 0x3F000000#32 &&
      s.dlyPtr == 1 && s.samplePoint == 0x4116AAAB#32 && !s.noisy) = true := by decide +kernel

/-- R132: a jump above the threshold sets `NOISY`. -/
theorem test_spsample_noisy : nextAnd (exec (.spsample 0x3F800000#32) State.reset) (fun s => s.noisy) = true := by
  decide +kernel

/-- R136's example. -/
theorem test_loopupd : nextAnd (exec (.loopupd eighthPiF) { State.reset with samplePoint := 0x3ED55560#32 }) (fun s =>
    s.observedSps == 0x4126AB10#32 && s.samplePoint == 0x412DC653#32) = true := by decide +kernel

/-- 3.3 (b): at the upper bound a positive error changes nothing. -/
theorem test_loopupd_clamp : nextAnd (exec (.loopupd eighthPiF) { State.reset with observedSps := 0x4126C000#32 })
    (fun s => s.observedSps == 0x4126C000#32) = true := by decide +kernel

/-- Program P2's first symbol: all-zero phases (R193, S6). -/
theorem test_symbol : okAnd (symbolOp fx { State.reset with samplePoint := 0x3ED55560#32 }) (fun s =>
    s.observedSps == 0x4126AB10#32 && s.samplePoint == 0x412DC653#32 && s.ssr == 2#48 && s.outq == [.d00Plus1] &&
      s.seq == .await) = true := by decide +kernel

/-- R152's example: the first call changes no tap and returns `+0.0`. -/
theorem test_eqproc : nextAnd (exec (.eqproc .d01Plus3 0x40000000#32) State.reset) (fun s =>
    s.eqZ[0]? == some 0x40000000#32 && s.eqZ[25]? == some 0x40000000#32 && s.eqA[25]? == some 0x4016CBE4#32 &&
      s.eqP == 1 && s.eqQ == State.reset.eqQ && s.ret == .f32 0x00000000#32) = true := by decide +kernel

/-- 3.5, call 13: twelve earlier pairs in the rings. -/
theorem test_eqproc_adapts : nextAnd (exec (.eqproc .d01Plus3 0x40000000#32)
    { State.reset with
      eqZ := (List.replicate 12 0x40000000#32 ++ List.replicate 13 zeroF) ++
        (List.replicate 12 0x40000000#32 ++ List.replicate 13 zeroF)
      eqA := (List.replicate 12 0x4016CBE4#32 ++ List.replicate 13 zeroF) ++
        (List.replicate 12 0x4016CBE4#32 ++ List.replicate 13 zeroF)
      eqP := 12 }) (fun s =>
    s.ret == .f32 0xBEB65F20#32 && s.eqQ[11]? == some zeroF && s.eqQ[12]? == some oneF && s.eqQ[13]? == some 0xBE45DD75#32 &&
      s.eqQ[24]? == some 0xBE45DD75#32 && s.eqP == 13) = true := by decide +kernel

/-- R153's example. -/
theorem test_eqnoupd : nextAnd (exec (.eqnoupd .d00Plus1 0x3F000000#32) State.reset) (fun s =>
    s.eqZ[0]? == some 0x3F000000#32 && s.eqZ[25]? == some 0x3F000000#32 && s.eqA[0]? == some 0x3F490FDB#32 &&
      s.eqP == 1 && s.eqQ == State.reset.eqQ) = true := by decide +kernel

/-- 3.5, last part: fifteen pairs of 2.0, one of -2.5, then the retuning with `EQ_P = 16`. -/
theorem test_eqsync : nextAnd (exec (.eqsync syncDibits)
    { State.reset with
      eqZ := (List.replicate 15 0x40000000#32 ++ 0xC0200000#32 :: List.replicate 9 zeroF) ++
        (List.replicate 15 0x40000000#32 ++ 0xC0200000#32 :: List.replicate 9 zeroF)
      eqP := 16 }) (fun s =>
    s.eqQ[0]? == some zeroF && s.eqQ[1]? == some 0x3D9DC43B#32 && s.eqQ[2]? == some 0xBD9DC43B#32 &&
      s.eqQ[9]? == some 0xBD2AAAAB#32 && s.eqQ[10]? == some 0x3F027390#32 && s.eqQ[12]? == some oneF &&
      s.eqQ[24]? == some 0x3D191839#32) = true := by decide +kernel

/-- R166's example. -/
theorem test_updobs : nextAnd (exec (.updobs 0x4126AAAB#32) { State.reset with mu := oneF, ioff := 0, overlap := 0 })
    (fun s => s.mu == 0x3ED55560#32 && s.ioff == 6 && s.overlap == 14) = true := by decide +kernel

/-- R166's pseudocode at -10.5, whose floor is -11: `MU` 0.5 and `IOFF` -15; `OVERLAP` is a free value there. -/
theorem test_updobs_below : nextAnd (exec (.updobs 0xC1280000#32) State.reset)
    (fun s => s.mu == 0x3F000000#32 && s.ioff == -15) = true := by decide +kernel

/-- The table of R185. -/
theorem test_decide : [0x3FC90FDC#32, 0x3FC90FDB#32, 0x00000001#32, 0x00000000#32, 0x80000000#32, 0xBFC90FDB#32,
    0xBFC90FDC#32, 0x4016CBE4#32, 0xBF490FDB#32, 0x7FC00000#32].map (decideOp hw) =
    [.d01Plus3, .d00Plus1, .d00Plus1, .d10Minus1, .d10Minus1, .d10Minus1, .d11Minus3, .d01Plus3, .d10Minus1,
      .d10Minus1] := by decide +kernel

/-- The table of R190, rows 1 to 3, 5 and 6. -/
theorem test_terr : terrOp hw .d00Plus1 0x3F000000#32 0x3F490FDB#32 oneF = 0x00000000#32 ∧
    terrOp hw .d00Plus1 0x3F000000#32 0x3F2F7641#32 oneF = 0x3DCCCCD0#32 ∧
    terrOp hw .d00Plus1 oneF 0x3F2F7641#32 0x3F000000#32 = 0xBDCCCCD0#32 ∧
    terrOp hw .d10Minus1 zeroF zeroF zeroF = 0x3EC90FDB#32 ∧
    terrOp hw .d01Plus3 0x40000000#32 0x40400000#32 0x40600000#32 = 0xBEC90FDB#32 := by decide +kernel

/-- R196's first example, with the clamp. -/
theorem test_synccorr : nextAnd (exec (.synccorr 0x41200000#32) State.reset) (fun s =>
    s.sdS[0]? == some 0x4016CBE4#32 && s.sdS[24]? == some 0x4016CBE4#32 && s.sdI == 1 && s.ret == .f32 0x40B1A723#32) =
    true := by decide +kernel

/-- 3.7: the pattern against itself. -/
theorem test_synccorr_pattern : nextAnd (exec (.synccorr 0x4016CBE4#32)
    { State.reset with sdS := syncRef ++ syncRef, sdI := 23 }) (fun s => s.ret == .f32 0x43053D59#32) = true := by
  decide +kernel

/-- R198's example. -/
theorem test_ddlpush : nextAnd (exec (.ddlpush .d11Minus3) State.reset) (fun s =>
    s.ret == .dibit .d00Plus1 && s.ddl[0]? == some .d11Minus3 && s.ddlPtr == 1) = true := by decide +kernel

/-- R199's example, with `DDL_PTR = 5`. -/
theorem test_ddlsync : nextAnd (exec .ddlsync { State.reset with ddlPtr := 5 }) (fun s =>
    s.ddl[5]? == some .d01Plus3 && s.ddl[6]? == some .d11Minus3 && s.ddl[4]? == some .d01Plus3 && s.ddlPtr == 5) =
    true := by decide +kernel

/-- 3.8: codes of CHECK with `BUF_CAP = 64`. -/
theorem test_check : [(4800#32, 0x47435000#32), (0#32, 0x47435000#32), (4800#32, 0x7F800000#32), (4800#32, 0x46160000#32),
    (4800#32, 0x46160400#32), (4800#32, 0x46960000#32), (4800#32, 0x46961400#32), (4800#32, 0x46BB8000#32),
    (4800#32, 0x48EA6000#32)].map (fun p => check fx p.1 p.2) = [0, 1, 2, 3, 4, 4, 0, 0, 4] := by decide +kernel

/-- R173's example. -/
theorem test_setfs : okAnd (configureOp fx 4800#32 0x473B8000#32 true State.reset) (fun s =>
    s.nominalSps == 0x41200000#32 && s.mu == zeroF && s.ioff == 6 && s.overlap == 14 && s.resp == [0#32]) = true := by
  decide +kernel

/-- R207: a refused `CFG` leaves the session and answers the code. -/
theorem test_cfg_refused : nextAnd (exec (.cfg false 0#32 0x47435000#32) State.reset) (fun s =>
    s == { State.reset with resp := [0x00000102#32, 1#32] }) = true := by decide +kernel

/-- R174: `RST` restores the taps and clears `NOISY`. -/
theorem test_rst : okAnd (resetOp fx { State.reset with noisy := true, eqQ := [], bufLen := 0 }) (fun s =>
    s == State.reset) = true := by decide +kernel

/-- Program P2: 25 zero samples give two fill dibits. -/
theorem test_recv : okAnd (recvOp fx (List.replicate 25 (zeroF, zeroF)) State.reset) (fun s =>
    s.observedSps == 0x4126AB75#32 && s.bufLen == 39 && s.resp == [0x00000200#32, 0#32, 0#32] && s.outq == []) = true := by
  decide +kernel

/-- The row `RECV 0, [], []` of 95_test_vectors.md: an empty batch has an empty response. -/
theorem test_recv_empty : nextAnd (exec (.recv 0#64 []) State.reset) (fun s =>
    s.resp == [0x00000000#32] && s.outq == [] && s.overlap == 14) = true := by decide +kernel

/-- R167: a batch of 51 samples does not fit 64 cells behind an overlap of 14. -/
theorem test_recv_too_large : okAnd (recvOp fx (List.replicate 51 (zeroF, zeroF)) State.reset) (fun s =>
    s == { State.reset with resp := [0x00000103#32, 51#32] }) = true := by decide +kernel

/-- R175's example. -/
theorem test_rdcsr : nextAnd (exec (.rdcsr 0x008#12) State.reset) (fun s =>
    s == { State.reset with resp := [0x00000100#32, 0x4126AAAB#32] }) = true := by decide +kernel

/-- R46: an address between two windows is in none. -/
theorem test_rdcsr_bad : nextAnd (exec (.rdcsr 0x098#12) State.reset) (fun s =>
    s == { State.reset with resp := [0x00000104#32, 0x098#32] }) = true := by decide +kernel

/-! The written syntax (R98, R99). -/

theorem test_assemble : assembleLine "CFG   4800, 50000.0, 1  ; flags bit 0 = retune".toList = some cfgdmr ∧
    assembleLine "CFG -1, f:0x7FC00000, 0".toList = some (.cfg false 0xFFFFFFFF#32 0x7FC00000#32) ∧
    assembleLine "SETFS 48000.0".toList = some (.setfs 0x473B8000#32) ∧ assembleLine "RST".toList = some .rst ∧
    assembleLine "RECV 7, [1 -0.5], [0.1 0.0]".toList =
      some (.recv 7#64 [(oneF, 0x3DCCCCCD#32), (0xBF000000#32, zeroF)]) ∧
    assembleLine "RDCSR 0x008".toList = some rdobs := by decide +kernel

theorem test_assemble_refused : assembleLine "RDCSR 4096".toList = none ∧ assembleLine "RECV 0, [1.0], []".toList = none ∧
    assembleLine "CFG 4800, 50000.0, 2".toList = none ∧ assembleLine "SETFS f:1195376640".toList = none ∧
    assembleLine "call SYMBOL()".toList = none := by decide +kernel

/-! Steps from the port and from the slot. -/

theorem test_step_illegal : nextAnd (step { State.reset with port := [0x00000000#32, 0x00000805#32] }) (fun s =>
    s == { State.reset with port := [0x00000805#32], resp := [0x00000101#32, 0#32] }) = true := by decide +kernel

theorem test_step_idle : nextAnd (step State.reset) (fun s => s == State.reset) = true := by decide +kernel

theorem test_fetch_port : nextAnd (step (State.reset.withFetchWord 32 0x00000805)) (fun s =>
    s == { State.reset with resp := [0x00000100#32, 0x4126AAAB#32] }) = true := by decide +kernel

theorem test_fetch_slot : nextAnd (step (State.reset.withFetchWord 32 0x1C)) (fun s =>
    s.ret == .dibit .d10Minus1 && s.micro == []) = true := by decide +kernel

/-! States that meet the statements' hypotheses, and a case for every clause. -/

/-- The power-on state with one command on the port. -/
def ready : State := { State.reset with port := [0x00000805#32] }

/-- The same with the countdown a NaN. -/
def silent : State := { ready with samplePoint := 0x7FC00000#32 }

/-- The default rates are accepted whatever the capacity, which is 15 at least (R231). -/
theorem check_default : check hw 4800#32 0x47435000#32 = 0 := by
  have e1 : ¬ (4800#32 : BitVec 32).toInt ≤ 0 := by decide
  have e2 : hw.num.isfinite 0x47435000#32 = true := by decide +kernel
  have e3 : hw.num.fle 0x47435000#32 (hw.num.fmul (hw.num.i2f (4800#32 : BitVec 32).toInt) twoF) = false := by
    decide +kernel
  have e4 : (hw.num.flt (hw.num.ffloor (obsLoOf hw (nominalOf hw 4800#32 0x47435000#32))) fourF ||
      hw.num.fgt (hw.num.fsub (hw.num.ffloor (obsHiOf hw (nominalOf hw 4800#32 0x47435000#32)))
        (hw.num.ffloor (obsLoOf hw (nominalOf hw 4800#32 0x47435000#32)))) oneF) = false := by decide +kernel
  have e5 : hw.num.fgt (hw.num.fadd (hw.num.ffloor (obsHiOf hw (nominalOf hw 4800#32 0x47435000#32))) fiveF)
      (hw.num.i2f (hw.bufCap : Int)) = false := by
    have h1 : f32Add (f32Floor (obsHiOf hw (nominalOf hw 4800#32 0x47435000#32))) fiveF = f32OfInt 15 := by decide +kernel
    have h2 := f32OfInt_mono (i := 15) (j := (hw.bufCap : Int)) (by have := hw_bufCap_ge; omega)
    simp only [hw_num, ieee_fgt, ieee_fadd, ieee_ffloor, ieee_i2f, f32Gt]
    rw [h1]
    exact (f32Lt_false_iff (f32OfInt_key _).1 (f32OfInt_key _).1).mpr h2
  unfold check
  simp only [e2, e3, e4, e5, if_neg e1]
  rfl

theorem witness_shape : Shape hw ready ∧ Rings hw ready ∧ CentreTap hw ready :=
  ⟨⟨by decide, by decide, by decide, by decide, by decide, by decide, by decide, by decide, by decide, by decide⟩,
    ⟨by decide, by decide, by decide, by decide⟩, by unfold CentreTap; decide⟩

theorem witness_session : Session hw ready := ⟨check_default, by decide +kernel⟩

theorem witness_loop : LoopBounded hw ready := ⟨by decide +kernel, by decide +kernel, by decide +kernel⟩

theorem witness_memory : MemCanonical ready := ⟨rfl, rfl⟩

theorem witness_boundary : Boundary ready := ⟨rfl, rfl, rfl⟩

theorem witness_buffered : Buffered hw ready := by
  have := hw_bufCap_ge
  exact ⟨by decide, by show 14 ≤ hw.bufCap; omega, by show 15 ≤ hw.bufCap; omega⟩

theorem witness_placed : Placed hw ready := ⟨by decide +kernel, by decide +kernel, by decide, by decide⟩

theorem witness_inv : Inv hw ready :=
  ⟨witness_shape.1, witness_shape.2.1, witness_shape.2.2, witness_session, witness_loop, by unfold Armed; decide +kernel,
    witness_placed, witness_buffered, witness_memory, witness_boundary⟩

/-! One witness for each statement that has hypotheses, with the statement's name. -/

theorem witness_CommandDecodeEncode : (Instr.recv 1#64 [(0#32, 0#32)]).WellFormed ∧
    (Instr.recv 1#64 [(0#32, 0#32)]).isCommand = true := by decide

theorem witness_UnitOperationDecodeEncode : (Instr.eqsync syncDibits).WellFormed ∧
    (Instr.eqsync syncDibits).isCommand = false := by decide

theorem witness_CommandsDecodeFromEncodingsOnly : decode [0x00000003#32] = .ok (.rst, []) := by decide

/-- Both directions: an illegal header, and a legal one whose words are missing. -/
theorem witness_IllegalHeaderTakesFault : State.reset.micro = [] ∧ decode [0x00000201#32] = .error (.illegal 0x00000201#32) ∧
    decode [0x00000101#32] ≠ .error (.illegal 0x00000101#32) := by decide

theorem witness_StepRunsDecodedInstruction : (Instr.rdcsr 0x008#12).WellFormed ∧ ready.micro = [] ∧
    decode ready.port = .ok (.rdcsr 0x008#12, []) ∧ (Instr.decidePhi 0#32).WellFormed ∧
    decodeMicro { State.reset with micro := [0x1C#32, 0#32] }.micro = .ok (.decidePhi 0#32, []) := by decide

theorem witness_IdleStepHoldsState : State.reset.micro = [] ∧ State.reset.port = [] ∧
    (Instr.cfg true 1#32 2#32).WellFormed ∧ [0x00000101#32] ++ [1#32, 2#32] = encode (.cfg true 1#32 2#32) := by decide

theorem witness_CfgAccepted : check hw 4800#32 0x47435000#32 = 0 := check_default

theorem witness_SetfsAccepted : check hw State.reset.symbolRate 0x47435000#32 = 0 := check_default

theorem witness_BadRatesTakeConfigError : check hw State.reset.symbolRate 0x7FC00000#32 ≠ 0 := by decide +kernel

theorem witness_RstResetsAndIsIdempotent : Session hw ready := witness_session

theorem ready_steps : ∃ t, step ready = .next t :=
  ⟨_, (next_of_nextAnd (o := step ready) (p := fun _ => true) (by decide +kernel)).choose_spec.1⟩

theorem witness_StepKeepsRegisterFiles : (Shape hw ready ∧ Rings hw ready ∧ CentreTap hw ready) ∧ ∃ t, step ready = .next t :=
  ⟨witness_shape, ready_steps⟩

theorem witness_StepKeepsMemoryCanonical : MemCanonical ready ∧ ∃ t, step ready = .next t := ⟨witness_memory, ready_steps⟩

theorem witness_StepKeepsLoopInBounds : Session hw ready ∧ LoopBounded hw ready ∧ ∃ t, step ready = .next t :=
  ⟨witness_session, witness_loop, ready_steps⟩

theorem witness_CommandsKeepBoundary : Boundary ready ∧ ∃ t, step ready = .next t := ⟨witness_boundary, ready_steps⟩

theorem witness_EveryCommandCompletes : Inv hw ready := witness_inv

theorem witness_FaultLeavesStateAsItWas : nextAnd (step { State.reset with port := [0#32] })
    (fun t => t.resp == [0x00000101#32, 0#32]) = true := by decide +kernel

theorem witness_UnitOperationsLeaveFacadeAlone : (Instr.ddlpush .d01Plus3).isCommand = false ∧
    nextAnd (exec (.ddlpush .d01Plus3) State.reset) (fun _ => true) = true := by decide +kernel

theorem witness_OnlyConfigurationChangesRates : nextAnd (exec (.rdcsr 0x008#12) State.reset) (fun _ => true) = true ∧
    ∀ r sr fs, Instr.rdcsr 0x008#12 ≠ .cfg r sr fs := ⟨by decide +kernel, fun _ _ _ h => by cases h⟩

/-- A batch of one sample fits the smallest capacity the spec allows. -/
theorem witness_RecvCompletes : Inv hw ready ∧ ready.overlap + [(oneF, oneF)].length ≤ hw.bufCap :=
  ⟨witness_inv, witness_buffered.room⟩

theorem witness_RecvRunsItsUnitOperations : Inv hw ready ∧ ready.overlap + [(oneF, oneF)].length ≤ hw.bufCap :=
  witness_RecvCompletes

theorem witness_RecvTooLargeTakesFault : hw.bufCap < { State.reset with overlap := hw.bufCap }.overlap +
    [(oneF, oneF)].length := Nat.lt_succ_self _

theorem witness_EmptyRecvKeepsState : Inv hw ready := witness_inv

theorem witness_BatchBoundariesDoNotMatter : Inv hw ready ∧ f32Floor (obsLo hw ready) = f32Floor (obsHi hw ready) ∧
    ready.overlap + ([(oneF, oneF)] ++ []).length ≤ hw.bufCap :=
  ⟨witness_inv, by decide +kernel, witness_buffered.room⟩

theorem witness_NaNCountdownSilencesBlock : Inv hw silent ∧ f32IsNaN silent.samplePoint = true ∧
    silent.overlap + [(oneF, oneF)].length ≤ hw.bufCap := by
  obtain ⟨a, b, c, d, e, _, g, h, i, j⟩ := witness_inv
  exact ⟨⟨⟨a.1, a.2, a.3, a.4, a.5, a.6, a.7, a.8, a.9, a.10⟩, ⟨b.1, b.2, b.3, b.4⟩, c, ⟨d.1, d.2⟩, ⟨e.1, e.2, e.3⟩,
    by unfold Armed; decide +kernel, ⟨g.1, g.2, g.3, g.4⟩, ⟨h.1, h.2, h.3⟩, ⟨i.1, i.2⟩, ⟨j.1, j.2, j.3⟩⟩,
    by decide +kernel, witness_buffered.room⟩

/-- Both cases of the hypothesis: an address of the list, and `SEQ` in AWAIT. -/
theorem witness_RdcsrReadsScalars : ((0x008#12, State.reset.observedSps) ∈
    [((0x001#12 : BitVec 12), State.reset.symbolRate), (0x008#12, State.reset.observedSps)]) ∧ State.reset.seq = .await := by
  decide

/-- The last cell of each of the six windows. -/
theorem witness_RdcsrReadsWindows : State.reset.dly[15]? = some zeroF ∧ State.reset.sdS[47]? = some zeroF ∧
    State.reset.ddl[23]? = some .d00Plus1 ∧ State.reset.eqZ[49]? = some zeroF ∧ State.reset.eqA[49]? = some zeroF ∧
    State.reset.eqQ[24]? = some zeroF := by decide

/-- The addresses next to each part of the map. -/
theorem witness_RdcsrOutsideMapTakesFault : [0x016, 0x01F, 0x030, 0x03F, 0x070, 0x07F, 0x098, 0x0FF, 0x132, 0x1FF, 0x232,
    0x2FF, 0x319, 0xFFF].all (fun a => decide (¬ (a < 0x016 ∨ (0x020 ≤ a ∧ a < 0x030) ∨ (0x040 ≤ a ∧ a < 0x070) ∨
      (0x080 ≤ a ∧ a < 0x098) ∨ (0x100 ≤ a ∧ a < 0x132) ∨ (0x200 ≤ a ∧ a < 0x232) ∨ (0x300 ≤ a ∧ a < 0x319)))) = true := by
  decide

theorem witness_InterpIsTapRowProduct : f32Le zeroF zeroF = true ∧ f32Lt zeroF oneF = true ∧
    ∀ k, k < 8 → spaceRead State.reset .dly (8 + k) = .ok zeroF :=
  ⟨by decide +kernel, by decide +kernel, by decide⟩

/-- A fraction of 1, a NaN fraction, a window one cell past the delay line, and a NaN for `UPDOBS`. -/
theorem witness_OperandsWithoutMeaningStop : f32Lt oneF oneF = false ∧ f32Le zeroF 0x7FC00000#32 = false ∧
    State.reset.dly.length < 9 + 8 ∧ f32IsFinite 0x7FC00000#32 = false := by decide +kernel

/-- The first sample's reads end exactly at `BUF_LEN`. -/
theorem witness_DiffComposesItsUnits : State.reset.ioff + (0 : Nat) = (6 : Nat) ∧ 0 < State.reset.bufLen ∧
    6 + 8 ≤ State.reset.bufLen ∧ f32Le zeroF State.reset.mu = true ∧ f32Lt State.reset.mu oneF = true := by decide +kernel

/-- Both outcomes of the countdown. -/
theorem witness_SpsampleInsertsAndCountsDown : Shape hw ready ∧ f32Lt (f32Sub ready.samplePoint oneF) oneF = false ∧
    Shape hw { ready with samplePoint := 0x3FC00000#32 } ∧ f32Lt (f32Sub 0x3FC00000#32 oneF) oneF = true := by
  obtain ⟨a, _, _⟩ := witness_shape
  exact ⟨a, by decide +kernel, ⟨a.1, a.2, a.3, a.4, a.5, a.6, a.7, a.8, a.9, a.10⟩, by decide +kernel⟩

theorem witness_SymbolRunsItsUnitOperations : Shape hw { ready with samplePoint := zeroF } ∧ f32Le zeroF zeroF = true ∧
    f32Lt zeroF oneF = true := by
  obtain ⟨a, _, _⟩ := witness_shape
  exact ⟨⟨a.1, a.2, a.3, a.4, a.5, a.6, a.7, a.8, a.9, a.10⟩, by decide +kernel, by decide +kernel⟩

/-- R136's example meets the hypothesis with the fourth case. -/
theorem witness_LoopupdFiltersAndRearms : f32IsFinite (f32Add State.reset.observedSps (f32Mul eighthPiF obsGainF)) = true ∧
    f32Lt (obsHi hw State.reset) (f32Add State.reset.observedSps (f32Mul eighthPiF obsGainF)) = false ∧
    f32Lt (f32Add State.reset.observedSps (f32Mul eighthPiF obsGainF)) (obsLo hw State.reset) = false ∧
    f32Add State.reset.observedSps (f32Mul eighthPiF obsGainF) = 0x4126AB10#32 := by decide +kernel

theorem witness_LoopupdStaysBounded : Session hw ready ∧ f32IsNaN 0x7FC00000#32 = true :=
  ⟨witness_session, by decide +kernel⟩

theorem witness_TimingLoopIgnoresEqualizer : nextAnd (exec (.spsample oneF) State.reset) (fun _ => true) = true ∧
    nextAnd (exec (.spsample oneF) { State.reset with eqP := 1 }) (fun _ => true) = true := by decide +kernel

theorem witness_EqnoupdInserts : Shape hw ready := witness_shape.1

theorem witness_EqprocFiltersAndAdapts : Shape hw ready := witness_shape.1

theorem witness_EqsyncRetunes : Shape hw ready ∧ syncDibits.length = 24 := ⟨witness_shape.1, rfl⟩

/-- The least value the statement covers. -/
theorem witness_UpdobsSplitsExactly : f32IsFinite fourF = true ∧ f32Le fourF fourF = true := by decide +kernel

/-- A value on each side of the bound: -4 itself and the next binary32 below it. -/
theorem witness_UpdobsRunsOnEveryFiniteValue : f32IsFinite 0xC0800000#32 = true ∧ f32Le 0xC0800000#32 0xC0800000#32 = true ∧
    f32IsFinite 0xC0800001#32 = true ∧ f32Le 0xC0800000#32 0xC0800001#32 = false := by decide +kernel

theorem witness_DecideIsTotalAndMonotone : f32Le zeroF oneF = true := by decide +kernel

theorem witness_TerrClampsAndSigns : f32Lt eighthPiF (f32Sub (ideal .d01Plus3) zeroF) = true := by decide +kernel

/-- A distance beyond the clamp, and the ideal phase itself. -/
theorem witness_TerrIsBounded : f32IsNaN zeroF = false ∧ f32Le eighthPiF (f32Abs (f32Sub (ideal .d01Plus3) zeroF)) = true ∧
    f32IsNaN (ideal .d00Plus1) = false ∧ f32Lt zeroF oneF = true := by decide +kernel

theorem witness_SynccorrScoresAfterInsert : Shape hw ready ∧ f32Lt threeQPiF 0x41200000#32 = true :=
  ⟨witness_shape.1, by decide +kernel⟩

theorem witness_SyncScoreIsBounded : Shape hw ready ∧ f32IsNaN oneF = false ∧
    ∀ (k : Nat) (v : F32), ready.sdS[k]? = some v → f32Le (f32Abs v) threeQPiF = true := by
  refine ⟨witness_shape.1, by decide +kernel, fun k v h => ?_⟩
  have hv := List.eq_of_mem_replicate (List.mem_of_getElem? (show (List.replicate 48 zeroF)[k]? = some v from h))
  subst hv; decide +kernel

theorem witness_DdlpushSwapsOldest : Shape hw ready := witness_shape.1

theorem witness_DelayLineLatencyIs24 : Shape hw ready ∧ syncDibits.length = 24 := ⟨witness_shape.1, rfl⟩

theorem witness_DdlsyncReleasesPattern : Shape hw ready ∧ syncDibits.length = 24 := ⟨witness_shape.1, rfl⟩

theorem witness_ArithmeticRoundsOnceToNearestEven : f32IsFinite oneF = true ∧ f32IsFinite threeQPiF = true ∧
    f32IsZero threeQPiF = false := by decide +kernel

theorem witness_ComparisonsFollowValues : f32IsFinite zeroF = true ∧ f32IsFinite oneF = true ∧
    f32IsNaN 0x7FC00000#32 = true := by decide +kernel

end Sys2Proof.Tests
end

section
/-! PROOFS. What the numerics answer on finite operands (00_scope.md rule R7): each of the four operations answers the
binary32 nearest to the exact result, ties to even, and the comparisons are those of the values.

A ratio is bracketed by the pattern below it (`truncBody`) and the next one; rounding picks the end on the ratio's side of
their midpoint, and no value a pattern stands for lies strictly between the two ends. -/

namespace Sys2Proof.Machine

/-! The pattern below a ratio. -/

/-- Bits 30:0 of the greatest pattern, with no bound on the exponent, whose magnitude is not above `num / den` units. -/
def truncBody (num den : Nat) : Nat :=
  roundShift (num / den) * 8388608 + num / (den * 2 ^ roundShift (num / den))

/-- `sh * 2^23 + q` is the pattern of `q * 2^sh` units, for `q` of 24 bits (fewer in the subnormals) or `q = 2^24`. -/
theorem magBody_grid {sh q : Nat} (hq : q ≤ 16777216) (hlead : sh = 0 ∨ 8388608 ≤ q) :
    magBody (sh * 8388608 + q) = q * 2 ^ sh := by
  unfold magBody
  rcases Nat.lt_or_ge q 8388608 with hsub | hnorm
  · obtain rfl : sh = 0 := by omega
    rw [if_pos (by omega)]; simp
  · rw [if_neg (by omega)]
    rcases Nat.lt_or_ge q 16777216 with hlt | hge
    · have hexp : (sh * 8388608 + q) / 8388608 = sh + 1 := by omega
      have hfrac : (sh * 8388608 + q) % 8388608 + 8388608 = q := by omega
      rw [hexp, hfrac, Nat.add_sub_cancel]
    · obtain rfl : q = 16777216 := by omega
      have hexp : (sh * 8388608 + 16777216) / 8388608 = sh + 1 + 1 := by omega
      have hfrac : (sh * 8388608 + 16777216) % 8388608 = 0 := by omega
      rw [hexp, hfrac, Nat.add_sub_cancel, pow_succ]; omega

/-- The significand of `truncBody` has at most 24 bits. -/
theorem truncSig_lt (n d : Nat) : n / (d * 2 ^ roundShift (n / d)) < 16777216 := by
  have h := lt_two_pow_roundShift (n / d)
  rw [pow_add] at h
  rw [← Nat.div_div_eq_div_mul, Nat.div_lt_iff_lt_mul (by positivity)]
  linarith

/-- Above the subnormals the significand of `truncBody` has its leading bit. -/
theorem le_truncSig (n d : Nat) :
    roundShift (n / d) = 0 ∨ 8388608 ≤ n / (d * 2 ^ roundShift (n / d)) := by
  rcases Nat.eq_zero_or_pos (roundShift (n / d)) with h0 | hpos
  · exact Or.inl h0
  · have h := two_pow_roundShift_le hpos
    rw [pow_add] at h
    rw [← Nat.div_div_eq_div_mul, Nat.le_div_iff_mul_le (by positivity)]
    right; linarith

theorem magBody_truncBody (n d : Nat) :
    magBody (truncBody n d) = n / (d * 2 ^ roundShift (n / d)) * 2 ^ roundShift (n / d) :=
  magBody_grid (truncSig_lt n d).le (le_truncSig n d)

theorem magBody_truncBody_succ (n d : Nat) :
    magBody (truncBody n d + 1) = (n / (d * 2 ^ roundShift (n / d)) + 1) * 2 ^ roundShift (n / d) := by
  unfold truncBody
  rw [Nat.add_assoc]
  exact magBody_grid (Nat.succ_le_of_lt (truncSig_lt n d)) ((le_truncSig n d).imp_right Nat.le_succ_of_le)

theorem magBody_truncBody_le (n d : Nat) : magBody (truncBody n d) * d ≤ n := by
  calc magBody (truncBody n d) * d
      = n / (d * 2 ^ roundShift (n / d)) * (d * 2 ^ roundShift (n / d)) := by rw [magBody_truncBody]; ring
    _ ≤ n := Nat.div_mul_le_self _ _

theorem lt_magBody_truncBody_succ (n : Nat) {d : Nat} (hd : 0 < d) : n < magBody (truncBody n d + 1) * d := by
  calc n < (d * 2 ^ roundShift (n / d)) * (n / (d * 2 ^ roundShift (n / d)) + 1) :=
        Nat.lt_mul_div_succ n (by positivity)
    _ = magBody (truncBody n d + 1) * d := by rw [magBody_truncBody_succ]; ring

/-- Rounding compares the ratio with the midpoint of the two patterns that bracket it, and on the midpoint takes the even
one. -/
theorem roundUnbounded_eq (n d : Nat) :
    roundUnbounded n d =
      if (magBody (truncBody n d) + magBody (truncBody n d + 1)) * d < 2 * n ∨
          ((magBody (truncBody n d) + magBody (truncBody n d + 1)) * d = 2 * n ∧ truncBody n d % 2 = 1)
      then truncBody n d + 1 else truncBody n d := by
  have hmid : (magBody (truncBody n d) + magBody (truncBody n d + 1)) * d =
      2 * (d * 2 ^ roundShift (n / d) * (n / (d * 2 ^ roundShift (n / d)))) + d * 2 ^ roundShift (n / d) := by
    rw [magBody_truncBody, magBody_truncBody_succ]; ring
  have hdiv := Nat.div_add_mod n (d * 2 ^ roundShift (n / d))
  rw [hmid]
  unfold roundUnbounded truncBody
  rw [roundHalfEven_eq]
  split_ifs <;> omega

/-- No pattern stands for a value strictly between those of neighbouring patterns. -/
theorem f32Val_outside_step (z : F32) (b : Nat) : f32Val z ≤ magBody b ∨ (magBody (b + 1) : Int) ≤ f32Val z := by
  rw [f32Val_eq]
  split
  · omega
  · rcases Nat.lt_or_ge b (f32Body z) with h | h
    · exact Or.inr (by exact_mod_cast magBody_le_iff.mpr h)
    · exact Or.inl (by exact_mod_cast magBody_le_iff.mpr h)

/-! The rounded pattern is the nearest. -/

/-- No point outside the bracket `[a, b]` of `n` is nearer to `n` than the lower end, when `n` is not past the midpoint; only
on the midpoint is another as near. -/
theorem lowerEnd_nearest {n a b z : Int} (ha : a ≤ n) (hz : z ≤ a ∨ b ≤ z) (hmid : 2 * n ≤ a + b) :
    |n - a| ≤ |n - z| ∧ (|n - a| = |n - z| → z = a ∨ 2 * n = a + b) := by
  rw [abs_of_nonneg (sub_nonneg.mpr ha)]
  rcases hz with h | h
  · rw [abs_of_nonneg (by omega)]; omega
  · rw [abs_of_nonpos (by omega)]; omega

/-- `lowerEnd_nearest` for the upper end. -/
theorem upperEnd_nearest {n a b z : Int} (hb : n < b) (hz : z ≤ a ∨ b ≤ z) (hmid : a + b ≤ 2 * n) :
    |n - b| ≤ |n - z| ∧ (|n - b| = |n - z| → z = b ∨ 2 * n = a + b) := by
  rw [abs_of_neg (sub_neg.mpr hb)]
  rcases hz with h | h
  · rw [abs_of_nonneg (by omega)]; omega
  · rw [abs_of_nonpos (by omega)]; omega

/-- No pattern's value is nearer to `n / d` than that of the pattern it rounds to; another value is as near only where that
pattern is even. -/
theorem roundUnbounded_nearest (n : Nat) {d : Nat} (hd : 0 < d) (z : F32) :
    |(n : Int) - magBody (roundUnbounded n d) * d| ≤ |(n : Int) - f32Val z * d| ∧
    (|(n : Int) - magBody (roundUnbounded n d) * d| = |(n : Int) - f32Val z * d| →
      f32Val z = magBody (roundUnbounded n d) ∨ roundUnbounded n d % 2 = 0) := by
  have hd' : (0 : Int) < d := by exact_mod_cast hd
  have hlo : (magBody (truncBody n d) * d : Int) ≤ n := by exact_mod_cast magBody_truncBody_le n d
  have hhi : (n : Int) < magBody (truncBody n d + 1) * d := by exact_mod_cast lt_magBody_truncBody_succ n hd
  have hz : f32Val z * d ≤ magBody (truncBody n d) * d ∨ (magBody (truncBody n d + 1) * d : Int) ≤ f32Val z * d :=
    (f32Val_outside_step z (truncBody n d)).imp (mul_le_mul_of_nonneg_right · hd'.le)
      (mul_le_mul_of_nonneg_right · hd'.le)
  have cancel : ∀ m : Int, f32Val z * d = m * d → f32Val z = m := fun m h => mul_right_cancel₀ hd'.ne' h
  rw [roundUnbounded_eq]
  split_ifs with hup <;> zify at hup <;> rw [add_mul] at hup
  · obtain ⟨hle, htie⟩ := upperEnd_nearest hhi hz (by omega)
    exact ⟨hle, fun h => (htie h).imp (cancel _) fun hm => by omega⟩
  · obtain ⟨hle, htie⟩ := lowerEnd_nearest hlo hz (by omega)
    exact ⟨hle, fun h => (htie h).imp (cancel _) fun hm => by omega⟩

/-- A ratio that rounds above the pattern `b` is above its magnitude. -/
theorem magBody_lt_of_lt_roundUnbounded {n d b : Nat} (hd : 0 < d) (h : b < roundUnbounded n d) :
    magBody b * d < n := by
  have hlo := magBody_truncBody_le n d
  rw [roundUnbounded_eq] at h
  split_ifs at h with hup
  · have hle : magBody b * d ≤ magBody (truncBody n d) * d :=
      Nat.mul_le_mul_right d (magBody_le_iff.mpr (Nat.lt_succ_iff.mp h))
    have hstep : magBody (truncBody n d) * d < magBody (truncBody n d + 1) * d :=
      Nat.mul_lt_mul_of_pos_right (magBody_succ _) hd
    rw [add_mul] at hup
    omega
  · exact lt_of_lt_of_le (Nat.mul_lt_mul_of_pos_right (magBody_lt_iff.mpr h) hd) hlo

/-! Signs. -/

theorem f32Val_of_key_nonneg {x : F32} (h : 0 ≤ f32Key x) : f32Val x = magBody (f32Body x) := by
  rw [f32Val_eq]
  unfold f32Key at h
  split_ifs at h ⊢ with hs
  · have h0 : f32Body x = 0 := by omega
    simp [h0, magBody_zero]
  · rfl

theorem roundKey_neg (v : Int) (d : Nat) : roundKey (-v) d = -roundKey v d := by
  unfold roundKey
  rw [Int.natAbs_neg]
  rcases lt_trichotomy v 0 with h | rfl | h
  · rw [if_neg (by omega), if_pos h, neg_neg]
  · simp [f32RoundBody_zero]
  · rw [if_pos (by omega), if_neg (by omega)]

/-- Being nearest is kept when both the pattern and the number are negated. -/
theorem NearestEven.neg {r : F32} {v : Int} {d : Nat} (h : NearestEven r v d) : NearestEven (f32Neg r) (-v) d := by
  have flip : ∀ w : F32, |-v - f32Val w * d| = |v - f32Val (f32Neg w) * d| := fun w => by
    rw [f32Val_neg, ← abs_neg]; congr 1; ring
  refine ⟨by simpa using h.notNaN, fun hr z hz => ?_, fun hr z hz heq => ?_, fun hr z hz => ?_⟩
  · rw [flip, flip, f32Neg_neg]
    exact h.nearest (by simpa using hr) _ (by simpa using hz)
  · rw [flip, flip, f32Neg_neg] at heq
    have htie := h.ties (by simpa using hr) (f32Neg z) (by simpa using hz) heq
    rw [f32Val_neg] at htie
    rw [f32Val_neg, f32Body_neg]
    exact htie.imp_left neg_eq_iff_eq_neg.mp
  · rw [abs_neg]
    exact h.overflow (by simpa using hr) z hz

/-- What a ratio that is not negative rounds to is the nearest binary32. -/
theorem nearestEven_of_key_natCast {r : F32} {n d : Nat} (hd : 0 < d) (hn : f32IsNaN r = false)
    (hk : f32Key r = roundKey n d) : NearestEven r n d := by
  have hkey : f32Key r = f32RoundBody n d := by rw [hk]; simp [roundKey]
  have hbody : f32Body r = min (roundUnbounded n d) 2139095040 := by
    rw [← f32RoundBody_eq, ← f32Key_natAbs, hkey, Int.natAbs_natCast]
  have hval : f32Val r = magBody (f32Body r) := f32Val_of_key_nonneg (by omega)
  have hfin : f32IsFinite r = true → f32Body r = roundUnbounded n d := fun hr => by
    rw [f32IsFinite_iff] at hr; omega
  refine ⟨hn, fun hr z _ => ?_, fun hr z _ => ?_, fun hr z hz => ?_⟩
  · rw [hval, hfin hr]
    exact (roundUnbounded_nearest n hd z).1
  · rw [hval, hfin hr]
    exact (roundUnbounded_nearest n hd z).2
  · have hover : f32Body z < roundUnbounded n d := by
      rw [f32IsFinite_iff] at hz
      rw [Bool.eq_false_iff, ne_eq, f32IsFinite_iff] at hr
      omega
    rw [Int.abs_eq_natAbs, f32Val_natAbs, f32Mag_eq, Nat.abs_cast]
    exact_mod_cast magBody_lt_of_lt_roundUnbounded hd hover

/-- A pattern at the place a signed ratio rounds to is the nearest binary32 to that ratio. -/
theorem nearestEven_of_key {r : F32} {v : Int} {d : Nat} (hd : 0 < d)
    (hr : f32IsNaN r = false ∧ f32Key r = roundKey v d) : NearestEven r v d := by
  obtain ⟨hn, hk⟩ := hr
  rcases le_total 0 v with h | h
  · lift v to Nat using h
    exact nearestEven_of_key_natCast hd hn hk
  · obtain ⟨n, hv⟩ := Int.eq_ofNat_of_zero_le (neg_nonneg.mpr h)
    have hneg : NearestEven (f32Neg r) (-v) d := by
      rw [hv]
      refine nearestEven_of_key_natCast hd (by simpa using hn) ?_
      rw [f32Key_neg, hk, ← hv, roundKey_neg]
    simpa using hneg.neg

/-! The four operations, and the comparisons. -/

/-- The exact quotient's numerator, with the sign of the denominator moved into it. -/
theorem f32Val_mul_units_sign (x : F32) {y : F32} (hy : 0 < f32Mag y) :
    f32Val x * unitsPerOne * (f32Val y).sign =
      if (f32Sign x != f32Sign y) then -((f32Mag x * unitsPerOne : Nat) : Int)
      else ((f32Mag x * unitsPerOne : Nat) : Int) := by
  have hs : (f32Mag y : Int).sign = 1 := Int.sign_eq_one_of_pos (by exact_mod_cast hy)
  unfold f32Val
  cases f32Sign x <;> cases f32Sign y <;> simp [hs]

theorem f32Div_nearest {x y : F32} (hx : f32IsFinite x = true) (hy : f32IsFinite y = true) (h0 : f32IsZero y = false) :
    NearestEven (f32Div x y) (f32Val x * unitsPerOne * (f32Val y).sign) (f32Val y).natAbs := by
  have hmag : 0 < f32Mag y := by
    rw [Bool.eq_false_iff, ne_eq, f32IsZero_iff] at h0
    rw [f32Mag_eq, Nat.pos_iff_ne_zero, ne_eq, magBody_eq_zero]
    exact h0
  rw [f32Val_natAbs, f32Val_mul_units_sign x hmag]
  exact nearestEven_of_key hmag (f32Div_key hx hy h0)

/-- Settles O58: every one of the four answers the pattern at the place its exact result rounds to. -/
theorem arithmeticRoundsOnceToNearestEven : Obligations.ArithmeticRoundsOnceToNearestEven := by
  intro x y hx hy
  exact ⟨nearestEven_of_key one_pos (f32Add_key hx hy), nearestEven_of_key one_pos (f32Sub_key hx hy),
    nearestEven_of_key unitsPerOne_pos (f32Mul_key hx hy), f32Div_nearest hx hy⟩

theorem f32Eq_iff {x y : F32} (hx : f32IsNaN x = false) (hy : f32IsNaN y = false) :
    f32Eq x y = true ↔ f32Key x = f32Key y := by simp [f32Eq, hx, hy]

theorem comparisons_of_nan {x y : F32} (h : f32IsNaN x = true ∨ f32IsNaN y = true) :
    f32Lt x y = false ∧ f32Le x y = false ∧ f32Eq x y = false := by
  rcases h with h | h <;> simp [f32Lt, f32Le, f32Eq, h]

/-- Settles O59: the order of values is the order of patterns, which the comparisons test. -/
theorem comparisonsFollowValues : Obligations.ComparisonsFollowValues := by
  intro x y
  refine ⟨fun hx hy => ?_, comparisons_of_nan, by decide⟩
  have hnx := f32IsNaN_eq_false hx
  have hny := f32IsNaN_eq_false hy
  exact ⟨(f32Lt_iff hnx hny).trans (f32Val_lt_iff x y).symm, (f32Le_iff hnx hny).trans (f32Val_le_iff x y).symm,
    (f32Eq_iff hnx hny).trans (f32Val_eq_iff x y).symm⟩

end Sys2Proof.Machine
end

section
/-! PROOFS. Everything an instruction and a step can do, said once (10_state.md rules R21 to R45; 30_encoding.md rules R87,
R96, R209).

`UnitEffect` lists what a unit operation leaves besides the latch `ret`, `CommandEffect` what a command leaves, and
`step_cases` says that a step does nothing else. `StepInvariant.step` then reduces an invariant of every step to what the
operations do to it. -/

namespace Sys2Proof.Machine

/-! Unit operations. -/

/-- The states a unit operation run in `s` can leave, the latch `ret` apart. -/
inductive UnitEffect (s : State) : State → Prop
  /-- An operation that answers a value and writes no state. -/
  | value : UnitEffect s s
  | spsample {phi : F32} {u : State} (h : spSampleOp hw phi s = .ok u) : UnitEffect s u
  | symbol {u : State} (h : symbolOp hw s = .ok u) : UnitEffect s u
  | loopupd (eps : F32) : UnitEffect s (loopUpdOp hw eps s)
  | eqproc {d : Dibit} {ph : F32} {p : State × F32} (h : eqProcOp hw d ph s = .ok p) : UnitEffect s p.1
  | eqnoupd {d : Dibit} {ph : F32} {u : State} (h : eqInsertOp hw d ph s = .ok u) : UnitEffect s u
  | eqsync {ds : List Dibit} {u : State} (h : eqSyncOp hw ds s = .ok u) : UnitEffect s u
  | updobs {sps : F32} {u : State} (h : updObsOp hw sps s = .ok u) : UnitEffect s u
  | synccorr {ph : F32} {p : State × F32} (h : syncCorrOp hw ph s = .ok p) : UnitEffect s p.1
  | ddlpush {d : Dibit} {p : State × Dibit} (h : ddlPushOp d s = .ok p) : UnitEffect s p.1
  | ddlsync {u : State} (h : ddlSyncOp s = .ok u) : UnitEffect s u

theorem UnitEffect.of_outcomeRet {s t : State} {r : Res Ret} (h : outcomeRet s r = .next t) :
    ∃ u r, UnitEffect s u ∧ t = { u with ret := r } := by
  obtain ⟨v, _, rfl⟩ := outcomeRet_eq_next.mp h
  exact ⟨s, v, .value, rfl⟩

/-- An operation that answers a state, run on its own. -/
theorem UnitEffect.of_outcome {α : Type} {s t : State} {x : Res α} {f : α → State} {g : α → Ret}
    (h : outcome (x >>= fun a => .ok { f a with ret := g a }) = .next t) (hx : ∀ a, x = .ok a → UnitEffect s (f a)) :
    ∃ u r, UnitEffect s u ∧ t = { u with ret := r } := by
  obtain ⟨a, ha, ht⟩ := bind_eq_ok.mp (outcome_eq_next.mp h)
  cases ht
  exact ⟨f a, g a, hx a ha, rfl⟩

theorem exec_unit {i : Instr} {s t : State} (hi : i.isCommand = false) (h : exec i s = .next t) :
    ∃ u r, UnitEffect s u ∧ t = { u with ret := r } := by
  cases i with
  | cfg _ _ _ | setfs _ | rst | recv _ _ | rdcsr _ => cases hi
  | interp sp off mu => exact UnitEffect.of_outcomeRet h
  | diff x => exact UnitEffect.of_outcomeRet h
  | cmulc pI pQ cI cQ => cases h; exact ⟨s, _, .value, rfl⟩
  | phase dQ dI => cases h; exact ⟨s, _, .value, rfl⟩
  | unwrap c p => cases h; exact ⟨s, _, .value, rfl⟩
  | decidePhi phi => cases h; exact ⟨s, _, .value, rfl⟩
  | terr d prec cur foll => cases h; exact ⟨s, _, .value, rfl⟩
  | loopupd eps => cases h; exact ⟨_, _, .loopupd eps, rfl⟩
  | spsample phi => exact UnitEffect.of_outcome (f := id) (g := fun _ => .none) h fun _ => .spsample
  | symbol => exact UnitEffect.of_outcome (f := id) (g := fun _ => .none) h fun _ => .symbol
  | eqproc d ph => exact UnitEffect.of_outcome (f := Prod.fst) (g := fun p => .f32 p.2) h fun _ => .eqproc
  | eqnoupd d ph => exact UnitEffect.of_outcome (f := id) (g := fun _ => .none) h fun _ => .eqnoupd
  | eqsync ds => exact UnitEffect.of_outcome (f := id) (g := fun _ => .none) h fun _ => .eqsync
  | updobs sps => exact UnitEffect.of_outcome (f := id) (g := fun _ => .none) h fun _ => .updobs
  | synccorr ph => exact UnitEffect.of_outcome (f := Prod.fst) (g := fun p => .f32 p.2) h fun _ => .synccorr
  | ddlpush d => exact UnitEffect.of_outcome (f := Prod.fst) (g := fun p => .dibit p.2) h fun _ => .ddlpush
  | ddlsync => exact UnitEffect.of_outcome (f := id) (g := fun _ => .none) h fun _ => .ddlsync

/-! What a unit operation does not write. -/

/-- The fields that host commands and the host alone write are the same in both states (R15, R21, R22, R26, R27, R43, R44,
R87, R90). -/
structure SameFacade (s t : State) : Prop where
  port : t.port = s.port
  resp : t.resp = s.resp
  micro : t.micro = s.micro
  symbolRate : t.symbolRate = s.symbolRate
  sampleRate : t.sampleRate = s.sampleRate
  retuneEn : t.retuneEn = s.retuneEn
  nominalSps : t.nominalSps = s.nominalSps
  ibuf : t.ibuf = s.ibuf
  qbuf : t.qbuf = s.qbuf
  bufLen : t.bufLen = s.bufLen

theorem SameFacade.refl (s : State) : SameFacade s s := ⟨rfl, rfl, rfl, rfl, rfl, rfl, rfl, rfl, rfl, rfl⟩

theorem SameFacade.trans {s t u : State} (h : SameFacade s t) (k : SameFacade t u) : SameFacade s u :=
  ⟨k.port.trans h.port, k.resp.trans h.resp, k.micro.trans h.micro, k.symbolRate.trans h.symbolRate,
    k.sampleRate.trans h.sampleRate, k.retuneEn.trans h.retuneEn, k.nominalSps.trans h.nominalSps, k.ibuf.trans h.ibuf,
    k.qbuf.trans h.qbuf, k.bufLen.trans h.bufLen⟩

/-- A state that differs in the unit operations' own fields only has the same facade fields. -/
theorem SameFacade.of_frame {s t : State}
    (h : t = { s with
      mu := t.mu, ioff := t.ioff, overlap := t.overlap, observedSps := t.observedSps, samplePoint := t.samplePoint
      previousPhase := t.previousPhase, ssr := t.ssr, noisy := t.noisy, seq := t.seq, dly := t.dly, dlyPtr := t.dlyPtr
      eqZ := t.eqZ, eqA := t.eqA, eqP := t.eqP, eqQ := t.eqQ, sdS := t.sdS, sdI := t.sdI, ddl := t.ddl
      ddlPtr := t.ddlPtr, outq := t.outq }) : SameFacade s t := by
  rw [h]; exact ⟨rfl, rfl, rfl, rfl, rfl, rfl, rfl, rfl, rfl, rfl⟩

theorem UnitEffect.sameFacade {s u : State} (h : UnitEffect s u) : SameFacade s u := by
  cases h with
  | value => exact .refl s
  | spsample h => obtain ⟨_, _, hf⟩ := spSampleOp_frame h; exact .of_frame (by rw [hf])
  | symbol h => obtain ⟨_, _, _, _, hf⟩ := symbolOp_frame h; exact .of_frame (by rw [hf])
  | loopupd eps => exact .of_frame rfl
  | eqproc h => exact .of_frame (by rw [eqProcOp_frame h])
  | eqnoupd h => obtain ⟨_, _, hf⟩ := eqInsertOp_eq_ok.mp h; exact .of_frame (by rw [hf])
  | eqsync h => exact .of_frame (by rw [eqSyncOp_frame h])
  | updobs h => obtain ⟨_, _, hf⟩ := updObsOp_eq_ok.mp h; exact .of_frame (by rw [hf])
  | synccorr h => obtain ⟨_, _, hf, _⟩ := syncCorrOp_eq_ok.mp h; exact .of_frame (by rw [hf])
  | ddlpush h => obtain ⟨_, hf⟩ := ddlPushOp_eq_ok.mp h; exact .of_frame (by rw [hf])
  | ddlsync h => obtain ⟨_, _, hf⟩ := ddlSyncOp_eq_ok.mp h; exact .of_frame (by rw [hf])

/-! Commands. -/

theorem configureOp_cases {c : Cfg} {sr : Word} {fs : F32} {b : Bool} {s t : State}
    (h : configureOp c sr fs b s = .ok t) :
    t = raise .configError (natWord (check c sr fs)) s ∨
      check c sr fs = 0 ∧ ∃ u, resetOp c (setRates c sr fs b s) = .ok u ∧ t = respondOk [] u := by
  unfold configureOp at h
  dsimp only at h
  split_ifs at h with hc
  · obtain ⟨u, hu, ht⟩ := bind_eq_ok.mp h
    cases ht; exact .inr ⟨hc, u, hu, rfl⟩
  · cases h; exact .inl rfl

theorem recvOp_cases {c : Cfg} {batch : List (F32 × F32)} {s t : State} (h : recvOp c batch s = .ok t) :
    t = raise .batchTooLarge (natWord batch.length) s ∨
      ∃ p u, recvPlace c batch s = .ok p ∧ recvBlocks c batch.length batch.length 0 p = .ok u ∧ t = recvHandOver u := by
  unfold recvOp at h
  split_ifs at h
  · cases h; exact .inl rfl
  · obtain ⟨p, hp, h⟩ := bind_eq_ok.mp h
    obtain ⟨u, hu, ht⟩ := bind_eq_ok.mp h
    cases ht; exact .inr ⟨p, u, hp, hu, rfl⟩

/-- The states a command run in `s` can leave: a command fault (R207), or what its rule gives. -/
inductive CommandEffect (s : State) : Instr → State → Prop
  | fault (i : Instr) (f : CmdFault) (w : Word) : CommandEffect s i (raise f w s)
  | cfg {b : Bool} {sr : Word} {fs : F32} {u : State} (hc : check hw sr fs = 0)
      (hr : resetOp hw (setRates hw sr fs b s) = .ok u) : CommandEffect s (.cfg b sr fs) (respondOk [] u)
  | setfs {fs : F32} {u : State} (hc : check hw s.symbolRate fs = 0)
      (hr : resetOp hw (setRates hw s.symbolRate fs s.retuneEn s) = .ok u) : CommandEffect s (.setfs fs) (respondOk [] u)
  | rst {u : State} (hr : resetOp hw s = .ok u) : CommandEffect s .rst (respondOk [] u)
  | recv {ts : BitVec 64} {batch : List (F32 × F32)} {p u : State} (hp : recvPlace hw batch s = .ok p)
      (hu : recvBlocks hw batch.length batch.length 0 p = .ok u) : CommandEffect s (.recv ts batch) (recvHandOver u)
  | rdcsr (addr : BitVec 12) (w : Word) : CommandEffect s (.rdcsr addr) (respondOk [w] s)

theorem exec_command {i : Instr} {s t : State} (hi : i.isCommand = true) (h : exec i s = .next t) :
    CommandEffect s i t := by
  cases i with
  | cfg b sr fs =>
    rcases configureOp_cases (outcome_eq_next.mp h) with rfl | ⟨hc, u, hr, rfl⟩
    · exact .fault _ _ _
    · exact .cfg hc hr
  | setfs fs =>
    rcases configureOp_cases (outcome_eq_next.mp h) with rfl | ⟨hc, u, hr, rfl⟩
    · exact .fault _ _ _
    · exact .setfs hc hr
  | rst =>
    obtain ⟨u, hr, ht⟩ := bind_eq_ok.mp (outcome_eq_next.mp h)
    cases ht; exact .rst hr
  | recv ts batch =>
    rcases recvOp_cases (outcome_eq_next.mp h) with rfl | ⟨p, u, hp, hu, rfl⟩
    · exact .fault _ _ _
    · exact .recv hp hu
  | rdcsr addr =>
    obtain ⟨v, _, ht⟩ := bind_eq_ok.mp (outcome_eq_next.mp h)
    cases v with
    | none => cases ht; exact .fault _ _ _
    | some w => cases ht; exact .rdcsr addr w
  | interp _ _ _ | cmulc _ _ _ _ | phase _ _ | diff _ | unwrap _ _ | spsample _ | symbol | loopupd _ | eqproc _ _
  | eqnoupd _ _ | eqsync _ | updobs _ | decidePhi _ | terr _ _ _ _ | synccorr _ | ddlpush _ | ddlsync => cases hi

/-! Step 2 of `RECV`. -/

/-- The samples of a block are a run of `SPSAMPLE`s, so whatever each keeps, the block keeps. -/
theorem spSampleAll_keeps {c : Cfg} {P : State → Prop}
    (hsample : ∀ phi s u, spSampleOp c phi s = .ok u → P s → P u) {ps : List F32} {s t : State}
    (h : spSampleAll c ps s = .ok t) (hs : P s) : P t := by
  induction ps generalizing s with
  | nil => cases h; exact hs
  | cons p ps ih =>
    obtain ⟨a, ha, h⟩ := bind_eq_ok.mp h
    exact ih h (hsample p s a ha hs)

/-- The blocks of a batch are a run of `SPSAMPLE`s and `UPDOBS`s, so whatever these keep, the batch keeps. -/
theorem recvBlocks_keeps {c : Cfg} {P : State → Prop}
    (hsample : ∀ phi s u, spSampleOp c phi s = .ok u → P s → P u)
    (hupdobs : ∀ sps s u, updObsOp c sps s = .ok u → P s → P u) {n fuel x : Nat} {s t : State}
    (h : recvBlocks c n fuel x s = .ok t) (hs : P s) : P t := by
  induction fuel generalizing x s with
  | zero => cases h; exact hs
  | succ fuel ih =>
    unfold recvBlocks at h
    split_ifs at h
    · obtain ⟨a, ha, h⟩ := bind_eq_ok.mp h
      obtain ⟨phs, _, ha⟩ := bind_eq_ok.mp ha
      obtain ⟨b, hb, ha⟩ := bind_eq_ok.mp ha
      exact ih h (hupdobs _ b a ha (spSampleAll_keeps hsample hb hs))
    · cases h; exact hs

theorem recvBlocks_sameFacade {n fuel x : Nat} {s t : State} (h : recvBlocks hw n fuel x s = .ok t) : SameFacade s t :=
  recvBlocks_keeps (P := SameFacade s) (fun _ _ _ hu hs => hs.trans (UnitEffect.spsample hu).sameFacade)
    (fun _ _ _ hu hs => hs.trans (UnitEffect.updobs hu).sameFacade) h (.refl s)

/-- `SEQ` is in AWAIT after step 2 of `RECV` if it was before: `SYMBOL` ends there, and no other operation of the step
writes it (R33, R134). -/
theorem recvBlocks_seq {c : Cfg} {n fuel x : Nat} {s t : State} (h : recvBlocks c n fuel x s = .ok t)
    (hs : s.seq = .await) : t.seq = .await := by
  refine recvBlocks_keeps (P := fun u => u.seq = .await) (fun _ a b hb ha => ?_) (fun _ a b hb ha => ?_) h hs
  · obtain ⟨_, hseq, _⟩ := spSampleOp_frame hb
    exact hseq ha
  · obtain ⟨_, _, rfl⟩ := updObsOp_eq_ok.mp hb
    exact ha

/-! One step. -/

/-- The port's decoder reads commands only (R15, R88). -/
theorem decode_isCommand {ws rest : List Word} {i : Instr} (h : decode ws = .ok (i, rest)) : i.isCommand = true := by
  unfold decode at h
  repeat' split at h
  all_goals cases h
  all_goals rfl

/-- What a decoder answers, if it reads an instruction at all, is a unit operation. -/
def ReadsUnit (r : Except DecodeError (Instr × List Word)) : Prop := ∀ i ws, r = .ok (i, ws) → i.isCommand = false

theorem ReadsUnit.ite {p : Prop} [Decidable p] {r r' : Except DecodeError (Instr × List Word)} (h : ReadsUnit r)
    (h' : ReadsUnit r') : ReadsUnit (if p then r else r') := by
  split_ifs
  · exact h
  · exact h'

theorem ReadsUnit.ok {i : Instr} {ws : List Word} (h : i.isCommand = false) : ReadsUnit (.ok (i, ws)) := by
  rintro _ _ ⟨⟩
  exact h

theorem ReadsUnit.error {e : DecodeError} : ReadsUnit (.error e) := by
  rintro _ _ ⟨⟩

theorem ReadsUnit.withOperand {α : Type} {w : Word} {o : Option α} {ws : List Word} {f : α → Instr}
    (h : ∀ a, (f a).isCommand = false) : ReadsUnit (withOperand w o ws f) := by
  cases o with
  | none => exact .error
  | some a => exact .ok (h a)

/-- The slot's decoder reads unit operations only (R96): every number's arm is an instruction that is none, a checked operand
of one, or an error. -/
theorem decodeMicro_isUnit {ws rest : List Word} {i : Instr} (h : decodeMicro ws = .ok (i, rest)) :
    i.isCommand = false := by
  refine (?_ : ReadsUnit (decodeMicro ws)) i rest h
  cases ws with
  | nil => exact .error
  | cons w ws =>
    unfold decodeMicro
    dsimp only
    repeat' refine ReadsUnit.ite ?_ ?_
    all_goals try split
    all_goals first
      | exact .error
      | exact .ok rfl
      | exact .withOperand fun _ => rfl
      | exact .ite (.ok rfl) .error

/-- Everything a step can do: hold the state, refuse an illegal header, run a command from the port, or run a unit
operation from the slot. -/
theorem step_cases {s t : State} (h : step s = .next t) :
    s.micro = [] ∧
        (t = s ∨ (∃ w ws, t = raise .illegalCommand w { s with port := ws }) ∨
          ∃ i ws, CommandEffect { s with port := ws } i t) ∨
      s.micro ≠ [] ∧ ∃ ws u r, UnitEffect { s with micro := ws } u ∧ t = { u with ret := r } := by
  unfold step at h
  split_ifs at h with hm
  · refine .inl ⟨List.isEmpty_iff.mp hm, ?_⟩
    unfold stepPort at h
    split at h
    next i ws hd => exact .inr (.inr ⟨i, ws, exec_command (decode_isCommand hd) h⟩)
    next w _ => cases h; exact .inr (.inl ⟨w, _, rfl⟩)
    next => cases h; exact .inl rfl
  · refine .inr ⟨fun h0 => hm (List.isEmpty_iff.mpr h0), ?_⟩
    unfold stepMicro at h
    split at h
    next i ws hd => exact ⟨ws, exec_unit (decodeMicro_isUnit hd) h⟩
    next => cases h

/-! Invariants of every step. -/

/-- What makes a predicate an invariant of every step: it does not speak of the lists by which the block meets its host, nor
of the latch, and the operations keep it. -/
structure StepInvariant (P : State → Prop) : Prop where
  lists : ∀ s outq port resp micro ret, P s →
    P { s with outq := outq, port := port, resp := resp, micro := micro, ret := ret }
  unit : ∀ s u, UnitEffect s u → P s → P u
  place : ∀ s p batch, recvPlace hw batch s = .ok p → P s → P p
  configure : ∀ s u sr fs b, check hw sr fs = 0 → resetOp hw (setRates hw sr fs b s) = .ok u → P s → P u
  restart : ∀ s u, resetOp hw s = .ok u → P s → P u

theorem StepInvariant.command {P : State → Prop} (hP : StepInvariant P) {i : Instr} {s t : State}
    (h : CommandEffect s i t) (hs : P s) : P t := by
  cases h with
  | fault f w => exact hP.lists s _ _ _ _ _ hs
  | cfg hc hr => exact hP.lists _ _ _ _ _ _ (hP.configure _ _ _ _ _ hc hr hs)
  | setfs hc hr => exact hP.lists _ _ _ _ _ _ (hP.configure _ _ _ _ _ hc hr hs)
  | rst hr => exact hP.lists _ _ _ _ _ _ (hP.restart _ _ hr hs)
  | @recv _ _ p u hp hu =>
    have hu := recvBlocks_keeps (fun _ s u h => hP.unit s u (.spsample h)) (fun _ s u h => hP.unit s u (.updobs h)) hu
      (hP.place _ _ _ hp hs)
    exact hP.lists u _ _ _ _ _ hu
  | rdcsr addr w => exact hP.lists s _ _ _ _ _ hs

/-- An invariant of the operations is one of every step, whatever it ran. -/
theorem StepInvariant.step {P : State → Prop} (hP : StepInvariant P) {s t : State} (h : step s = .next t) (hs : P s) :
    P t := by
  rcases step_cases h with ⟨_, rfl | ⟨w, ws, rfl⟩ | ⟨i, ws, hc⟩⟩ | ⟨_, ws, u, r, hu, rfl⟩
  · exact hs
  · exact hP.lists s _ _ _ _ _ hs
  · exact hP.command hc (hP.lists s _ _ _ _ _ hs)
  · exact hP.lists u _ _ _ _ _ (hP.unit _ _ hu (hP.lists s _ _ _ _ _ hs))

end Sys2Proof.Machine
end

section
/-! PROOFS. The invariants of every step: the register files (10_state.md rules R34 to R41, R47), the timing loop's bounds
(R28; 42_symbol_processor.md rule R136) and the sample memories' form (R44); the command boundary (R33, R45); and who
writes the session's registers (R21, R22, R27, R43). -/

namespace Sys2Proof.Machine

/-! The register files. -/

theorem spSampleOp_files {c : Cfg} {phi : F32} {s t : State} (h : spSampleOp c phi s = .ok t) (hf : Files c s) :
    Files c t := by
  obtain ⟨a, ha, h⟩ := bind_eq_ok.mp h
  have hfa := spInsertOp_files ha hf
  split_ifs at h
  · exact symbolOp_files h hfa
  · cases h; exact hfa

/-- A ring of one value has equal halves. -/
theorem replicate_halves {α : Type} (m : Nat) (v : α) :
    ∀ j, j < m → (List.replicate (2 * m) v)[j]? = (List.replicate (2 * m) v)[j + m]? := by
  intro j hj
  rw [List.getElem?_replicate_of_lt (by omega), List.getElem?_replicate_of_lt (by omega)]

theorem resetTaps_length (c : Cfg) : (resetTaps c).length = c.len := by
  simp [resetTaps, Cfg.len]
  omega

theorem resetTaps_centre (c : Cfg) : (resetTaps c)[c.n]? = some oneF := by
  simp [resetTaps]

/-- `RESET` leaves sound register files in whatever state it is run (R230). -/
theorem resetState_files (c : Cfg) (f : Int) (s : State) : Files c (resetState c f s) where
  shape :=
    { dly := List.length_replicate, dlyPtr := Nat.zero_lt_succ 7, eqZ := List.length_replicate, eqA := List.length_replicate
      eqQ := resetTaps_length c, eqP := cfgLen_pos c, sdS := List.length_replicate, sdI := Nat.zero_lt_succ 23
      ddl := List.length_replicate, ddlPtr := Nat.zero_lt_succ 23 }
  rings :=
    { dly := replicate_halves 8 zeroF, eqZ := replicate_halves c.len zeroF, eqA := replicate_halves c.len zeroF
      sdS := replicate_halves 24 zeroF }
  centre := resetTaps_centre c

theorem resetOp_files {c : Cfg} {s t : State} (h : resetOp c s = .ok t) : Files c t := by
  obtain ⟨f, _, _, rfl⟩ := resetOp_eq_ok.mp h
  exact resetState_files c f s

theorem UnitEffect.files {s u : State} (h : UnitEffect s u) (hf : Files hw s) : Files hw u := by
  cases h with
  | value => exact hf
  | spsample h => exact spSampleOp_files h hf
  | symbol h => exact symbolOp_files h hf
  | loopupd eps => exact hf.congr rfl rfl rfl rfl rfl rfl rfl rfl rfl rfl
  | eqproc h => exact eqProcOp_files h hf
  | eqnoupd h => exact eqInsertOp_files h hf
  | eqsync h => exact eqSyncOp_files h hf
  | updobs h =>
    obtain ⟨_, _, rfl⟩ := updObsOp_eq_ok.mp h
    exact hf.congr rfl rfl rfl rfl rfl rfl rfl rfl rfl rfl
  | synccorr h => exact syncCorrOp_files h hf
  | ddlpush h => exact ddlPushOp_files h hf
  | ddlsync h => exact ddlSyncOp_files h hf

theorem recvPlace_files {s p : State} {batch : List (F32 × F32)} (h : recvPlace hw batch s = .ok p) (hf : Files hw s) :
    Files hw p := by
  obtain ⟨⟨rfl, _⟩ | ⟨hp, _⟩, _⟩ := recvPlace_frame h
  · exact hf
  · rw [hp]; exact hf.congr rfl rfl rfl rfl rfl rfl rfl rfl rfl rfl

theorem files_invariant : StepInvariant (Files hw) where
  lists _ _ _ _ _ _ hf := hf.congr rfl rfl rfl rfl rfl rfl rfl rfl rfl rfl
  unit _ _ hu hf := hu.files hf
  place _ _ _ hp hf := recvPlace_files hp hf
  configure _ _ _ _ _ _ hr _ := resetOp_files hr
  restart _ _ hr _ := resetOp_files hr

/-- Settles O15: every operation that answers keeps the register files, and `RESET` writes sound ones. -/
theorem stepKeepsRegisterFiles : Obligations.StepKeepsRegisterFiles := by
  intro s t hshape hrings hcentre h
  obtain ⟨hshape', hrings', hcentre'⟩ := files_invariant.step h ⟨hshape, hrings, hcentre⟩
  exact ⟨hshape', hrings', hcentre'⟩

/-! The timing loop. -/

/-- The rates are accepted and the loop is within the bounds they give (R28, R172). -/
structure LoopSound (s : State) : Prop where
  session : Session hw s
  loop : LoopBounded hw s

/-- The loop's soundness depends on the session and `OBSERVED_SPS` only. -/
theorem LoopSound.congr {s t : State} (h : LoopSound s) (hsr : t.symbolRate = s.symbolRate)
    (hfs : t.sampleRate = s.sampleRate) (hnom : t.nominalSps = s.nominalSps) (hobs : t.observedSps = s.observedSps) :
    LoopSound t := by
  obtain ⟨⟨hcheck, hquot⟩, hfin, hlow, hhigh⟩ := h
  unfold obsLo at hlow
  unfold obsHi at hhigh
  exact ⟨⟨by rw [hsr, hfs]; exact hcheck, by rw [hsr, hfs, hnom]; exact hquot⟩,
    ⟨by rw [hobs]; exact hfin, by unfold obsLo; rw [hobs, hnom]; exact hlow,
      by unfold obsHi; rw [hobs, hnom]; exact hhigh⟩⟩

/-- The loop filter's value is within the bounds for every timing error (R136). -/
theorem LoopSound.filtered {s : State} (h : LoopSound s) (eps : F32) :
    LoopSound { s with observedSps := loopObserved hw eps s } :=
  ⟨⟨h.session.checked, h.session.nominal⟩,
    (loopBounded_iff (s := { s with observedSps := loopObserved hw eps s }) h.session.rateBounds).mpr
      (loopObserved_bounded h.session.rateBounds eps)⟩

/-- A unit operation leaves `OBSERVED_SPS` or writes the loop filter's value to it (R28, R136). -/
theorem UnitEffect.observedSps {s u : State} (h : UnitEffect s u) :
    u.observedSps = s.observedSps ∨ ∃ eps, u.observedSps = loopObserved hw eps s := by
  cases h with
  | value => exact .inl rfl
  | spsample h =>
    obtain ⟨a, ha, h⟩ := bind_eq_ok.mp h
    obtain ⟨_, rfl⟩ := spInsertOp_eq_ok.mp ha
    split_ifs at h
    · obtain ⟨⟨p, _, hobs, _⟩, _⟩ := symbolOp_frame h
      exact .inr ⟨p.2.2, hobs⟩
    · cases h; exact .inl rfl
  | symbol h =>
    obtain ⟨⟨p, _, hobs, _⟩, _⟩ := symbolOp_frame h
    exact .inr ⟨p.2.2, hobs⟩
  | loopupd eps => exact .inr ⟨eps, rfl⟩
  | eqproc h => exact .inl (by rw [eqProcOp_frame h])
  | eqnoupd h => obtain ⟨_, _, rfl⟩ := eqInsertOp_eq_ok.mp h; exact .inl rfl
  | eqsync h => exact .inl (by rw [eqSyncOp_frame h])
  | updobs h => obtain ⟨_, _, rfl⟩ := updObsOp_eq_ok.mp h; exact .inl rfl
  | synccorr h => obtain ⟨_, _, hp, _⟩ := syncCorrOp_eq_ok.mp h; exact .inl (by rw [hp])
  | ddlpush h => obtain ⟨_, hp⟩ := ddlPushOp_eq_ok.mp h; exact .inl (by rw [hp])
  | ddlsync h => obtain ⟨_, _, rfl⟩ := ddlSyncOp_eq_ok.mp h; exact .inl rfl

theorem UnitEffect.loopSound {s u : State} (h : UnitEffect s u) (hs : LoopSound s) : LoopSound u := by
  have hk := h.sameFacade
  rcases h.observedSps with hobs | ⟨eps, hobs⟩
  · exact hs.congr hk.symbolRate hk.sampleRate hk.nominalSps hobs
  · exact (hs.filtered eps).congr hk.symbolRate hk.sampleRate hk.nominalSps hobs

theorem recvPlace_loopSound {s p : State} {batch : List (F32 × F32)} (h : recvPlace hw batch s = .ok p)
    (hs : LoopSound s) : LoopSound p := by
  obtain ⟨⟨rfl, _⟩ | ⟨hp, _⟩, _⟩ := recvPlace_frame h
  · exact hs
  · rw [hp]; exact hs.congr rfl rfl rfl rfl

/-- With accepted rates the nominal value is inside the bounds (R172). -/
theorem Session.loopSound {s : State} (hs : Session hw s) (hobs : s.observedSps = s.nominalSps) : LoopSound s := by
  have hb := hs.rateBounds
  refine ⟨hs, (loopBounded_iff hb).mpr ?_⟩
  rw [hobs]
  exact ⟨hb.nomFinite, hb.lo_le, hb.le_hi⟩

/-- `RESET` with accepted rates puts `OBSERVED_SPS` at nominal (R230). -/
theorem resetOp_loopSound {s t : State} (hs : Session hw s) (h : resetOp hw s = .ok t) : LoopSound t := by
  obtain ⟨f, _, _, rfl⟩ := resetOp_eq_ok.mp h
  exact Session.loopSound ⟨hs.checked, hs.nominal⟩ rfl

theorem loopSound_invariant : StepInvariant LoopSound where
  lists _ _ _ _ _ _ hs := hs.congr rfl rfl rfl rfl
  unit _ _ hu hs := hu.loopSound hs
  place _ _ _ hp hs := recvPlace_loopSound hp hs
  configure _ _ _ _ _ hc hr _ := resetOp_loopSound ⟨hc, rfl⟩ hr
  restart _ _ hr hs := resetOp_loopSound hs.session hr

/-- Settles O17: only the loop filter and `RESET` write `OBSERVED_SPS`, the one clamped, the other at nominal. -/
theorem stepKeepsLoopInBounds : Obligations.StepKeepsLoopInBounds := by
  intro s t hsession hloop h
  obtain ⟨hsession', hloop'⟩ := loopSound_invariant.step h ⟨hsession, hloop⟩
  exact ⟨hsession', hloop'⟩

/-! The sample memories. -/

theorem SameFacade.memCanonical {s t : State} (h : SameFacade s t) (hs : MemCanonical s) : MemCanonical t :=
  ⟨by rw [h.ibuf]; exact hs.ibuf, by rw [h.qbuf]; exact hs.qbuf⟩

theorem recvPlace_memCanonical {s p : State} {batch : List (F32 × F32)} (h : recvPlace hw batch s = .ok p)
    (hs : MemCanonical s) : MemCanonical p := by
  obtain ⟨⟨rfl, _⟩ | ⟨_, hp⟩, _⟩ := recvPlace_frame h
  · exact hs
  · exact hp

/-- `RESET` leaves both memories with no cell listed (R44, R230). -/
theorem resetOp_memCanonical {c : Cfg} {s t : State} (h : resetOp c s = .ok t) : MemCanonical t := by
  obtain ⟨f, _, _, rfl⟩ := resetOp_eq_ok.mp h
  exact ⟨rfl, rfl⟩

theorem memCanonical_invariant : StepInvariant MemCanonical where
  lists _ _ _ _ _ _ hs := ⟨hs.ibuf, hs.qbuf⟩
  unit _ _ hu hs := hu.sameFacade.memCanonical hs
  place _ _ _ hp hs := recvPlace_memCanonical hp hs
  configure _ _ _ _ _ _ hr _ := resetOp_memCanonical hr
  restart _ _ hr _ := resetOp_memCanonical hr

/-- Settles O16: only the placing of a batch and `RESET` write the memories, and both write canonical ones. -/
theorem stepKeepsMemoryCanonical : Obligations.StepKeepsMemoryCanonical :=
  fun _ _ hs h => memCanonical_invariant.step h hs

/-! The command boundary. -/

/-- `RESET` empties `OUTQ`, puts `SEQ` in AWAIT and leaves the slot alone (R230). -/
theorem resetOp_boundary {c : Cfg} {s t : State} (h : resetOp c s = .ok t) (hm : s.micro = []) : Boundary t := by
  obtain ⟨f, _, _, rfl⟩ := resetOp_eq_ok.mp h
  exact ⟨rfl, rfl, hm⟩

theorem Boundary.respond {s : State} (h : Boundary s) (ws : List Word) : Boundary { s with resp := ws } :=
  ⟨h.outq, h.seq, h.micro⟩

theorem recvPlace_boundary {s p : State} {batch : List (F32 × F32)} (h : recvPlace hw batch s = .ok p)
    (hs : Boundary s) : Boundary p := by
  obtain ⟨⟨rfl, _⟩ | ⟨hp, _⟩, _⟩ := recvPlace_frame h
  · exact hs
  · rw [hp]; exact ⟨hs.outq, hs.seq, hs.micro⟩

/-- Every command ends at a boundary: `RECV` hands its dibits over, and the others produce none (R33, R45, R167). -/
theorem CommandEffect.boundary {i : Instr} {s t : State} (h : CommandEffect s i t) (hs : Boundary s) : Boundary t := by
  cases h with
  | fault f w => exact hs.respond _
  | cfg _ hr => exact (resetOp_boundary hr hs.micro).respond _
  | setfs _ hr => exact (resetOp_boundary hr hs.micro).respond _
  | rst hr => exact (resetOp_boundary hr hs.micro).respond _
  | recv hp hu =>
    have hb := recvPlace_boundary hp hs
    have hseq := recvBlocks_seq hu hb.seq
    exact ⟨rfl, hseq, (recvBlocks_sameFacade hu).micro.trans hb.micro⟩
  | rdcsr addr w => exact hs.respond _

/-- Settles O18: with the slot empty a step runs a command, and every command ends at a boundary. -/
theorem commandsKeepBoundary : Obligations.CommandsKeepBoundary := by
  intro s t hs h
  have hport : ∀ ws, Boundary { s with port := ws } := fun _ => ⟨hs.outq, hs.seq, hs.micro⟩
  rcases step_cases h with ⟨_, rfl | ⟨w, ws, rfl⟩ | ⟨i, ws, hc⟩⟩ | ⟨hm, _⟩
  · exact hs
  · exact (hport ws).respond _
  · exact hc.boundary (hport ws)
  · exact absurd hs.micro hm

/-! Who writes the session. -/

/-- Settles O21: what an operation's own rule writes is no field of the facade, and the latch is none either. -/
theorem unitOperationsLeaveFacadeAlone : Obligations.UnitOperationsLeaveFacadeAlone := by
  intro i s t hi h
  obtain ⟨u, r, hu, rfl⟩ := exec_unit hi h
  have hk := hu.sameFacade
  exact ⟨hk.port, hk.resp, hk.symbolRate, hk.sampleRate, hk.retuneEn, hk.nominalSps, hk.ibuf, hk.qbuf, hk.bufLen⟩

/-- The four registers of a session are the same in both states (R21, R22, R27, R43). -/
structure SameSession (s t : State) : Prop where
  symbolRate : t.symbolRate = s.symbolRate
  sampleRate : t.sampleRate = s.sampleRate
  retuneEn : t.retuneEn = s.retuneEn
  nominalSps : t.nominalSps = s.nominalSps

theorem SameFacade.sameSession {s t : State} (h : SameFacade s t) : SameSession s t :=
  ⟨h.symbolRate, h.sampleRate, h.retuneEn, h.nominalSps⟩

/-- `RESET` does not write the session (R233). -/
theorem resetOp_sameSession {c : Cfg} {s t : State} (h : resetOp c s = .ok t) : SameSession s t := by
  obtain ⟨f, _, _, rfl⟩ := resetOp_eq_ok.mp h
  exact ⟨rfl, rfl, rfl, rfl⟩

theorem recvPlace_sameSession {s p : State} {batch : List (F32 × F32)} (h : recvPlace hw batch s = .ok p) :
    SameSession s p := by
  obtain ⟨⟨rfl, _⟩ | ⟨hp, _⟩, _⟩ := recvPlace_frame h
  · exact ⟨rfl, rfl, rfl, rfl⟩
  · rw [hp]; exact ⟨rfl, rfl, rfl, rfl⟩

/-- A command that is no configuration keeps the session; `SETFS` keeps `SYMBOL_RATE` and the control bit (R173). -/
theorem CommandEffect.session {i : Instr} {s t : State} (h : CommandEffect s i t) (hc : ∀ b sr fs, i ≠ .cfg b sr fs) :
    (t.symbolRate = s.symbolRate ∧ t.retuneEn = s.retuneEn) ∧ ((∀ fs, i ≠ .setfs fs) → SameSession s t) := by
  have of_same : SameSession s t →
      (t.symbolRate = s.symbolRate ∧ t.retuneEn = s.retuneEn) ∧ ((∀ fs, i ≠ .setfs fs) → SameSession s t) :=
    fun h => ⟨⟨h.symbolRate, h.retuneEn⟩, fun _ => h⟩
  cases h with
  | fault f w => exact of_same ⟨rfl, rfl, rfl, rfl⟩
  | @cfg b sr fs => exact absurd rfl (hc b sr fs)
  | @setfs fs u _ hr =>
    have hk := resetOp_sameSession hr
    exact ⟨⟨hk.symbolRate, hk.retuneEn⟩, fun hne => absurd rfl (hne fs)⟩
  | rst hr =>
    have hk := resetOp_sameSession hr
    exact of_same ⟨hk.symbolRate, hk.sampleRate, hk.retuneEn, hk.nominalSps⟩
  | recv hp hu =>
    have hk := recvPlace_sameSession hp
    have hb := (recvBlocks_sameFacade hu).sameSession
    exact of_same ⟨hb.symbolRate.trans hk.symbolRate, hb.sampleRate.trans hk.sampleRate,
      hb.retuneEn.trans hk.retuneEn, hb.nominalSps.trans hk.nominalSps⟩
  | rdcsr addr w => exact of_same ⟨rfl, rfl, rfl, rfl⟩

/-- Settles O22: a unit operation keeps the facade's registers, and of the commands only the two configurations write a
session register. -/
theorem onlyConfigurationChangesRates : Obligations.OnlyConfigurationChangesRates := by
  intro i s t h
  cases hi : i.isCommand with
  | false =>
    obtain ⟨u, r, hu, rfl⟩ := exec_unit hi h
    have hk := hu.sameFacade
    exact ⟨fun _ => ⟨hk.symbolRate, hk.retuneEn⟩, fun _ _ => ⟨hk.nominalSps, hk.sampleRate⟩⟩
  | true =>
    have he := exec_command hi h
    refine ⟨fun hc => (he.session hc).1, fun hc hs => ?_⟩
    have hk := (he.session hc).2 hs
    exact ⟨hk.nominalSps, hk.sampleRate⟩

end Sys2Proof.Machine
end

section
/-! PROOFS. `RDCSR` over the whole map (10_state.md rule R46; 44_facade_commands.md rule R175). -/

namespace Sys2Proof.Machine

/-- An address of the map is answered with its word and nothing else changed (R90, R175). -/
theorem rdcsr_of_some {s : State} {addr : BitVec 12} {w : Word} (h : csrRead hw s addr.toNat = .ok (some w)) :
    exec (.rdcsr addr) s = .next { s with resp := [0x00000100#32, w] } := by
  show execRdcsr addr s = _
  unfold execRdcsr
  rw [h]
  show Host.Outcome.next { s with resp := [respHeader 0 1, w] } = _
  rfl

/-- An address outside the map takes `BadCsr` with the address (R206). -/
theorem rdcsr_of_none {s : State} {addr : BitVec 12} (h : csrRead hw s addr.toNat = .ok none) :
    exec (.rdcsr addr) s = .next { s with resp := [0x00000104#32, addr.setWidth 32] } := by
  show execRdcsr addr s = _
  unfold execRdcsr
  rw [h]
  rfl

theorem inWindow_eq_true {a base len : Nat} : inWindow a base len = true ↔ base ≤ a ∧ a < base + len := by
  simp [inWindow]

/-- Off the six windows of `N = 12` the map is that of the scalars. -/
theorem csrRead_scalar {s : State} {a : Nat}
    (h : ¬ ((0x020 ≤ a ∧ a < 0x030) ∨ (0x040 ≤ a ∧ a < 0x070) ∨ (0x080 ≤ a ∧ a < 0x098) ∨ (0x100 ≤ a ∧ a < 0x132) ∨
      (0x200 ≤ a ∧ a < 0x232) ∨ (0x300 ≤ a ∧ a < 0x319))) : csrRead hw s a = .ok (csrScalar hw s a) := by
  unfold csrRead
  simp only [inWindow_eq_true, hw_len]
  rw [if_neg (by omega), if_neg (by omega), if_neg (by omega), if_neg (by omega), if_neg (by omega), if_neg (by omega)]

/-- The scalars end at `0x015`. -/
theorem csrScalar_eq_none {c : Cfg} {s : State} {a : Nat} (h : 0x016 ≤ a) : csrScalar c s a = none := by
  unfold csrScalar
  split
  all_goals first
    | rfl
    | omega

theorem rdcsr_scalar {s : State} {addr : BitVec 12} {w : Word} (ha : addr.toNat < 0x020)
    (h : csrScalar hw s addr.toNat = some w) : exec (.rdcsr addr) s = .next { s with resp := [0x00000100#32, w] } :=
  rdcsr_of_some (by rw [csrRead_scalar (by omega), h])

/-! The six windows. -/

theorem toNat_window {base j : Nat} (h : base + j < 4096) : (BitVec.ofNat 12 (base + j)).toNat = base + j := by
  rw [BitVec.toNat_ofNat]
  exact Nat.mod_eq_of_lt h

theorem csrRead_dly {s : State} {j : Nat} {v : F32} (hj : j < 16) (hv : s.dly[j]? = some v) :
    csrRead hw s (0x020 + j) = .ok (some v) := by
  unfold csrRead
  simp only [inWindow_eq_true]
  rw [if_pos (by omega), Nat.add_sub_cancel_left, cellGet_eq_ok.mpr hv, ok_bind]

theorem csrRead_sdS {s : State} {j : Nat} {v : F32} (hj : j < 48) (hv : s.sdS[j]? = some v) :
    csrRead hw s (0x040 + j) = .ok (some v) := by
  unfold csrRead
  simp only [inWindow_eq_true]
  rw [if_neg (by omega), if_pos (by omega), Nat.add_sub_cancel_left, cellGet_eq_ok.mpr hv, ok_bind]

theorem csrRead_ddl {s : State} {j : Nat} {d : Dibit} (hj : j < 24) (hd : s.ddl[j]? = some d) :
    csrRead hw s (0x080 + j) = .ok (some d.toWord) := by
  unfold csrRead
  simp only [inWindow_eq_true]
  rw [if_neg (by omega), if_neg (by omega), if_pos (by omega), Nat.add_sub_cancel_left, cellGet_eq_ok.mpr hd, ok_bind]

theorem csrRead_eqZ {s : State} {j : Nat} {v : F32} (hj : j < 50) (hv : s.eqZ[j]? = some v) :
    csrRead hw s (0x100 + j) = .ok (some v) := by
  unfold csrRead
  simp only [inWindow_eq_true, hw_len]
  rw [if_neg (by omega), if_neg (by omega), if_neg (by omega), if_pos (by omega), Nat.add_sub_cancel_left,
    cellGet_eq_ok.mpr hv, ok_bind]

theorem csrRead_eqA {s : State} {j : Nat} {v : F32} (hj : j < 50) (hv : s.eqA[j]? = some v) :
    csrRead hw s (0x200 + j) = .ok (some v) := by
  unfold csrRead
  simp only [inWindow_eq_true, hw_len]
  rw [if_neg (by omega), if_neg (by omega), if_neg (by omega), if_neg (by omega), if_pos (by omega),
    Nat.add_sub_cancel_left, cellGet_eq_ok.mpr hv, ok_bind]

theorem csrRead_eqQ {s : State} {j : Nat} {v : F32} (hj : j < 25) (hv : s.eqQ[j]? = some v) :
    csrRead hw s (0x300 + j) = .ok (some v) := by
  unfold csrRead
  simp only [inWindow_eq_true, hw_len]
  rw [if_neg (by omega), if_neg (by omega), if_neg (by omega), if_neg (by omega), if_neg (by omega), if_pos (by omega),
    Nat.add_sub_cancel_left, cellGet_eq_ok.mpr hv, ok_bind]

theorem rdcsr_window {s : State} {base j : Nat} {w : Word} (ha : base + j < 4096)
    (h : csrRead hw s (base + j) = .ok (some w)) :
    exec (.rdcsr (BitVec.ofNat 12 (base + j))) s = .next { s with resp := [0x00000100#32, w] } :=
  rdcsr_of_some (by rw [toNat_window ha, h])

/-- A dibit's payload word is its value, zero-extended (R90). -/
theorem toWord_eq_ofNat (d : Dibit) : d.toWord = BitVec.ofNat 32 d.value.toNat := by
  cases d <;> rfl

/-- Settles O30, window by window. -/
theorem rdcsrReadsWindows : Obligations.RdcsrReadsWindows := by
  intro s j v
  refine ⟨fun hj hv => ?_, fun hj hv => ?_, fun d hj hd => ?_, fun hj hv => ?_, fun hj hv => ?_, fun hj hv => ?_⟩
  · exact rdcsr_window (by omega) (csrRead_dly hj hv)
  · exact rdcsr_window (by omega) (csrRead_sdS hj hv)
  · rw [← toWord_eq_ofNat]
    exact rdcsr_window (by omega) (csrRead_ddl hj hd)
  · exact rdcsr_window (by omega) (csrRead_eqZ hj hv)
  · exact rdcsr_window (by omega) (csrRead_eqA hj hv)
  · exact rdcsr_window (by omega) (csrRead_eqQ hj hv)

/-- Settles O31: such an address is in no window and past the scalars. -/
theorem rdcsrOutsideMapTakesFault : Obligations.RdcsrOutsideMapTakesFault := by
  intro s addr h
  obtain ⟨hscalar, hwindow⟩ := not_or.mp h
  exact rdcsr_of_none (by rw [csrRead_scalar hwindow, csrScalar_eq_none (not_lt.mp hscalar)])

/-! The scalars. -/

/-- The two words of `SSR`: bits 31:0, and bits 47:32 zero-extended (R46). -/
theorem ssr_words (x : BitVec 48) :
    x.extractLsb' 0 32 = x.setWidth 32 ∧ (x.extractLsb' 32 16).setWidth 32 = (x >>> 32).setWidth 32 := by
  have hx := x.isLt
  constructor
  · rfl
  · apply BitVec.eq_of_toNat_eq
    simp only [BitVec.toNat_setWidth, BitVec.extractLsb'_toNat, BitVec.toNat_ushiftRight, Nat.shiftRight_eq_div_pow]
    omega

/-- `OBS_LO`, `OBS_HI` and `NOISE_THR` with the constants of R10 as patterns (R27). -/
theorem derived_rates (s : State) :
    obsLo hw s = f32Mul s.nominalSps 0x3F7FDF3B#32 ∧ obsHi hw s = f32Mul s.nominalSps 0x3F801062#32 ∧
      noiseThr hw s = f32Mul (f32Div twoPiF s.nominalSps) 0x3F99999A#32 := by
  refine ⟨?_, ?_, rfl⟩
  · unfold obsLo obsLoOf; rw [clampFactors.1]; rfl
  · unfold obsHi obsHiOf; rw [clampFactors.2]; rfl

/-- Settles O29: with the derived words in the model's own form, every row of the map is one of `csrScalar`. -/
theorem rdcsrReadsScalars : Obligations.RdcsrReadsScalars := by
  intro s addr v h
  obtain ⟨hssr, hssr'⟩ := ssr_words s.ssr
  obtain ⟨hlo, hhi, hthr⟩ := derived_rates s
  rcases h with ⟨hseq, rfl, rfl⟩ | h
  · exact rdcsr_scalar (by decide) (by show some (natWord s.seq.number) = _; rw [hseq]; rfl)
  · rw [← hlo, ← hhi, ← hthr, ← hssr, ← hssr'] at h
    simp only [List.mem_cons, List.not_mem_nil, or_false, Prod.mk.injEq] at h
    rcases h with ⟨rfl, rfl⟩ | ⟨rfl, rfl⟩ | ⟨rfl, rfl⟩ | ⟨rfl, rfl⟩ | ⟨rfl, rfl⟩ | ⟨rfl, rfl⟩ | ⟨rfl, rfl⟩ | ⟨rfl, rfl⟩ |
      ⟨rfl, rfl⟩ | ⟨rfl, rfl⟩ | ⟨rfl, rfl⟩ | ⟨rfl, rfl⟩ | ⟨rfl, rfl⟩ | ⟨rfl, rfl⟩ | ⟨rfl, rfl⟩ | ⟨rfl, rfl⟩ | ⟨rfl, rfl⟩ |
      ⟨rfl, rfl⟩ | ⟨rfl, rfl⟩ | ⟨rfl, rfl⟩ | ⟨rfl, rfl⟩
    all_goals exact rdcsr_scalar (by decide) rfl

end Sys2Proof.Machine
end

section
/-! PROOFS. The power-on state (10_state.md rule R48; 70_reset_and_hazards.md rules R230, R231). -/

namespace Sys2Proof.Machine

/-- More capacity refuses no rates: `CHECK` reads `BUF_CAP` in its last comparison only (R172). -/
theorem check_capacity_mono {m : Nat} {sr : Word} {fs : F32} (hm : m ≤ hw.bufCap)
    (h : check { hw with bufCap := m } sr fs = 0) : check hw sr fs = 0 := by
  have hkey := f32OfInt_mono (i := m) (j := hw.bufCap) (by exact_mod_cast hm)
  have hroom : ∀ x, ¬ hw.num.fgt x (hw.num.i2f m) = true → ¬ hw.num.fgt x (hw.num.i2f hw.bufCap) = true := by
    intro x hx
    simp only [hw_num, ieee_fgt, ieee_i2f, f32Gt, Bool.not_eq_true] at hx ⊢
    by_cases hn : f32IsNaN x = true
    · simp [f32Lt, hn]
    · rw [Bool.not_eq_true] at hn
      rw [f32Lt_false_iff (f32OfInt_key _).1 hn] at hx ⊢
      exact hx.trans hkey
  have hlo : ∀ x, obsLoOf { hw with bufCap := m } x = obsLoOf hw x := fun _ => rfl
  have hhi : ∀ x, obsHiOf { hw with bufCap := m } x = obsHiOf hw x := fun _ => rfl
  have hnom : nominalOf { hw with bufCap := m } sr fs = nominalOf hw sr fs := rfl
  unfold check at h ⊢
  simp only [hlo, hhi, hnom] at h
  split_ifs at h with h1 h2 h3 h4 h5
  rw [if_neg h1, if_neg h2, if_neg h3, if_neg h4, if_neg (hroom _ h5)]

/-- The default rates are accepted with the least capacity the spec allows (R6, R231). -/
theorem check_defaultRates_leastCapacity : check { hw with bufCap := 15 } 4800#32 0x47435000#32 = 0 := by decide +kernel

theorem reset_session : Session hw State.reset :=
  ⟨check_capacity_mono hw_bufCap_ge check_defaultRates_leastCapacity, by decide +kernel⟩

theorem reset_files : Files hw State.reset :=
  (resetState_files hw 10 State.reset).congr rfl rfl rfl rfl rfl rfl rfl rfl rfl rfl

theorem reset_armed : Armed hw State.reset := by
  unfold Armed
  decide +kernel

/-- `MU`, `IOFF` and `OVERLAP` for 10.416667 samples per symbol: its fraction, 10 - 4, 10 + 4 (R48, R166). -/
theorem reset_placed : Placed hw State.reset :=
  ⟨by decide +kernel, by decide +kernel, by decide, by decide⟩

/-- The least capacity holds the overlap of 14 and one sample (R6, R172). -/
theorem reset_buffered : Buffered hw State.reset where
  tail := le_refl 14
  fits := (Nat.le_succ 14).trans hw_bufCap_ge
  room := hw_bufCap_ge

/-- Settles O8: the invariant's parts, the register files and the loop from what is proved of every `RESET`. -/
theorem resetIsSound : Obligations.ResetIsSound where
  shape := reset_files.shape
  rings := reset_files.rings
  centre := reset_files.centre
  session := reset_session
  loop := (reset_session.loopSound rfl).loop
  armed := reset_armed
  placed := reset_placed
  buffered := reset_buffered
  memory := ⟨rfl, rfl⟩
  boundary := ⟨rfl, rfl, rfl⟩

end Sys2Proof.Machine
end

section
/-! PROOFS. The port's decoder and the encoder (30_encoding.md rules R87 to R89).

`isCfgHeader_iff` to `isRdcsrHeader_iff` say which headers R88's masks accept, and `recvOperands_eq_some` what the words of a
batch are. `commandDecodeEncode` reads these equations from the command to its words, `commandsDecodeFromEncodingsOnly` from
the words to the command. -/

namespace Sys2Proof.Machine

/-! Headers. -/

/-- What a header keeps under a mask of R88: its opcode, bits 7:0, and its must-be-zero bits, those from `k` on. -/
theorem nat_and_headerMask {x m k : Nat} (hk : 8 ≤ k) (hk' : k ≤ 32) (hx : x < 2 ^ 32) (hlow : m % 2 ^ k = 2 ^ 8 - 1)
    (hhigh : m / 2 ^ k = 2 ^ (32 - k) - 1) : x &&& m = 2 ^ k * (x / 2 ^ k) + x % 2 ^ 8 := by
  have hmod : (x &&& m) % 2 ^ k = x % 2 ^ 8 := by
    rw [Nat.and_mod_two_pow, hlow, Nat.and_two_pow_sub_one_eq_mod, Nat.mod_mod_of_dvd _ (Nat.pow_dvd_pow 2 hk)]
  have hdiv : (x &&& m) / 2 ^ k = x / 2 ^ k := by
    have hlt : x / 2 ^ k < 2 ^ (32 - k) := by
      rw [Nat.div_lt_iff_lt_mul (by positivity), ← pow_add, Nat.sub_add_cancel hk']
      exact hx
    rw [Nat.and_div_two_pow, hhigh, Nat.and_two_pow_sub_one_eq_mod, Nat.mod_eq_of_lt hlt]
  rw [← Nat.div_add_mod (x &&& m) (2 ^ k), hmod, hdiv]

theorem isCfgHeader_iff {h : Word} : isCfgHeader h = true ↔ h = 0x00000001#32 ∨ h = 0x00000101#32 := by
  have hmask := nat_and_headerMask (m := 0xFFFFFEFF) (k := 9) (by decide) (by decide) h.isLt rfl rfl
  simp only [isCfgHeader, beq_iff_eq, ← BitVec.toNat_inj, BitVec.toNat_and, BitVec.toNat_ofNat,
    Nat.reducePow, Nat.reduceMod, hmask]
  omega

theorem isSetfsHeader_iff {h : Word} : isSetfsHeader h = true ↔ h = 0x00000002#32 := beq_iff_eq

theorem isRstHeader_iff {h : Word} : isRstHeader h = true ↔ h = 0x00000003#32 := beq_iff_eq

theorem isRecvHeader_iff {h : Word} : isRecvHeader h = true ↔ h.toNat % 256 = 4 := by
  have hmask := nat_and_headerMask (m := 0x000000FF) (k := 32) (by decide) (by decide) h.isLt rfl rfl
  have hlt := h.isLt
  simp only [isRecvHeader, beq_iff_eq, ← BitVec.toNat_inj, BitVec.toNat_and, BitVec.toNat_ofNat,
    Nat.reducePow, Nat.reduceMod, hmask]
  omega

theorem isRdcsrHeader_iff {h : Word} : isRdcsrHeader h = true ↔ h.toNat % 256 = 5 ∧ h.toNat < 1048576 := by
  have hmask := nat_and_headerMask (m := 0xFFF000FF) (k := 20) (by decide) (by decide) h.isLt rfl rfl
  simp only [isRdcsrHeader, beq_iff_eq, ← BitVec.toNat_inj, BitVec.toNat_and, BitVec.toNat_ofNat,
    Nat.reducePow, Nat.reduceMod, hmask]
  omega

/-- The header of a batch is rebuilt from its count and its opcode (R88). -/
theorem recvHeader_eq {h : Word} (hh : isRecvHeader h = true) : h = BitVec.ofNat 32 (recvCount h * 256 + 4) := by
  have hlow := isRecvHeader_iff.mp hh
  have hlt := h.isLt
  apply BitVec.eq_of_toNat_eq
  rw [BitVec.toNat_ofNat, recvCount]
  omega

theorem recvCount_lt (h : Word) : recvCount h < 16777216 := by
  have hlt := h.isLt
  rw [recvCount]
  omega

/-- The header of `RDCSR` is rebuilt from its address and its opcode (R88). -/
theorem rdcsrHeader_eq {h : Word} (hh : isRdcsrHeader h = true) :
    h = BitVec.ofNat 32 ((h.extractLsb' 8 12).toNat * 256 + 5) := by
  obtain ⟨hlow, hhigh⟩ := isRdcsrHeader_iff.mp hh
  apply BitVec.eq_of_toNat_eq
  rw [BitVec.toNat_ofNat, BitVec.extractLsb'_toNat, Nat.shiftRight_eq_div_pow]
  omega

/-- The header made of an address is that of `RDCSR`, of no other command, and holds that address (R88). -/
theorem rdcsrHeader_facts (addr : BitVec 12) {h : Word} (hh : h = BitVec.ofNat 32 (addr.toNat * 256 + 5)) :
    isCfgHeader h = false ∧ isSetfsHeader h = false ∧ isRstHeader h = false ∧ isRecvHeader h = false ∧
      isRdcsrHeader h = true ∧ h.extractLsb' 8 12 = addr := by
  have hlt := addr.isLt
  have hnat : h.toNat = addr.toNat * 256 + 5 := by
    rw [hh, BitVec.toNat_ofNat]
    omega
  simp only [Bool.eq_false_iff, ne_eq, isCfgHeader_iff, isSetfsHeader_iff, isRstHeader_iff, isRecvHeader_iff,
    isRdcsrHeader_iff, ← BitVec.toNat_inj, BitVec.toNat_ofNat, BitVec.extractLsb'_toNat, Nat.shiftRight_eq_div_pow, hnat]
  omega

/-! The words of a batch. -/

/-- The two words a timestamp is assembled from are its low and its high half (R89). -/
theorem timestamp_words (lo hi : Word) : (hi ++ lo).extractLsb' 0 32 = lo ∧ (hi ++ lo).extractLsb' 32 32 = hi :=
  ⟨BitVec.extractLsb'_append_eq_right, BitVec.extractLsb'_append_eq_left⟩

theorem timestamp_eq (ts : BitVec 64) : ts.extractLsb' 32 32 ++ ts.extractLsb' 0 32 = ts :=
  BitVec.extractLsb'_append_extractLsb' (len := 32)

/-- The operands of `RECV` are the timestamp's two words, the I rail and the Q rail, each of `n` words (R88, R89). -/
theorem recvOperands_eq_some {n : Nat} {ws rest : List Word} {ts : BitVec 64} {batch : List (F32 × F32)} :
    recvOperands n ws = some (ts, batch, rest) ↔
      batch.length = n ∧
        ws = ts.extractLsb' 0 32 :: ts.extractLsb' 32 32 :: (batch.map Prod.fst ++ batch.map Prod.snd ++ rest) := by
  constructor
  · intro h
    unfold recvOperands at h
    split at h
    next lo hi ws =>
      split_ifs at h with hlen
      rw [not_lt] at hlen
      cases h
      have hI : (ws.take n).length = n := List.length_take_of_le (by omega)
      have hQ : ((ws.drop n).take n).length = n := List.length_take_of_le (by rw [List.length_drop]; omega)
      refine ⟨by rw [List.length_zip, hI, hQ, min_self], ?_⟩
      rw [List.map_fst_zip (by omega), List.map_snd_zip (by omega), (timestamp_words lo hi).1, (timestamp_words lo hi).2,
        List.append_assoc, two_mul, ← List.drop_drop, List.take_append_drop, List.take_append_drop]
    next => cases h
  · rintro ⟨rfl, rfl⟩
    have hI : (batch.map Prod.fst).length = batch.length := List.length_map _
    have hQ : (batch.map Prod.snd).length = batch.length := List.length_map _
    have hIQ : (batch.map Prod.fst ++ batch.map Prod.snd).length = 2 * batch.length := by
      rw [List.length_append, hI, hQ, two_mul]
    unfold recvOperands
    dsimp only
    rw [if_neg (by rw [List.length_append, hIQ]; omega), List.drop_left' hIQ, List.append_assoc, List.take_left' hI,
      List.drop_left' hI, List.take_left' hQ, ← List.zip_of_prod rfl rfl, timestamp_eq]

/-! The decoder. -/

/-- Settles O1: each command's header is its own and no other's, and its operands stand behind it in R88's order. -/
theorem commandDecodeEncode : Obligations.CommandDecodeEncode := by
  intro i rest hw hi
  cases i with
  | cfg retune sr fs => cases retune <;> rfl
  | setfs fs => rfl
  | rst => rfl
  | recv ts batch =>
    obtain ⟨hcount, hrecv, hcfg, hsetfs, hrst⟩ := Laws.recvHeader_facts (of_decide_eq_true hw)
    have hops := (recvOperands_eq_some (ts := ts) (batch := batch) (rest := rest)).mpr ⟨rfl, rfl⟩
    simp only [encode, List.cons_append, List.nil_append, decode, hcfg, hsetfs, hrst, hrecv, hcount, hops,
      Bool.false_eq_true, if_false, if_true]
  | rdcsr addr =>
    obtain ⟨hcfg, hsetfs, hrst, hrecv, hrdcsr, haddr⟩ := rdcsrHeader_facts addr rfl
    simp only [encode, List.cons_append, List.nil_append, decode, hcfg, hsetfs, hrst, hrecv, hrdcsr, haddr,
      Bool.false_eq_true, if_false, if_true]
  | interp _ _ _ | cmulc _ _ _ _ | phase _ _ | diff _ | unwrap _ _ | spsample _ | symbol | loopupd _ | eqproc _ _
  | eqnoupd _ _ | eqsync _ | updobs _ | decidePhi _ | terr _ _ _ _ | synccorr _ | ddlpush _ | ddlsync => cases hi

/-- Settles O3, arm by arm: the header test pins the header, and the words after it are the operands. -/
theorem commandsDecodeFromEncodingsOnly : Obligations.CommandsDecodeFromEncodingsOnly := by
  intro ws i rest hd
  refine and_left_comm.mp ⟨decode_isCommand hd, ?_⟩
  cases ws with
  | nil => cases hd
  | cons h ws =>
    unfold decode at hd
    dsimp only at hd
    split_ifs at hd with hcfg hsetfs hrst hrecv hrdcsr
    · split at hd <;> cases hd
      rcases isCfgHeader_iff.mp hcfg with rfl | rfl <;> exact ⟨rfl, rfl⟩
    · split at hd <;> cases hd
      rw [isSetfsHeader_iff.mp hsetfs]
      exact ⟨rfl, rfl⟩
    · cases hd
      rw [isRstHeader_iff.mp hrst]
      exact ⟨rfl, rfl⟩
    · split at hd <;> cases hd
      next hops =>
      obtain ⟨hlen, rfl⟩ := recvOperands_eq_some.mp hops
      refine ⟨decide_eq_true (hlen ▸ recvCount_lt h), ?_⟩
      rw [recvHeader_eq hrecv, ← hlen]
      rfl
    · cases hd
      refine ⟨rfl, ?_⟩
      rw [encode, ← rdcsrHeader_eq hrdcsr]
      rfl

end Sys2Proof.Machine
end

section
/-! PROOFS. Numbers and dibits (30_encoding.md rules R80, R83, R85), and the slot's decoder (R96; assumption log 7). -/

namespace Sys2Proof.Machine

/-! Dibits as base-4 digits. -/

/-- The last base-4 digit of a number that ends in a dibit's value is that dibit. -/
theorem dibitOfNat_digit (a : Nat) (d : Dibit) : dibitOfNat (a * 4 + d.value.toNat) = d := by
  unfold dibitOfNat
  rw [Nat.mul_add_mod_self_right]
  cases d <;> rfl

theorem packDibits_nil : packDibits [] = 0 := rfl

theorem packDibits_concat (ds : List Dibit) (d : Dibit) :
    packDibits (ds ++ [d]) = packDibits ds * 4 + d.value.toNat := by
  simp only [packDibits, List.foldl_append, List.foldl_cons, List.foldl_nil]

theorem packDibits_lt (ds : List Dibit) : packDibits ds < 4 ^ ds.length := by
  induction ds using List.reverseRecOn with
  | nil => exact Nat.one_pos
  | append_singleton ds d ih =>
    have hd := d.value.isLt
    rw [packDibits_concat, List.length_append, List.length_singleton, pow_succ]
    omega

/-- A number's base-4 digits are the dibits it was packed from (R83). -/
theorem unpackDibits_packDibits (ds : List Dibit) : unpackDibits ds.length (packDibits ds) = ds := by
  induction ds using List.reverseRecOn with
  | nil => rfl
  | append_singleton ds d ih =>
    have hd := d.value.isLt
    have hdiv : (packDibits ds * 4 + d.value.toNat) / 4 = packDibits ds := by omega
    rw [packDibits_concat, List.length_append, List.length_singleton, unpackDibits, dibitOfNat_digit, hdiv, ih]

/-! The slot's operand words. -/

theorem spaceOfWord_toWord (sp : Space) : spaceOfWord sp.toWord = some sp := by
  cases sp <;> rfl

theorem dibitOfWord_toWord (d : Dibit) : dibitOfWord d.toWord = some d := by
  cases d <;> rfl

/-- An operation whose first operand word names a dibit is read with that dibit. -/
theorem withOperand_dibit (h : Word) (d : Dibit) (rest : List Word) (f : Dibit → Instr) :
    withOperand h (dibitOfWord d.toWord) rest f = .ok (f d, rest) := by
  rw [dibitOfWord_toWord]
  rfl

/-- An index below 2^32 is carried by its word. -/
theorem indexWord_toNat {n : Nat} (h : n < 4294967296) : (BitVec.ofNat 32 n).toNat = n :=
  (BitVec.toNat_ofNat ..).trans (Nat.mod_eq_of_lt h)

/-- The two words of 24 dibits, low word first, hold the 48 bits of their digits. -/
theorem dibitWords_toNat {t : List Dibit} (ht : t.length = 24) :
    (BitVec.ofNat 32 (packDibits t / 4294967296)).toNat < 65536 ∧
      (BitVec.ofNat 32 (packDibits t / 4294967296)).toNat * 4294967296 +
        (BitVec.ofNat 32 (packDibits t % 4294967296)).toNat = packDibits t := by
  have hlt := packDibits_lt t
  rw [ht] at hlt
  rw [BitVec.toNat_ofNat, BitVec.toNat_ofNat]
  omega

/-- Settles O2: each micro-operation number selects its own arm, and each operand is read back from its word. -/
theorem unitOperationDecodeEncode : Obligations.UnitOperationDecodeEncode := by
  intro i rest hw hi
  cases i with
  | cfg _ _ _ | setfs _ | rst | recv _ _ | rdcsr _ => cases hi
  | cmulc _ _ _ _ | phase _ _ | unwrap _ _ | spsample _ | symbol | loopupd _ | updobs _ | decidePhi _ | synccorr _
  | ddlsync => rfl
  | eqproc d ph => exact withOperand_dibit 0x18#32 d rest fun d => .eqproc d ph
  | eqnoupd d ph => exact withOperand_dibit 0x19#32 d rest fun d => .eqnoupd d ph
  | terr d prec cur foll => exact withOperand_dibit 0x1D#32 d rest fun d => .terr d prec cur foll
  | ddlpush d => exact withOperand_dibit 0x1F#32 d rest .ddlpush
  | interp sp off mu =>
    show withOperand 0x10#32 (spaceOfWord sp.toWord) rest (fun s => .interp s (BitVec.ofNat 32 off).toNat mu) = _
    rw [spaceOfWord_toWord, indexWord_toNat (of_decide_eq_true hw)]
    rfl
  | diff x =>
    show Except.ok (Instr.diff (BitVec.ofNat 32 x).toNat, rest) = _
    rw [indexWord_toNat (of_decide_eq_true hw)]
  | eqsync t =>
    have ht : t.length = 24 := beq_iff_eq.mp hw
    obtain ⟨hhi, hwords⟩ := dibitWords_toNat ht
    show (if _ < 65536 then Except.ok (Instr.eqsync (unpackDibits 24 _), rest) else _) = _
    rw [if_pos hhi, hwords, ← ht, unpackDibits_packDibits]

end Sys2Proof.Machine
end

section
/-! PROOFS. What a step does with the words it finds (30_encoding.md rules R87, R88, R95, R96; 60_exceptions.md rule R209). -/

namespace Sys2Proof.Machine

/-! Illegal headers. -/

/-- The decoder refuses a header as illegal exactly if it is none of R88's (R95). -/
theorem decode_illegal_iff {h : Word} {ws : List Word} :
    decode (h :: ws) = .error (.illegal h) ↔
      ¬ (isCfgHeader h = true ∨ isSetfsHeader h = true ∨ isRstHeader h = true ∨ isRecvHeader h = true ∨
        isRdcsrHeader h = true) := by
  unfold decode
  dsimp only
  split_ifs with hcfg hsetfs hrst hrecv hrdcsr
  · refine iff_of_false ?_ (not_not_intro (.inl hcfg))
    split <;> exact nofun
  · refine iff_of_false ?_ (not_not_intro (.inr (.inl hsetfs)))
    split <;> exact nofun
  · exact iff_of_false nofun (not_not_intro (.inr (.inr (.inl hrst))))
  · refine iff_of_false ?_ (not_not_intro (.inr (.inr (.inr (.inl hrecv)))))
    split <;> exact nofun
  · exact iff_of_false nofun (not_not_intro (.inr (.inr (.inr (.inr hrdcsr)))))
  · refine iff_of_true rfl ?_
    simp only [hcfg, hsetfs, hrst, hrecv, hrdcsr, or_self, Bool.false_eq_true, not_false_eq_true]

/-! One step. -/

/-- With the slot empty a step takes its words from the port. -/
theorem step_of_micro_nil {s : State} (h : s.micro = []) : step s = stepPort s :=
  if_pos (List.isEmpty_iff.mpr h)

/-- With words in the slot a step takes them (assumption log 7). -/
theorem step_of_micro_ne_nil {s : State} (h : s.micro ≠ []) : step s = stepMicro s :=
  if_neg (mt List.isEmpty_iff.mp h)

/-- Settles O6: which decoder runs is the slot's to say, and either runs what it read on the words left. -/
theorem stepRunsDecodedInstruction : Obligations.StepRunsDecodedInstruction := by
  intro s i rest _
  refine ⟨fun hm hd => ?_, fun hm hd => ?_⟩
  · rw [step_of_micro_nil hm, stepPort, hd]
  · rw [step_of_micro_ne_nil hm, stepMicro, hd]

/-- Settles O4: the header tests are R95's numbers, and the step's answer is that of `raise`. -/
theorem illegalHeaderTakesFault : Obligations.IllegalHeaderTakesFault := by
  intro s h ws hm hp
  refine ⟨?_, fun hd => ?_⟩
  · rw [hp, decode_illegal_iff, isCfgHeader_iff, isSetfsHeader_iff, isRstHeader_iff, isRecvHeader_iff, isRdcsrHeader_iff]
    simp only [← BitVec.toNat_inj, BitVec.toNat_ofNat]
    omega
  · rw [step_of_micro_nil hm, stepPort, hd, hp]
    rfl

/-- Settles O5: each word list is the encoding of what it stands for, so the decoders read that back. -/
theorem writtenWordsDecode : Obligations.WrittenWordsDecode := by
  refine ⟨?_, ?_, ?_, ?_, ?_, ?_, ?_⟩
  · exact commandDecodeEncode (.cfg true 4800#32 0x47435000#32) [] rfl rfl
  · exact commandDecodeEncode (.setfs 0x473B8000#32) [7#32] rfl rfl
  · exact commandDecodeEncode .rst [] rfl rfl
  · exact commandDecodeEncode (.recv 0x0000000200000001#64 [(3#32, 5#32), (4#32, 6#32)]) [] rfl rfl
  · exact commandDecodeEncode (.rdcsr 0x308#12) [] rfl rfl
  · exact unitOperationDecodeEncode .symbol [] rfl rfl
  · exact unitOperationDecodeEncode (.terr .d01Plus3 2#32 3#32 4#32) [] rfl rfl

end Sys2Proof.Machine
end

section
/-! PROOFS. The sync pattern (30_encoding.md rules R82 to R85; 47_sync_detector_dibit_delay.md rule R196). -/

namespace Sys2Proof.Machine

/-! The register that packs the decisions (R85). -/

/-- A shift puts a base-4 digit after the register's and drops what does not fit 48 bits. -/
theorem shiftSsr_toNat (d : Dibit) (s : State) :
    (shiftSsr d s).ssr.toNat = (s.ssr.toNat * 4 + d.value.toNat) % 2 ^ 48 := by
  have hd : d.value.toNat < 2 ^ 2 := d.value.isLt
  rw [shiftSsr_ssr, BitVec.toNat_or, BitVec.toNat_shiftLeft, BitVec.toNat_setWidth, ← Nat.or_mod_two_pow,
    ← Nat.shiftLeft_add_eq_or_of_lt hd, Nat.shiftLeft_eq]

/-- After a run of shifts the register holds the run's digits behind those it held before. -/
theorem foldl_shiftSsr_toNat (ds : List Dibit) (s : State) :
    (ds.foldl (fun t d => shiftSsr d t) s).ssr.toNat = (s.ssr.toNat * 4 ^ ds.length + packDibits ds) % 2 ^ 48 := by
  induction ds using List.reverseRecOn with
  | nil =>
    rw [List.foldl_nil, List.length_nil, pow_zero, mul_one, packDibits_nil, add_zero, Nat.mod_eq_of_lt s.ssr.isLt]
  | append_singleton ds d ih =>
    rw [List.foldl_append, List.foldl_cons, List.foldl_nil, shiftSsr_toNat, ih, packDibits_concat, List.length_append,
      List.length_singleton, pow_succ 4 ds.length, ← mul_assoc]
    omega

theorem syncDibits_length : syncDibits.length = 24 := rfl

/-- The dibits of the pattern pack to the pattern (R82, R83). -/
theorem packDibits_syncDibits : packDibits syncDibits = 0x755FD7DFD57D := by decide

/-- Settles O54: 24 dibits fill the register, so nothing of what it held is left. -/
theorem ssrHoldsPatternAfterIt : Obligations.SsrHoldsPatternAfterIt := by
  intro s
  refine ⟨fun d => shiftSsr_toNat d s, BitVec.eq_of_toNat_eq ?_⟩
  rw [foldl_shiftSsr_toNat, syncDibits_length, packDibits_syncDibits, BitVec.toNat_ofNat]
  omega

/-! The pattern's tables (R83, R84). -/

/-- Every dibit of the pattern is `01` or `11`. -/
theorem syncDibits_outer {d : Dibit} (hd : d ∈ syncDibits) : d = .d01Plus3 ∨ d = .d11Minus3 := by
  revert d
  decide

theorem ideal_of_outer {d : Dibit} (hd : d = .d01Plus3 ∨ d = .d11Minus3) :
    ideal d = if d = .d01Plus3 then 0x4016CBE4#32 else 0xC016CBE4#32 := by
  rcases hd with rfl | rfl <;> rfl

/-- The square of either outer ideal phase, rounded. -/
theorem ideal_square_of_outer {d : Dibit} (hd : d = .d01Plus3 ∨ d = .d11Minus3) :
    f32Mul (ideal d) (ideal d) = 0x40B1A723#32 := by
  rcases hd with rfl | rfl <;> decide +kernel

/-- The products of the pattern's score against itself are all the one square. -/
theorem syncRef_products : List.zipWith hw.num.fmul syncRef syncRef = List.replicate 24 0x40B1A723#32 := by
  rw [syncRef, List.zipWith_self, List.map_map]
  exact List.map_eq_replicate_iff.mpr fun d hd => ideal_square_of_outer (syncDibits_outer hd)

/-- Settles O53: the digits by computation, the phases dibit by dibit, and the score as the sum of 24 equal squares. -/
theorem syncPatternTables : Obligations.SyncPatternTables := by
  refine ⟨by decide, List.map_congr_left fun d hd => ideal_of_outer (syncDibits_outer hd), ?_⟩
  rw [dot, syncRef_products]
  decide +kernel

end Sys2Proof.Machine
end

section
/-! PROOFS. `INTERP` on its own, and where it and `UPDOBS` have no meaning (40_interpolator.md rules R110, R111, R114;
00_scope.md rules R7, R13; 44_facade_commands.md rule R166). -/

namespace Sys2Proof.Machine

/-! Runs of reads (R13). -/

theorem readRun_succ_of_ok {α : Type} {f : Nat → Res α} {i n : Nat} {v : α} {vs : List α} (hv : f i = .ok v)
    (hvs : readRun f (i + 1) n = .ok vs) : readRun f i (n + 1) = .ok (v :: vs) := by
  rw [readRun, hv, ok_bind, hvs, ok_bind]

/-- A run of reads stops only with the stop of one of them. -/
theorem readRun_eq_error {α : Type} {f : Nat → Res α} {i n : Nat} {e : Stop} (h : readRun f i n = .error e) :
    ∃ k, k < n ∧ f (i + k) = .error e := by
  induction n generalizing i with
  | zero => cases h
  | succ n ih =>
    rw [readRun, bind_eq_error] at h
    obtain hfirst | ⟨v, _, h⟩ := h
    · exact ⟨0, Nat.succ_pos n, hfirst⟩
    · obtain hrest | ⟨_, _, hok⟩ := bind_eq_error.mp h
      · obtain ⟨k, hk, hread⟩ := ih hrest
        exact ⟨k + 1, Nat.succ_lt_succ hk, by rwa [Nat.add_comm k 1, ← Nat.add_assoc]⟩
      · cases hok

/-! The sequences of `INTERP` (R110). -/

/-- How many cells a sequence has (R34, R60). -/
def spaceLength (s : State) : Space → Nat
  | .ibuf => s.bufLen
  | .qbuf => s.bufLen
  | .dly => s.dly.length

theorem lt_spaceLength_of_read {s : State} {sp : Space} {i : Nat} {v : F32} (h : spaceRead s sp i = .ok v) :
    i < spaceLength s sp := by
  cases sp with
  | ibuf => exact (ibufRead_eq_ok.mp h).1
  | qbuf => exact (qbufRead_eq_ok.mp h).1
  | dly => exact (List.getElem?_eq_some_iff.mp (cellGet_eq_ok.mp h)).1

/-- A read of a sequence that stops is a fault, never a refusal. -/
theorem spaceRead_eq_error {s : State} {sp : Space} {i : Nat} {e : Stop} (h : spaceRead s sp i = .error e) :
    ∃ st, e = .fault (.indexOutOfRange st i) := by
  cases sp with
  | ibuf =>
    rw [spaceRead, ibufRead] at h
    split at h <;> cases h
    exact ⟨.ibuf, rfl⟩
  | qbuf =>
    rw [spaceRead, qbufRead] at h
    split at h <;> cases h
    exact ⟨.qbuf, rfl⟩
  | dly =>
    rw [spaceRead, cellGet] at h
    split at h <;> cases h
    exact ⟨.dly, rfl⟩

/-- The eight reads of a window that passes the end of its sequence stop with a fault. -/
theorem readWindow_past_end {s : State} {sp : Space} {off : Nat} (h : spaceLength s sp < off + 8) :
    ∃ f, readRun (spaceRead s sp) off 8 = .error (.fault f) := by
  cases hr : readRun (spaceRead s sp) off 8 with
  | ok xs =>
    obtain ⟨hlen, hread⟩ := readRun_eq_ok.mp hr
    have hlast := lt_spaceLength_of_read (hread 7 xs[7] (List.getElem?_eq_getElem (by omega)))
    omega
  | error e =>
    obtain ⟨k, _, hk⟩ := readRun_eq_error hr
    obtain ⟨st, rfl⟩ := spaceRead_eq_error hk
    exact ⟨_, rfl⟩

/-! `INTERP`. -/

theorem interpFractionOk_iff {mu : F32} :
    interpFractionOk hw mu = true ↔ f32Le 0x00000000#32 mu = true ∧ f32Lt mu 0x3F800000#32 = true :=
  Bool.and_eq_true_iff

/-- A fraction outside `[0, 1)` is refused, whatever the window (R114). -/
theorem interpOp_of_bad_fraction {c : Cfg} {s : State} {sp : Space} {off : Nat} {mu : F32}
    (h : ¬ interpFractionOk c mu = true) : interpOp c s sp off mu = .error (.refused (.interpFraction mu)) :=
  if_neg h

/-- With a good fraction the stop of the window's reads is the stop of `INTERP`: the row's conversion and the tap reads
before them answer. -/
theorem interpOp_of_window_error {s : State} {sp : Space} {off : Nat} {mu : F32} {e : Stop}
    (h : interpFractionOk hw mu = true) (hx : readRun (spaceRead s sp) off 8 = .error e) :
    interpOp hw s sp off mu = .error e := by
  obtain ⟨r, hr, _, _, hrow⟩ := interpRow_eq h
  obtain ⟨taps, htaps, _⟩ := readRun_exists (f := tapRead hw r) (i := 0) (n := 8)
    fun k hk => ⟨_, tapRead_eq_ok.mpr ⟨hr, by omega, rfl⟩⟩
  rw [interpOp, if_pos h, hrow, ok_bind, natIndex_eq_ok.mpr rfl, ok_bind, htaps, ok_bind, hx, error_bind]

/-- `INTERP` run on its own writes the latch with what the operation answers. -/
theorem exec_interp (sp : Space) (off : Nat) (mu : F32) (s : State) :
    exec (.interp sp off mu) s = outcomeRet s (interpOp hw s sp off mu >>= fun v => .ok (.f32 v)) := rfl

/-- Settles O32: the tap row is the one of `interpRow_eq`, and `dot` adds the eight products in ascending order. -/
theorem interpIsTapRowProduct : Obligations.InterpIsTapRowProduct := by
  intro s sp off mu x0 x1 x2 x3 x4 x5 x6 x7 hle hlt h0 h1 h2 h3 h4 h5 h6 h7
  have hcells : readRun (spaceRead s sp) off 8 = .ok [x0, x1, x2, x3, x4, x5, x6, x7] :=
    readRun_succ_of_ok h0 <| readRun_succ_of_ok h1 <| readRun_succ_of_ok h2 <| readRun_succ_of_ok h3 <|
      readRun_succ_of_ok h4 <| readRun_succ_of_ok h5 <| readRun_succ_of_ok h6 <| readRun_succ_of_ok h7 rfl
  obtain ⟨r, hr, hlow, hhigh, hval⟩ := interpOp_of_reads (interpFractionOk_iff.mpr ⟨hle, hlt⟩) hcells
  refine ⟨r, hr, hlow, hhigh, ?_⟩
  rw [exec_interp, hval, ok_bind, outcomeRet_ok]
  rfl

/-! `UPDOBS` of a value that is not finite (R7, I19). -/

/-- The floor of an infinity is that infinity, and of a NaN a NaN. -/
theorem f32Floor_of_not_finite {x : F32} (h : f32IsFinite x = false) : f32IsFinite (f32Floor x) = false := by
  unfold f32Floor
  by_cases hn : f32IsNaN x = true
  · rw [if_pos hn, f32IsFinite_nan]
  · have hinf : f32IsInf x = true := by
      rw [Bool.eq_false_iff, ne_eq, f32IsFinite_iff] at h
      rw [f32IsNaN_iff] at hn
      rw [f32IsInf_iff]
      omega
    rw [if_neg hn, if_pos (by rw [hinf, Bool.true_or]), h]

theorem f32ToInt_of_not_finite {x : F32} (h : f32IsFinite x = false) : f32ToInt x = none := by
  rw [f32ToInt, h, Bool.false_and, if_neg Bool.false_ne_true]

theorem toInt_eq_refused {c : Cfg} {x : F32} (h : c.num.f2i x = none) :
    toInt c x = .error (.refused (.toIntUndefined x)) := by
  rw [toInt, h]

theorem updObsOp_of_not_finite {x : F32} (h : f32IsFinite x = false) (s : State) :
    updObsOp hw x s = .error (.refused (.toIntUndefined (f32Floor x))) := by
  have hstop := toInt_eq_refused (c := hw) (f32ToInt_of_not_finite (f32Floor_of_not_finite h))
  simp only [updObsOp, hw_num, ieee_ffloor, hstop, error_bind]

/-- `UPDOBS` run on its own empties the latch. -/
theorem exec_updobs (sps : F32) (s : State) :
    exec (.updobs sps) s = outcome (updObsOp hw sps s >>= fun t => .ok { t with ret := .none }) := rfl

/-- Settles O33: the fraction's test comes first, then the window's reads; `UPDOBS` stops at `f2i` of the floor. -/
theorem operandsWithoutMeaningStop : Obligations.OperandsWithoutMeaningStop := by
  intro s sp off mu
  refine ⟨fun hbad => ?_, fun hle hlt hend => ?_, fun hfin => ?_⟩
  · have hfrac : ¬ interpFractionOk hw mu = true := by
      rw [interpFractionOk_iff, not_and_or, Bool.not_eq_true, Bool.not_eq_true]
      exact hbad
    rw [exec_interp, interpOp_of_bad_fraction hfrac]
    rfl
  · have hpast : spaceLength s sp < off + 8 := by cases sp <;> exact hend
    obtain ⟨f, hf⟩ := readWindow_past_end hpast
    refine ⟨f, ?_⟩
    rw [exec_interp, interpOp_of_window_error (interpFractionOk_iff.mpr ⟨hle, hlt⟩) hf]
    rfl
  · rw [exec_updobs, updObsOp_of_not_finite hfin]
    rfl

end Sys2Proof.Machine
end

section
/-! PROOFS. The differential demodulator run on its own (41_differential_demodulator.md rules R120, R122, R123). -/

namespace Sys2Proof.Machine

/-! `CMULC` (R120). -/

/-- `CMULC` run on its own writes the latch with the operation's pair. -/
theorem exec_cmulc (pI pQ cI cQ : F32) (s : State) :
    exec (.cmulc pI pQ cI cQ) s =
      .next { s with ret := .pair (cmulcOp hw pI pQ cI cQ).1 (cmulcOp hw pI pQ cI cQ).2 } := rfl

/-- In binary32 each product and each sum of `CMULC` is rounded once, none of them fused. -/
theorem cmulcOp_hw (pI pQ cI cQ : F32) :
    cmulcOp hw pI pQ cI cQ = (f32Add (f32Mul pI cI) (f32Mul pQ cQ), f32Sub (f32Mul pI cQ) (f32Mul cI pQ)) := rfl

/-- Settles O34: the latch takes the pair of `cmulcOp_hw`. -/
theorem cmulcIsConjugateProduct : Obligations.CmulcIsConjugateProduct := by
  intro s pI pQ cI cQ
  rw [exec_cmulc, cmulcOp_hw]

/-! `PHASE` (R123). -/

/-- The bits below the sign are clear in the two zeros and in no other pattern. -/
theorem f32Body_eq_zero_iff (x : F32) : f32Body x = 0 ↔ x = 0x00000000#32 ∨ x = 0x80000000#32 := by
  have hx := x.isLt
  simp only [f32Body, ← BitVec.toNat_inj, BitVec.toNat_ofNat]
  omega

/-- What compares equal to `+0.0` is a zero of either sign, and a NaN does not (R7). -/
theorem f32Eq_zeroF_iff (x : F32) : f32Eq x zeroF = true ↔ x = 0x00000000#32 ∨ x = 0x80000000#32 := by
  rw [← f32Body_eq_zero_iff]
  cases hn : f32IsNaN x with
  | true =>
    have hbody := (f32IsNaN_iff x).mp hn
    have hne : f32Eq x zeroF = false := by rw [f32Eq, hn]; rfl
    rw [hne]
    exact iff_of_false Bool.false_ne_true (by omega)
  | false =>
    rw [f32Eq_iff hn (f32IsNaN_eq_false f32IsFinite_literals.1), zeroF_key, ← f32Key_natAbs, Int.natAbs_eq_zero]

/-- `PHASE` run on its own writes the latch with the operation's phase. -/
theorem exec_phase (dQ dI : F32) (s : State) :
    exec (.phase dQ dI) s = .next { s with ret := .f32 (phaseOp hw dQ dI) } := rfl

/-- The guard of `PHASE` holds at the four pairs of zeros and nowhere else. -/
theorem phaseOp_hw (dQ dI : F32) :
    phaseOp hw dQ dI =
      if (dQ = 0x00000000#32 ∨ dQ = 0x80000000#32) ∧ (dI = 0x00000000#32 ∨ dI = 0x80000000#32) then 0x00000000#32
      else Config.atan2 dQ dI := by
  simp only [phaseOp, hw_num, ieee_feq, ieee_atan2, Bool.and_eq_true, f32Eq_zeroF_iff]
  rfl

/-- Settles O35: the latch takes the phase of `phaseOp_hw`. -/
theorem phaseGuardsZeros : Obligations.PhaseGuardsZeros := by
  intro s dQ dI
  rw [exec_phase, phaseOp_hw]

/-! `DIFF` (R122). -/

/-- `DIFF` run on its own writes the latch with what the operation answers. -/
theorem exec_diff (x : Nat) (s : State) :
    exec (.diff x) s = outcomeRet s (diffOp hw s x >>= fun v => .ok (.f32 v)) := rfl

/-- Where `INTERP` answers, run on its own it completes with that answer in the latch. -/
theorem exec_interp_of_ok {s : State} {sp : Space} {off : Nat} {mu v : F32} (h : interpOp hw s sp off mu = .ok v) :
    exec (.interp sp off mu) s = .next { s with ret := .f32 v } := by
  rw [exec_interp, h, ok_bind, outcomeRet_ok]

/-- Where `DIFF` answers, run on its own it completes with that answer in the latch. -/
theorem exec_diff_of_ok {s : State} {x : Nat} {v : F32} (h : diffOp hw s x = .ok v) :
    exec (.diff x) s = .next { s with ret := .f32 v } := by
  rw [exec_diff, h, ok_bind, outcomeRet_ok]

/-- Settles O36: with its reads in range `DIFF` answers the phase of the units' product (`diffOp_ok`), and each unit run on
its own leaves that answer in the latch. -/
theorem diffComposesItsUnits : Obligations.DiffComposesItsUnits := by
  intro s x off hoff hx hend hle hlt
  obtain ⟨cI, cQ, hI, hQ, hdiff⟩ := diffOp_ok hoff hx hend (interpFractionOk_iff.mpr ⟨hle, hlt⟩)
  exact ⟨cI, cQ, _, _, _, exec_interp_of_ok hI, exec_interp_of_ok hQ, exec_cmulc _ _ _ _ s, exec_phase _ _ s,
    exec_diff_of_ok hdiff⟩

end Sys2Proof.Machine
end

section
/-! PROOFS. `UNWRAP` and `LOOPUPD` run on their own (42_symbol_processor.md rules R135, R136, R141; 10_state.md rule R28). -/

namespace Sys2Proof.Machine

/-! `UNWRAP` (R135). -/

/-- `UNWRAP` run on its own writes the latch with the operation's phase. -/
theorem exec_unwrap (cur prev : F32) (s : State) :
    exec (.unwrap cur prev) s = .next { s with ret := .f32 (unwrapOp hw cur prev) } := rfl

theorem f32Neg_piF : f32Neg piF = 0xC0490FDB#32 := by decide +kernel

/-- The two tests of `UNWRAP` in binary32, on the one rounded difference. -/
theorem unwrapOp_hw (cur prev : F32) :
    unwrapOp hw cur prev =
      if f32Lt 0x40490FDB#32 (f32Sub cur prev) then f32Sub cur 0x40C90FDB#32
      else if f32Lt (f32Sub cur prev) 0xC0490FDB#32 then f32Add cur 0x40C90FDB#32
      else cur := by
  simp only [unwrapOp, hw_num, ieee_fsub, ieee_fadd, ieee_fgt, ieee_flt, ieee_fneg, f32Neg_piF]
  rfl

/-- Settles O37: the latch takes the phase of `unwrapOp_hw`. -/
theorem unwrapRemovesOneTurn : Obligations.UnwrapRemovesOneTurn := by
  intro s c p
  rw [exec_unwrap, unwrapOp_hw]

/-! `LOOPUPD` (R136). -/

/-- `LOOPUPD` run on its own is the loop filter with the latch emptied. -/
theorem exec_loopupd (eps : F32) (s : State) :
    exec (.loopupd eps) s = .next { loopUpdOp hw eps s with ret := .none } := rfl

/-- The guard and the clamp of `LOOPUPD` in binary32, in their order. -/
theorem loopObserved_hw (eps : F32) (s : State) :
    loopObserved hw eps s =
      if f32IsFinite (f32Add s.observedSps (f32Mul eps 0x39807358#32)) = false then s.nominalSps
      else if f32Lt (obsHi hw s) (f32Add s.observedSps (f32Mul eps 0x39807358#32)) then obsHi hw s
      else if f32Lt (f32Add s.observedSps (f32Mul eps 0x39807358#32)) (obsLo hw s) then obsLo hw s
      else f32Add s.observedSps (f32Mul eps 0x39807358#32) := by
  simp only [loopObserved, hw_num, hw_obsGain, ieee_fadd, ieee_fmul, ieee_isfinite, ieee_fgt, ieee_flt, Bool.not_eq_true']
  rfl

/-- Settles O40: `loopObserved_hw` gives the new `OBSERVED_SPS`, and the re-arm adds it to the countdown. -/
theorem loopupdFiltersAndRearms : Obligations.LoopupdFiltersAndRearms := by
  intro s eps o ho
  obtain rfl : o = loopObserved hw eps s := by rw [ho, loopObserved_hw]
  exact exec_loopupd eps s

theorem f32IsFinite_eq_false {x : F32} (h : f32IsNaN x = true) : f32IsFinite x = false := by
  rw [Bool.eq_false_iff]
  intro hf
  rw [f32IsNaN_eq_false hf] at h
  cases h

/-- A NaN timing error makes the filter's sum a NaN, which the guard sends to nominal (R141). -/
theorem loopObserved_of_nan {eps : F32} (h : f32IsNaN eps = true) (s : State) :
    loopObserved hw eps s = s.nominalSps := by
  rw [loopObserved_hw, if_pos (f32IsFinite_eq_false (f32Add_nan_right (f32Mul_nan_left h)))]

/-- A NaN timing error makes the countdown a NaN (R141). -/
theorem loopUpdOp_samplePoint_of_nan {eps : F32} (h : f32IsNaN eps = true) (s : State) :
    f32IsNaN (loopUpdOp hw eps s).samplePoint = true :=
  f32Add_nan_right (f32Add_nan_right (f32Mul_nan_left h))

/-- With accepted rates the loop filter is within its bounds for every timing error (R28, R136). -/
theorem Session.loopUpdOp_bounded {s : State} (h : Session hw s) (eps : F32) : LoopBounded hw (loopUpdOp hw eps s) :=
  (loopBounded_iff (s := loopUpdOp hw eps s) h.rateBounds).mpr (loopObserved_bounded h.rateBounds eps)

/-- Settles O41: the clamp gives the bounds (`Session.loopUpdOp_bounded`), and a NaN timing error passes into both sums. -/
theorem loopupdStaysBounded : Obligations.LoopupdStaysBounded := by
  intro s eps hs
  obtain ⟨hfin, hlow, hhigh⟩ := hs.loopUpdOp_bounded eps
  exact ⟨_, exec_loopupd eps s, ⟨hfin, hlow, hhigh⟩,
    fun hn => ⟨loopObserved_of_nan hn s, loopUpdOp_samplePoint_of_nan hn s⟩⟩

end Sys2Proof.Machine
end

section
/-! PROOFS. `SYMBOL` as a run of its unit operations, and `SPSAMPLE` (42_symbol_processor.md rules R131, R132, R134, R137 to
R140).

Inside `SYMBOL` the unit operations find `SEQ` stepped and leave the latch; run on their own they find `SEQ` as it was and
write the latch. `State.withControl` puts values in these two fields, and no operation reads either, so what one answers in
a state it answers in that state under any control. Each state of `SEQ` then has one lemma that gives its run through `exec`
and, under any control, its part of `SYMBOL`. -/

namespace Sys2Proof.Machine

/-! The two fields no operation reads. -/

/-- A state with these values in `SEQ` and in the latch `ret`. -/
def State.withControl (q : SeqState) (r : Ret) (s : State) : State := { s with seq := q, ret := r }

theorem Shape.withControl {c : Cfg} {s : State} (h : Shape c s) (q : SeqState) (r : Ret) : Shape c (s.withControl q r) :=
  { h with }

section
variable {c : Cfg} {s : State} (q : SeqState) (r : Ret)

theorem eqInsertOp_withControl {d : Dibit} {ph : F32} {t : State} (h : eqInsertOp c d ph s = .ok t) :
    eqInsertOp c d ph (s.withControl q r) = .ok (t.withControl q r) := by
  obtain ⟨hz, ha, rfl⟩ := eqInsertOp_eq_ok.mp h
  exact eqInsertOp_eq_ok.mpr ⟨hz, ha, rfl⟩

theorem eqProcOp_withControl {d : Dibit} {ph : F32} {p : State × F32} (h : eqProcOp c d ph s = .ok p) :
    eqProcOp c d ph (s.withControl q r) = .ok (p.1.withControl q r, p.2) := by
  obtain ⟨s1, rs, qs, zc, ac, hins, hrs, hqs, hzc, hac, hy, hp⟩ := eqProcOp_eq_ok.mp h
  exact eqProcOp_eq_ok.mpr
    ⟨s1.withControl q r, rs, qs, zc, ac, eqInsertOp_withControl q r hins, hrs, hqs, hzc, hac, hy, by rw [hp]; rfl⟩

theorem eqSyncOp_withControl {ds : List Dibit} {t : State} (h : eqSyncOp c ds s = .ok t) :
    eqSyncOp c ds (s.withControl q r) = .ok (t.withControl q r) := by
  obtain ⟨hlen, a, rs, qs, main, ha, hrs, hqs, hmain, rfl⟩ := eqSyncOp_eq_ok.mp h
  exact eqSyncOp_eq_ok.mpr ⟨hlen, a, rs, qs, main, ha, hrs, hqs, hmain, rfl⟩

/-- The retuning that ends a sync event, made or left out as `b` says (R138). -/
theorem retune_withControl {b : Bool} {ds : List Dibit} {t : State} (h : (if b then eqSyncOp c ds s else .ok s) = .ok t) :
    (if b then eqSyncOp c ds (s.withControl q r) else .ok (s.withControl q r)) = .ok (t.withControl q r) := by
  cases b with
  | true => exact eqSyncOp_withControl q r h
  | false => cases h; rfl

theorem syncCorrOp_withControl {ph : F32} {p : State × F32} (h : syncCorrOp c ph s = .ok p) :
    syncCorrOp c ph (s.withControl q r) = .ok (p.1.withControl q r, p.2) := by
  obtain ⟨hins, hread, hp, hscore⟩ := syncCorrOp_eq_ok.mp h
  exact syncCorrOp_eq_ok.mpr ⟨hins, hread, by rw [hp]; rfl, hscore⟩

theorem ddlPushOp_withControl {d : Dibit} {p : State × Dibit} (h : ddlPushOp d s = .ok p) :
    ddlPushOp d (s.withControl q r) = .ok (p.1.withControl q r, p.2) := by
  obtain ⟨hout, hp⟩ := ddlPushOp_eq_ok.mp h
  exact ddlPushOp_eq_ok.mpr ⟨hout, by rw [hp]; rfl⟩

theorem ddlSyncOp_withControl {t : State} (h : ddlSyncOp s = .ok t) :
    ddlSyncOp (s.withControl q r) = .ok (t.withControl q r) := by
  obtain ⟨ring, hring, rfl⟩ := ddlSyncOp_eq_ok.mp h
  exact ddlSyncOp_eq_ok.mpr ⟨ring, hring, rfl⟩

end

/-! The sizes of the register files, which these operations keep whatever the rings hold. -/

theorem eqInsertOp_shape {c : Cfg} {d : Dibit} {ph : F32} {s t : State} (h : eqInsertOp c d ph s = .ok t)
    (hs : Shape c s) : Shape c t := by
  obtain ⟨_, _, rfl⟩ := eqInsertOp_eq_ok.mp h
  exact { hs with
    eqZ := by simpa using hs.eqZ
    eqA := by simpa using hs.eqA
    eqP := Nat.mod_lt _ (cfgLen_pos c) }

theorem eqProcOp_shape {c : Cfg} {d : Dibit} {ph : F32} {s : State} {p : State × F32} (h : eqProcOp c d ph s = .ok p)
    (hs : Shape c s) : Shape c p.1 := by
  obtain ⟨s1, rs, qs, zc, ac, hins, hrs, hqs, _, _, _, hp⟩ := eqProcOp_eq_ok.mp h
  have hs1 := eqInsertOp_shape hins hs
  rw [hs1.eqResiduals_ok] at hrs
  rw [hs1.eqTaps_ok] at hqs
  cases hrs; cases hqs
  rw [hp]
  exact { hs1 with eqQ := by rw [mapOffCentre_length, hs1.eqQ, residuals_length hs1, Nat.min_self] }

theorem syncCorrOp_shape {c : Cfg} {ph : F32} {s : State} {p : State × F32} (h : syncCorrOp c ph s = .ok p)
    (hs : Shape c s) : Shape c p.1 := by
  obtain ⟨_, _, hp, _⟩ := syncCorrOp_eq_ok.mp h
  rw [hp]
  exact { hs with sdS := by simpa using hs.sdS, sdI := Nat.mod_lt _ (by norm_num) }

theorem spInsertOp_shape {c : Cfg} {phi : F32} {s t : State} (h : spInsertOp c phi s = .ok t) (hs : Shape c s) :
    Shape c t := by
  obtain ⟨_, rfl⟩ := spInsertOp_eq_ok.mp h
  exact { hs with dly := by simpa using hs.dly, dlyPtr := Nat.mod_lt _ (by norm_num) }

/-! The unit operations of `SYMBOL` run on their own. -/

theorem outcome_bind_of_ok {α : Type} {x : Res α} {a : α} {f : α → State} (h : x = .ok a) :
    outcome (x >>= fun b => .ok (f b)) = .next (f a) := by
  rw [h, ok_bind, outcome_ok]

theorem exec_decide (phi : F32) (s : State) :
    exec (.decidePhi phi) s = .next { s with ret := .dibit (decideOp hw phi) } := rfl

theorem exec_terr (d : Dibit) (prec cur foll : F32) (s : State) :
    exec (.terr d prec cur foll) s = .next { s with ret := .f32 (terrOp hw d prec cur foll) } := rfl

theorem exec_eqproc_of_ok {d : Dibit} {ph : F32} {s : State} {p : State × F32} (h : eqProcOp hw d ph s = .ok p) :
    exec (.eqproc d ph) s = .next { p.1 with ret := .f32 p.2 } :=
  outcome_bind_of_ok h

theorem exec_eqnoupd_of_ok {d : Dibit} {ph : F32} {s t : State} (h : eqInsertOp hw d ph s = .ok t) :
    exec (.eqnoupd d ph) s = .next { t with ret := .none } :=
  outcome_bind_of_ok h

theorem exec_eqsync_of_ok {ds : List Dibit} {s t : State} (h : eqSyncOp hw ds s = .ok t) :
    exec (.eqsync ds) s = .next { t with ret := .none } :=
  outcome_bind_of_ok h

/-- The retuning that ends a sync event, run after `DDLSYNC` has emptied the latch. -/
theorem exec_retune {b : Bool} {ds : List Dibit} {s t : State} (h : (if b then eqSyncOp hw ds s else .ok s) = .ok t) :
    if b then exec (.eqsync ds) (s.withControl s.seq .none) = .next (t.withControl t.seq .none)
    else t.withControl t.seq .none = s.withControl s.seq .none := by
  cases b with
  | true =>
    have hseq : t.seq = s.seq := by rw [eqSyncOp_frame h]
    rw [hseq]
    exact exec_eqsync_of_ok (eqSyncOp_withControl s.seq .none h)
  | false => cases h; rfl

theorem exec_synccorr_of_ok {ph : F32} {s : State} {p : State × F32} (h : syncCorrOp hw ph s = .ok p) :
    exec (.synccorr ph) s = .next { p.1 with ret := .f32 p.2 } :=
  outcome_bind_of_ok h

theorem exec_ddlpush_of_ok {d : Dibit} {s : State} {p : State × Dibit} (h : ddlPushOp d s = .ok p) :
    exec (.ddlpush d) s = .next { p.1 with ret := .dibit p.2 } :=
  outcome_bind_of_ok h

theorem exec_ddlsync_of_ok {s t : State} (h : ddlSyncOp s = .ok t) :
    exec .ddlsync s = .next { t with ret := .none } :=
  outcome_bind_of_ok h

/-! `SYMBOL`, state by state of `SEQ` (R134). -/

/-- DECIDE: with a fraction in the countdown the phase is interpolated and its two neighbours are read. -/
theorem symbolDecide_runs {s : State} (hs : Shape hw s) (hm : interpFractionOk hw s.samplePoint = true) :
    ∃ phi prec foll, interpOp hw s .dly s.dlyPtr s.samplePoint = .ok phi ∧ s.dly[s.dlyPtr + 3]? = some prec ∧
      s.dly[s.dlyPtr + 4]? = some foll ∧ ∀ q r, symbolDecide hw (s.withControl q r) =
        .ok (phi, decideOp hw phi, if s.noisy then zeroF else terrOp hw (decideOp hw phi) prec phi foll) := by
  have hlen := hs.dly
  have hptr := hs.dlyPtr
  obtain ⟨phi, hphi⟩ := interpOp_dly (s := s) (off := s.dlyPtr) hm (by omega)
  have hprec : s.dly[s.dlyPtr + 3]? = some s.dly[s.dlyPtr + 3] := List.getElem?_eq_getElem _
  have hfoll : s.dly[s.dlyPtr + 4]? = some s.dly[s.dlyPtr + 4] := List.getElem?_eq_getElem _
  exact ⟨phi, _, _, hphi, hprec, hfoll, fun q r => symbolDecide_eq_ok.mpr ⟨_, _, hphi, hprec, hfoll, rfl, rfl⟩⟩

theorem symbolEqualize_of_noisy {c : Cfg} {phi : F32} {d0 : Dibit} {s t : State} (hn : s.noisy = true)
    (h : eqInsertOp c d0 phi s = .ok t) : symbolEqualize c phi d0 s = .ok (t, d0, phi) := by
  rw [symbolEqualize, if_pos hn, h, ok_bind]

theorem symbolEqualize_of_clean {c : Cfg} {phi : F32} {d0 : Dibit} {s : State} {p : State × F32} (hn : ¬ s.noisy = true)
    (h : eqProcOp c d0 phi s = .ok p) : symbolEqualize c phi d0 s = .ok (p.1, decideOp c p.2, p.2) := by
  rw [symbolEqualize, if_neg hn, h, ok_bind]

/-- EQUALIZE: `EQNOUPD` for a noisy symbol, `EQPROC` and a second `DECIDE` for a clean one (R137). -/
theorem symbolEqualize_runs {s : State} (hs : Shape hw s) (phi : F32) (d0 : Dibit) :
    ∃ t d1 pc, EqualizeRun d0 phi s t d1 pc ∧ Shape hw t ∧
      ∀ q r, symbolEqualize hw phi d0 (s.withControl q r) = .ok (t.withControl q r, d1, pc) := by
  by_cases hn : s.noisy = true
  · have hins := hs.eqInsertOp_ok d0 phi
    refine ⟨_, d0, phi, ?_, (eqInsertOp_shape hins hs).withControl s.seq .none,
      fun q r => (symbolEqualize_of_noisy (s := s.withControl q r) hn (eqInsertOp_withControl q r hins) :)⟩
    rw [EqualizeRun, if_pos hn]
    exact ⟨exec_eqnoupd_of_ok hins, rfl, rfl⟩
  · obtain ⟨p, hp⟩ := eqProcOp_of_shape hs d0 phi
    refine ⟨_, decideOp hw p.2, p.2, ?_, (eqProcOp_shape hp hs).withControl p.1.seq (.f32 p.2),
      fun q r => (symbolEqualize_of_clean (s := s.withControl q r) hn (eqProcOp_withControl q r hp) :)⟩
    rw [EqualizeRun, if_neg hn]
    exact ⟨exec_eqproc_of_ok hp, rfl, exec_decide _ _⟩

/-- CORRELATE: `SYNCCORR`, then the final decision shifted into `SSR` (R140). -/
theorem symbolCorrelate_runs {s : State} (hs : Shape hw s) (d1 : Dibit) (pc : F32) :
    ∃ t score, exec (.synccorr pc) s = .next t ∧ t.ret = .f32 score ∧ Shape hw t ∧
      ∀ q r, symbolCorrelate hw d1 pc (s.withControl q r) = .ok ((shiftSsr d1 t).withControl q r, score) := by
  obtain ⟨p, hp⟩ := hs.syncCorrOp_ok pc
  refine ⟨_, p.2, exec_synccorr_of_ok hp, rfl, (syncCorrOp_shape hp hs).withControl p.1.seq (.f32 p.2), fun q r => ?_⟩
  rw [symbolCorrelate, syncCorrOp_withControl q r hp]
  rfl

theorem isSyncEvent_hw {score : F32} : isSyncEvent hw score = true ↔ f32Lt syncThresholdF score = true := Iff.rfl

/-- EMIT: `DDLSYNC`, and `EQSYNC` as `CTRL` says, at a sync event (R138); `DDLPUSH` otherwise (R139). -/
theorem symbolEmit_runs {s : State} (hs : Shape hw s) (score : F32) (d1 : Dibit) :
    ∃ t out, EmitRun score d1 s t out ∧
      ∀ q r, symbolEmit hw score d1 (s.withControl q r) = .ok ((emit out t).withControl q r) := by
  obtain ⟨_, h⟩ := symbolEmit_of_shape hs score d1
  simp only [symbolEmit_eq_ok] at h ⊢
  by_cases he : isSyncEvent hw score = true
  · rw [if_pos he] at h
    obtain ⟨u, v, hsync, hretune, -⟩ := h
    have hen : u.retuneEn = s.retuneEn := (UnitEffect.ddlsync hsync).sameFacade.retuneEn
    refine ⟨v.withControl v.seq .none, .d01Plus3, ?_, fun q r => ?_⟩
    · rw [EmitRun, if_pos (isSyncEvent_hw.mp he), ← hen]
      exact ⟨_, exec_ddlsync_of_ok hsync, rfl, exec_retune hretune⟩
    · rw [if_pos he]
      exact ⟨_, _, ddlSyncOp_withControl q r hsync, retune_withControl q r hretune, rfl⟩
  · rw [if_neg he] at h
    obtain ⟨p, hp, -⟩ := h
    refine ⟨p.1.withControl p.1.seq (.dibit p.2), p.2, ?_, fun q r => ?_⟩
    · rw [EmitRun, if_neg (mt isSyncEvent_hw.mpr he)]
      exact ⟨exec_ddlpush_of_ok hp, rfl⟩
    · rw [if_neg he]
      exact ⟨_, ddlPushOp_withControl q r hp, rfl⟩

/-- In a state of the right shape with a fraction in the countdown `SYMBOL` completes as a run of its unit operations,
whatever the latch holds, and leaves the latch alone. -/
theorem symbolOp_runs {s : State} (hs : Shape hw s) (hm : interpFractionOk hw s.samplePoint = true) :
    ∃ t, SymbolRun s t ∧ t.ret = .none ∧ ∀ r, symbolOp hw { s with ret := r } = .ok { t with ret := r } := by
  obtain ⟨phi, prec, foll, hphi, hprec, hfoll, hdecide⟩ := symbolDecide_runs hs hm
  generalize he : terrOp hw (decideOp hw phi) prec phi foll = e at hdecide
  have hs1 : Shape hw { loopUpdOp hw (if s.noisy then zeroF else e) s with ret := .none } := { hs with }
  obtain ⟨s2, d1, pc, heq, hs2, hequalize⟩ := symbolEqualize_runs hs1 phi (decideOp hw phi)
  obtain ⟨s3, score, hcorr, hscore, hs3, hcorrelate⟩ := symbolCorrelate_runs hs2 d1 pc
  have hs3' : Shape hw (shiftSsr d1 s3) := { hs3 with }
  obtain ⟨s4, out, hrun, hemit⟩ := symbolEmit_runs hs3' score d1
  have hsymbol : ∀ r, symbolOp hw { s with ret := r } =
      .ok (setSeq .await (clearNoisy ((emit out s4).withControl .emit r))) := fun r =>
    symbolOp_eq_ok.mpr ⟨_, _, _, _, hdecide .decide r, hequalize .equalize r, hcorrelate .correlate r, hemit .emit r, rfl⟩
  have houtq : s4.outq = s.outq := by
    obtain ⟨_, ⟨out', ho⟩, _⟩ := symbolOp_frame (hsymbol .none)
    exact (List.append_inj' ho rfl).1
  refine ⟨_, ⟨phi, prec, foll, e, pc, score, decideOp hw phi, d1, out, _, s2, s3, s4, exec_interp_of_ok hphi,
    exec_decide phi s, hprec, hfoll, by rw [exec_terr, he], exec_loopupd _ s, heq, hcorr, hscore, hrun, rfl⟩, rfl,
    fun r => ?_⟩
  rw [hsymbol r, ← houtq]
  rfl

/-- `SYMBOL` run on its own empties the latch. -/
theorem exec_symbol (s : State) :
    exec .symbol s = outcome (symbolOp hw s >>= fun t => .ok { t with ret := .none }) := rfl

theorem exec_symbol_of_ok {s t : State} (h : symbolOp hw s = .ok t) : exec .symbol s = .next { t with ret := .none } :=
  outcome_bind_of_ok h

/-- Settles O39: each state of `SEQ` is a run of its unit operations (`symbolOp_runs`), and the latch ends empty. -/
theorem symbolRunsItsUnitOperations : Obligations.SymbolRunsItsUnitOperations := by
  intro s hs hle hlt
  obtain ⟨t, hrun, hret, hsymbol⟩ := symbolOp_runs hs (interpFractionOk_iff.mpr ⟨hle, hlt⟩)
  exact ⟨t, (exec_symbol_of_ok (hsymbol s.ret)).trans (by rw [← hret]), hrun⟩

/-! `SPSAMPLE` (R131, R132). -/

/-- `SPSAMPLE` run on its own empties the latch. -/
theorem exec_spsample (phi : F32) (s : State) :
    exec (.spsample phi) s = outcome (spSampleOp hw phi s >>= fun t => .ok { t with ret := .none }) := rfl

/-- Without a fraction in the countdown `SYMBOL` is refused at its first operation (R114). -/
theorem symbolOp_of_bad_fraction {c : Cfg} {s : State} (h : ¬ interpFractionOk c s.samplePoint = true) :
    symbolOp c s = .error (.refused (.interpFraction s.samplePoint)) := by
  rw [symbolOp, symbolDecide, interpOp_of_bad_fraction (by exact h)]
  rfl

/-- `SYMBOL` run on its own does not depend on the latch, whether it completes or is refused. -/
theorem exec_symbol_of_ret {s : State} (hs : Shape hw s) (r : Ret) :
    exec .symbol { s with ret := r } = exec .symbol s := by
  by_cases hm : interpFractionOk hw s.samplePoint = true
  · obtain ⟨t, _, _, hsymbol⟩ := symbolOp_runs hs hm
    exact (exec_symbol_of_ok (hsymbol r)).trans (exec_symbol_of_ok (hsymbol s.ret)).symm
  · rw [exec_symbol, exec_symbol, symbolOp_of_bad_fraction hm, symbolOp_of_bad_fraction (s := { s with ret := r }) hm]

/-- `SPSAMPLE` after its insert: the test of the countdown (R131). -/
theorem spSampleOp_of_insert {phi : F32} {s a : State} (h : spInsertOp hw phi s = .ok a) :
    spSampleOp hw phi s = if f32Lt a.samplePoint oneF then symbolOp hw a else .ok a := by
  rw [spSampleOp, h, ok_bind]
  rfl

/-- Settles O38: `spInsertOp_eq_ok` gives the state before the test, and `SYMBOL` does not depend on the latch. -/
theorem spsampleInsertsAndCountsDown : Obligations.SpsampleInsertsAndCountsDown := by
  intro s phi hs
  obtain ⟨a, ha⟩ := spInsertOp_of_shape hs phi
  obtain ⟨_, hfields⟩ := spInsertOp_eq_ok.mp ha
  have hpoint : a.samplePoint = f32Sub s.samplePoint 0x3F800000#32 := by rw [hfields]; rfl
  refine ⟨_, { a with ret := .none }, exec_unwrap phi s.previousPhase s, by rw [hfields]; rfl, fun hend => ?_, fun hsym => ?_⟩
  · have htest : ¬ f32Lt a.samplePoint oneF = true := by rw [hpoint, Bool.not_eq_true]; exact hend
    rw [exec_spsample, spSampleOp_of_insert ha, if_neg htest, ok_bind, outcome_ok]
  · have htest : f32Lt a.samplePoint oneF = true := by rw [hpoint]; exact hsym
    rw [exec_spsample, spSampleOp_of_insert ha, if_pos htest, exec_symbol_of_ret (spInsertOp_shape ha hs), exec_symbol]

end Sys2Proof.Machine
end

section
/-! PROOFS. The samples of a batch in a sound session, and the block silenced by a NaN countdown (44_facade_commands.md
rules R167, R170; 42_symbol_processor.md rules R133, R141). -/

namespace Sys2Proof.Machine

/-- What stands before and between the samples of a batch of `n` (R167): a sound session, the countdown armed, the block
position that of `OBSERVED_SPS`, and room in the sample memories for every cursor below `n` at every position that the clamp
bounds allow. -/
structure BatchReady (n : Nat) (s : State) : Prop where
  running : Running s
  armed : Armed hw s
  placed : Placed hw s
  room : intPart (obsLo hw s) + 4 + n ≤ s.bufLen

/-- From `s` to `u` no dibit is emitted and a NaN countdown stays one, if `s` has it (R141). -/
def StaysSilent (s u : State) : Prop :=
  f32IsNaN s.samplePoint = true → f32IsNaN u.samplePoint = true ∧ u.outq = s.outq

theorem StaysSilent.trans {s t u : State} (h : StaysSilent s t) (k : StaysSilent t u) : StaysSilent s u := by
  intro hn
  obtain ⟨ht, hto⟩ := h hn
  obtain ⟨hu, huo⟩ := k ht
  exact ⟨hu, huo.trans hto⟩

/-- One sample of a batch runs to its end and leaves the block ready for the next. -/
theorem recvBlock_batchReady {s : State} {n x : Nat} (h : BatchReady n s) (hx : x < n) :
    ∃ u, recvBlock hw x 1 s = .ok u ∧ BatchReady n u ∧ StaysSilent s u := by
  have hlo : 4 ≤ intPart (obsLo hw s) := h.running.rates.four
  have hroom := h.room
  obtain ⟨_, _, u, _, _, _, hblock, hrun, harmed, hplaced, hnom, hlen, hnan⟩ :=
    recvBlock_running (m := (intPart (obsLo hw s) + 4).toNat) h.running h.armed h.placed (by omega) (by omega) hx
  refine ⟨u, hblock, ⟨hrun, harmed, hplaced, ?_⟩, hnan⟩
  rw [obsLo, hnom, hlen]
  exact hroom

/-- Step 2 of `RECV` runs to its end, by induction on the number of blocks there may be. -/
theorem recvBlocks_batchReady {s : State} {n : Nat} (h : BatchReady n s) (fuel x : Nat) :
    ∃ u, recvBlocks hw n fuel x s = .ok u ∧ BatchReady n u ∧ StaysSilent s u := by
  induction fuel generalizing s x with
  | zero => exact ⟨s, rfl, h, fun hn => ⟨hn, rfl⟩⟩
  | succ fuel ih =>
    by_cases hx : x < n
    · obtain ⟨t, hblock, ht, hst⟩ := recvBlock_batchReady h hx
      obtain ⟨u, hrest, hu, htu⟩ := ih ht (x + 1)
      exact ⟨u, by rw [recvBlocks_succ hx, hblock, ok_bind, hrest], hu, hst.trans htu⟩
    · exact ⟨s, recvBlocks_end (by omega), h, fun hn => ⟨hn, rfl⟩⟩

theorem BatchStored.frame {batch : List (F32 × F32)} {s p : State} (h : BatchStored batch s p) :
    p = { s with ibuf := p.ibuf, qbuf := p.qbuf, bufLen := p.bufLen } := by
  rcases h with h | ⟨_, rfl⟩
  · rw [h.frame]
  · rfl

/-- The batch stands behind `OVERLAP` samples (R170). -/
theorem BatchStored.room {batch : List (F32 × F32)} {s p : State} (h : BatchStored batch s p)
    (htail : s.overlap ≤ s.bufLen) : s.overlap + batch.length ≤ p.bufLen := by
  rcases h with h | ⟨rfl, rfl⟩
  · rw [h.frame]
  · exact htail

theorem Inv.running {s : State} (h : Inv hw s) : Running s :=
  ⟨⟨h.shape, h.rings, h.centre⟩, h.session.rateBounds, h.loop⟩

/-- A sound state with a batch placed in its memories is ready for the batch's samples (R167, R170): the memories' cells
and `BUF_LEN` are no part of the session. -/
theorem Inv.batchReady {s p : State} {batch : List (F32 × F32)} (hi : Inv hw s) (hp : BatchStored batch s p) :
    BatchReady batch.length p := by
  have hroom := hp.room hi.buffered.tail
  obtain ⟨_, hoverlap⟩ := hi.placed.intPart_eq hi.running
  obtain ⟨_, hlow, _⟩ := hi.running.intPart_mem
  obtain ⟨hfiles, hrates, hfinite, hlo, hhi⟩ := hi.running
  obtain ⟨hmu, hioff, hnonneg, hover⟩ := hi.placed
  rw [hp.frame]
  refine ⟨⟨hfiles.congr rfl rfl rfl rfl rfl rfl rfl rfl rfl rfl, hrates, hfinite, hlo, hhi⟩, hi.armed,
    ⟨hmu, hioff, hnonneg, hover⟩, ?_⟩
  show intPart (obsLo hw s) + 4 + batch.length ≤ p.bufLen
  omega

/-- A batch that fits is placed, and its samples run to their end: what `RECV` answers (R167). -/
theorem recvOp_ok {s : State} {batch : List (F32 × F32)} (hi : Inv hw s) (hfit : s.overlap + batch.length ≤ hw.bufCap) :
    ∃ p u, BatchStored batch s p ∧ BatchReady batch.length u ∧ StaysSilent p u ∧
      recvOp hw batch s = .ok (recvHandOver u) := by
  obtain ⟨p, hplace, hstored, _⟩ := recvPlace_ok hi.buffered.tail hfit hi.memory
  obtain ⟨u, hblocks, hu, hsilent⟩ := recvBlocks_batchReady (hi.batchReady hstored) batch.length 0
  refine ⟨p, u, hstored, hu, hsilent, ?_⟩
  rw [recvOp, if_neg (by omega), hplace, ok_bind, hblocks, ok_bind]

theorem exec_recv_of_ok {s t : State} {batch : List (F32 × F32)} (ts : BitVec 64) (h : recvOp hw batch s = .ok t) :
    exec (.recv ts batch) s = .next t :=
  outcome_eq_next.mpr h

/-- Settles O28: a NaN countdown stays a NaN through the batch and `OUTQ` stays empty, so there is nothing to hand over. -/
theorem nanCountdownSilencesBlock : Obligations.NaNCountdownSilencesBlock := by
  intro s ts batch hi hn hfit
  obtain ⟨p, u, hstored, _, hsilent, hrecv⟩ := recvOp_ok hi hfit
  have hpoint : p.samplePoint = s.samplePoint := by rw [hstored.frame]
  have houtq : p.outq = [] := by rw [hstored.frame]; exact hi.boundary.outq
  obtain ⟨hnan, hsame⟩ := hsilent (by rw [hpoint]; exact hn)
  refine ⟨_, exec_recv_of_ok ts hrecv, ?_, hnan⟩
  rw [recvHandOver, hsame, houtq]
  rfl

end Sys2Proof.Machine
end

section
/-! PROOFS. The LMS equalizer run on its own (43_equalizer.md rules R150 to R154). -/

namespace Sys2Proof.Machine

/-! Inner products in ascending order (R8). -/

theorem getElem?_eq_getD {xs : List F32} {l : Nat} (d : F32) (h : l < xs.length) : xs[l]? = some (xs.getD l d) := by
  rw [List.getD_eq_getElem _ _ h, List.getElem?_eq_getElem h]

theorem zipWith_eq_map_range {f : F32 → F32 → F32} {xs ys : List F32} {m : Nat} (d : F32) (hx : xs.length = m)
    (hy : ys.length = m) : List.zipWith f xs ys = (List.range m).map fun l => f (xs.getD l d) (ys.getD l d) := by
  refine List.ext_getElem (by simp [hx, hy]) fun l hl _ => ?_
  have hlm : l < m := by simpa [hx, hy] using hl
  rw [List.getElem_zipWith, List.getElem_map, List.getElem_range, List.getD_eq_getElem, List.getD_eq_getElem]

/-- A sum of at least one term starts from its first term and adds the others in ascending order. -/
theorem sumAsc_map_range (c : Cfg) (f : Nat → F32) (m : Nat) :
    sumAsc c ((List.range (m + 1)).map f) = (List.range m).foldl (fun w l => c.num.fadd w (f (l + 1))) (f 0) := by
  rw [List.range_succ_eq_map, List.map_cons, List.map_map, sumAsc, List.foldl_map]
  rfl

theorem dot_eq_foldl {c : Cfg} {xs ys : List F32} {m : Nat} (d : F32) (hx : xs.length = m + 1) (hy : ys.length = m + 1) :
    dot c xs ys = (List.range m).foldl
      (fun w l => c.num.fadd w (c.num.fmul (xs.getD (l + 1) d) (ys.getD (l + 1) d)))
      (c.num.fmul (xs.getD 0 d) (ys.getD 0 d)) := by
  rw [dot, zipWith_eq_map_range d hx hy, sumAsc_map_range]

/-! The residuals and the taps (R150, R37). -/

/-- There are `L` residuals, and each is the difference of the two rings' cells at its window position (R150). -/
theorem Shape.eqResiduals_spec {c : Cfg} {s : State} {rs : List F32} (hs : Shape c s) (h : eqResiduals c s = .ok rs)
    (d : F32) : rs.length = c.len ∧
      ∀ l, l < c.len → ∃ z a, s.eqZ[s.eqP + l]? = some z ∧ s.eqA[s.eqP + l]? = some a ∧ rs.getD l d = c.num.fsub z a := by
  rw [hs.eqResiduals_ok] at h
  cases h
  refine ⟨residuals_length hs, fun l hl => ?_⟩
  have hp := hs.eqP
  have hz : s.eqP + l < s.eqZ.length := by rw [hs.eqZ]; omega
  have ha : s.eqP + l < s.eqA.length := by rw [hs.eqA]; omega
  refine ⟨_, _, List.getElem?_eq_getElem hz, List.getElem?_eq_getElem ha, ?_⟩
  rw [List.getD_eq_getElem _ _ (by rw [residuals_length hs]; exact hl)]
  simp only [List.getElem_zipWith, List.getElem_take, List.getElem_drop]

/-- An update of the taps keeps their number and the centre tap, and makes each other tap of the old one and its residual
(R152, R154). -/
theorem mapOffCentre_spec {c : Cfg} {qs rs : List F32} (f : F32 → F32 → F32) (d : F32) (hq : qs.length = c.len)
    (hr : rs.length = c.len) :
    (mapOffCentre c.n f 0 qs rs).length = c.len ∧ (mapOffCentre c.n f 0 qs rs)[c.n]? = qs[c.n]? ∧
      ∀ l, l < c.len → l ≠ c.n → (mapOffCentre c.n f 0 qs rs)[l]? = some (f (qs.getD l d) (rs.getD l d)) := by
  have hcell : ∀ l, l < c.len → (mapOffCentre c.n f 0 qs rs)[l]? =
      some (if 0 + l = c.n then qs.getD l d else f (qs.getD l d) (rs.getD l d)) := fun l hl =>
    mapOffCentre_getElem? (getElem?_eq_getD d (by omega)) (getElem?_eq_getD d (by omega))
  have hn : c.n < c.len := by unfold Cfg.len; omega
  refine ⟨by rw [mapOffCentre_length, hq, hr, Nat.min_self], ?_, fun l hl hne => ?_⟩
  · rw [hcell _ hn, if_pos (Nat.zero_add _), getElem?_eq_getD d (by omega)]
  · rw [hcell l hl, if_neg (by omega)]

/-! `EQNOUPD` and `EQPROC` (R151 to R153). -/

/-- Settles O43: `EQNOUPD` is the insert that `EQPROC` shares. -/
theorem eqnoupdInserts : Obligations.EqnoupdInserts := fun _ d ph hs =>
  exec_eqnoupd_of_ok (hs.eqInsertOp_ok d ph)

/-- What `EQPROC` answers in a state of the right shape: the residuals are read after the insert and the taps are those
before it. -/
theorem Shape.eqProcOp_ok {c : Cfg} {s : State} (hs : Shape c s) (d : Dibit) (ph : F32) :
    ∃ u rs zc ac p, eqProcOp c d ph s = .ok p ∧ eqInsertOp c d ph s = .ok u ∧ Shape c u ∧ eqResiduals c u = .ok rs ∧
      u.eqA[u.eqP + c.n]? = some ac ∧ p.2 = orZero c (dot c (eqTerms c rs zc) s.eqQ) ∧
      p.1 = { u with
        eqQ := mapOffCentre c.n (eqTapUpdate c (c.num.fmul (c.num.fmul twoF c.step) (c.num.fsub ac p.2))) 0 s.eqQ rs } := by
  obtain ⟨p, hp⟩ := eqProcOp_of_shape hs d ph
  obtain ⟨u, rs, qs, zc, ac, hins, hrs, hqs, _, hac, hy, hstate⟩ := eqProcOp_eq_ok.mp hp
  have hu := eqInsertOp_shape hins hs
  have htaps : u.eqQ = s.eqQ := by obtain ⟨_, _, rfl⟩ := eqInsertOp_eq_ok.mp hins; rfl
  rw [hu.eqTaps_ok, htaps] at hqs
  cases hqs
  exact ⟨u, rs, zc, ac, p, hp, hins, hu, hrs, hac, hy, hstate⟩

/-- Settles O44: the residuals and the taps (`Shape.eqProcOp_ok`) give the sum by `dot_eq_foldl` and the new taps by
`mapOffCentre_spec`. -/
theorem eqprocFiltersAndAdapts : Obligations.EqprocFiltersAndAdapts := by
  intro s d ph hs
  obtain ⟨u, rs, zc, ac, p, hp, hins, hu, hrs, hac, hy, hstate⟩ := hs.eqProcOp_ok d ph
  obtain ⟨hlen, hcell⟩ := hu.eqResiduals_spec hrs zeroF
  obtain ⟨hnum, hcentre, hother⟩ := mapOffCentre_spec
    (eqTapUpdate hw (f32Mul (f32Mul twoF stepF) (f32Sub ac p.2))) zeroF hs.eqQ hlen
  refine ⟨{ u with ret := .none }, _, p.2, dot hw rs s.eqQ, f32Sub ac p.2, fun l => rs.getD l zeroF,
    fun l => s.eqQ.getD l zeroF, exec_eqnoupd_of_ok hins, fun l hl => ?_, dot_eq_foldl zeroF hlen hs.eqQ, hy,
    by rw [exec_eqproc_of_ok hp, hstate]; rfl, hnum, hcentre, fun l hl hne => ⟨_, rfl, hother l hl hne⟩⟩
  obtain ⟨z, a, hz, ha, hr⟩ := hcell l hl
  refine ⟨z, a, hz, ha, hr, getElem?_eq_getD zeroF (hs.eqQ.symm ▸ hl), ?_⟩
  rintro rfl
  rw [Option.some.inj (hac.symm.trans ha)]

/-! `EQSYNC` (R154). -/

/-- The 24 newest window positions of `EQ_A` are every ring position but the oldest, `EQ_P` itself. -/
theorem eqOverwrite_oldest {p : Nat} {a b : List F32} {ds : List Dibit} (h : eqOverwrite hw p 0 a ds = .ok b)
    (hl : ds.length = 24) : b[p]? = a[p]? ∧ b[p + 25]? = a[p + 25]? := by
  constructor
  · exact eqOverwrite_other h fun j hj => by rw [hw_len]; omega
  · exact eqOverwrite_other h fun j hj => by rw [hw_len]; omega

/-- Settles O45: the 24 ideal phases are written (`eqOverwrite_at`, `eqOverwrite_oldest`), then the residuals are read and
give the new taps by `mapOffCentre_spec`. -/
theorem eqsyncRetunes : Obligations.EqsyncRetunes := by
  intro s T hs hT
  obtain ⟨t, ht⟩ := eqSyncOp_of_shape hs hT
  obtain ⟨_, A, rs, qs, main, hA, hrs, hqs, hmain, rfl⟩ := eqSyncOp_eq_ok.mp ht
  have hAl : A.length = 50 := (eqOverwrite_length hA).trans hs.eqA
  have hsA : Shape hw { s with eqA := A } := { hs with eqA := hAl }
  obtain ⟨hlen, hcell⟩ := hsA.eqResiduals_spec hrs zeroF
  rw [hs.eqTaps_ok] at hqs
  cases hqs
  obtain rfl : main = rs.getD 12 zeroF :=
    Option.some.inj (hmain.symm.trans (getElem?_eq_getD zeroF (by rw [hlen]; decide)))
  obtain ⟨hnum, hcentre, hother⟩ := mapOffCentre_spec
    (fun _ r => eqTapRetune hw (rs.getD 12 zeroF) r) zeroF hs.eqQ hlen
  obtain ⟨hlow, hhigh⟩ := eqOverwrite_oldest hA hT
  refine ⟨A, _, fun l => rs.getD l zeroF, exec_eqsync_of_ok ht, hAl, hnum, hcentre, fun k d hk => ?_, hlow, hhigh, hcell,
    fun l hl hne => ⟨_, rfl, hother l hl hne⟩⟩
  have hwritten := eqOverwrite_at hA hs.eqA (by rw [hT]; decide) hk
  rwa [Nat.zero_add] at hwritten

end Sys2Proof.Machine
end

section
/-! PROOFS. The timing loop reads nothing of the equalizer (43_equalizer.md rule R157; 42_symbol_processor.md rules R131,
R134, R136).

Two runs are followed side by side: `TimingAgrees` relates two states that hold the same in every register the timing loop
reads or writes, and each part of `SPSAMPLE` keeps it, whatever the other registers hold. -/

namespace Sys2Proof.Machine

/-- Two states hold the same in the registers that the timing loop reads or writes (R131, R134, R136). -/
structure TimingAgrees (s s' : State) : Prop where
  nominalSps : s'.nominalSps = s.nominalSps
  observedSps : s'.observedSps = s.observedSps
  samplePoint : s'.samplePoint = s.samplePoint
  previousPhase : s'.previousPhase = s.previousPhase
  noisy : s'.noisy = s.noisy
  dly : s'.dly = s.dly
  dlyPtr : s'.dlyPtr = s.dlyPtr

section
variable {c : Cfg} {s s' t t' : State}

/-! What the loop computes from these registers. -/

theorem TimingAgrees.noiseGate_eq (h : TimingAgrees s s') (cur : F32) : noiseGate c s' cur = noiseGate c s cur := by
  rw [noiseGate, noiseGate, noiseThr, noiseThr, h.previousPhase, h.nominalSps]

theorem TimingAgrees.loopObserved_eq (h : TimingAgrees s s') (eps : F32) : loopObserved c eps s' = loopObserved c eps s := by
  rw [loopObserved, loopObserved, obsHi, obsHi, obsLo, obsLo, h.observedSps, h.nominalSps]

/-- `INTERP` on the delay line reads nothing else of the state (R110). -/
theorem interpOp_dly_congr (h : s'.dly = s.dly) (off : Nat) (mu : F32) :
    interpOp c s' .dly off mu = interpOp c s .dly off mu := by
  have hread : spaceRead s' .dly = spaceRead s .dly := by
    funext i
    rw [spaceRead, spaceRead, h]
  rw [interpOp, interpOp, hread]

/-- The phase, the interim decision and the timing error of `SYMBOL` come from these registers alone (R134). -/
theorem TimingAgrees.symbolDecide_eq (h : TimingAgrees s s') : symbolDecide c s' = symbolDecide c s := by
  rw [symbolDecide, symbolDecide, interpOp_dly_congr h.dly, h.dly, h.dlyPtr, h.samplePoint, h.noisy]

/-! What the parts of `SPSAMPLE` leave. -/

theorem TimingAgrees.after_spInsertOp {phi : F32} (h : TimingAgrees s s') (ht : spInsertOp c phi s = .ok t)
    (ht' : spInsertOp c phi s' = .ok t') : TimingAgrees t t' := by
  obtain ⟨_, rfl⟩ := spInsertOp_eq_ok.mp ht
  obtain ⟨_, rfl⟩ := spInsertOp_eq_ok.mp ht'
  constructor <;> simp only [h.nominalSps, h.observedSps, h.samplePoint, h.previousPhase, h.noisy, h.dly, h.dlyPtr,
    h.noiseGate_eq]

/-- `SYMBOL`: the loop filter's timing error comes from `symbolDecide`, and nothing after the filter writes these registers
but the clearing of `NOISY` (R134). -/
theorem TimingAgrees.after_symbolOp (h : TimingAgrees s s') (ht : symbolOp c s = .ok t) (ht' : symbolOp c s' = .ok t') :
    TimingAgrees t t' := by
  obtain ⟨⟨p, hp, hobs, hpoint⟩, _, hnoisy, _, hframe⟩ := symbolOp_frame ht
  obtain ⟨⟨p', hp', hobs', hpoint'⟩, _, hnoisy', _, hframe'⟩ := symbolOp_frame ht'
  have hdecide : TimingAgrees (setSeq .decide s) (setSeq .decide s') := { h with }
  obtain rfl : p = p' := by rw [hdecide.symbolDecide_eq, hp] at hp'; exact Except.ok.inj hp'
  constructor
  case nominalSps => rw [hframe, hframe']; exact h.nominalSps
  case observedSps => rw [hobs, hobs', h.loopObserved_eq]
  case samplePoint =>
    rw [hpoint, hpoint', loopUpdOp_samplePoint, loopUpdOp_samplePoint, h.loopObserved_eq, h.samplePoint]
  case previousPhase => rw [hframe, hframe']; exact h.previousPhase
  case noisy => rw [hnoisy, hnoisy']
  case dly => rw [hframe, hframe']; exact h.dly
  case dlyPtr => rw [hframe, hframe']; exact h.dlyPtr

/-- `SPSAMPLE`: the two runs agree on whether the countdown has fallen below 1, so both end after the insert or both run
`SYMBOL` (R131). -/
theorem TimingAgrees.after_spSampleOp {phi : F32} (h : TimingAgrees s s') (ht : spSampleOp c phi s = .ok t)
    (ht' : spSampleOp c phi s' = .ok t') : TimingAgrees t t' := by
  obtain ⟨a, ha, ht⟩ := bind_eq_ok.mp ht
  obtain ⟨a', ha', ht'⟩ := bind_eq_ok.mp ht'
  have hins := h.after_spInsertOp ha ha'
  rw [hins.samplePoint] at ht'
  split_ifs at ht ht'
  · exact hins.after_symbolOp ht ht'
  · cases ht
    cases ht'
    exact hins

end

/-- Where `SPSAMPLE` run on its own completes, it is the operation and an empty latch. -/
theorem exec_spsample_eq_next {phi : F32} {s t : State} (h : exec (.spsample phi) s = .next t) :
    ∃ a, spSampleOp hw phi s = .ok a ∧ t = { a with ret := .none } := by
  rw [exec_spsample, outcome_eq_next, bind_eq_ok] at h
  obtain ⟨a, ha, ht⟩ := h
  exact ⟨a, ha, (Except.ok.inj ht).symm⟩

/-- Settles O42: two states that differ in the equalizer only agree in the timing loop's registers, and `SPSAMPLE` keeps
that. -/
theorem timingLoopIgnoresEqualizer : Obligations.TimingLoopIgnoresEqualizer := by
  intro s t s' t' phi hdiffer ht ht'
  have hs : TimingAgrees s s' := by rw [hdiffer]; exact ⟨rfl, rfl, rfl, rfl, rfl, rfl, rfl⟩
  obtain ⟨a, ha, rfl⟩ := exec_spsample_eq_next ht
  obtain ⟨a', ha', rfl⟩ := exec_spsample_eq_next ht'
  have h := hs.after_spSampleOp ha ha'
  exact ⟨h.observedSps, h.samplePoint, h.dly, h.dlyPtr, h.previousPhase, h.noisy⟩

end Sys2Proof.Machine
end

section
/-! PROOFS. `UPDOBS` run on its own (44_facade_commands.md rule R166; 10_state.md rules R23 to R25). -/

namespace Sys2Proof.Machine

theorem exec_updobs_of_ok {sps : F32} {s t : State} (h : updObsOp hw sps s = .ok t) :
    exec (.updobs sps) s = .next { t with ret := .none } :=
  outcome_bind_of_ok h

/-- A comparison with the pattern of an integer is one with the integer part (R7). -/
theorem le_intPart_of_f32Le {y x : F32} {i : Int} (hy : f32Val y = i * unitsPerOne) (h : f32Le y x = true) :
    i ≤ intPart x := by
  obtain ⟨_, _, hkey⟩ := f32Le_true h
  rw [le_intPart, ← hy, f32Val_le_iff]
  exact hkey

theorem f32Val_neg_fourF : f32Val 0xC0800000#32 = -4 * unitsPerOne := by
  have h : f32Neg fourF = 0xC0800000#32 := by decide +kernel
  rw [← h, f32Val_neg, f32Val_fourF, neg_mul]

/-- Settles O46: from 4 on the difference of a value and its floor is exact (`fraction_val`), and it is what the division
by one unit leaves. -/
theorem updobsSplitsExactly : Obligations.UpdobsSplitsExactly := by
  intro s x hfin hle
  have hfour : 4 ≤ intPart x := le_intPart_of_f32Le f32Val_fourF hle
  have hnonneg : 0 ≤ f32Val x := by
    have := le_intPart.mp hfour
    have := unitsPerOne_pos_int
    omega
  obtain ⟨hmfin, hmval⟩ := fraction_val hfin hnonneg
  have hlow := intPart_le x
  have hhigh := lt_intPart x
  exact ⟨f32Sub x (f32Floor x), intPart x, by rw [hmval]; ring, by rw [hmval]; linarith, by rw [hmval]; linarith, hmfin,
    hfour, exec_updobs_of_ok (updObsOp_of_four hfin hfour s)⟩

/-- Settles O60: the integer part is the floor of every finite value, and at -4 or more the sum with 4 is a natural. -/
theorem updobsRunsOnEveryFiniteValue : Obligations.UpdobsRunsOnEveryFiniteValue := by
  intro s x hfin
  refine ⟨intPart x, overlapOf x (intPart x), intPart_le x, lt_intPart x, (f32Floor_intPart hfin).2, fun hle => ?_,
    exec_updobs_of_ok (updObsOp_of_finite hfin s)⟩
  have hlow : -4 ≤ intPart x := le_intPart_of_f32Le f32Val_neg_fourF hle
  rw [overlapOf_of_nonneg (by omega), Int.toNat_of_nonneg (by omega)]

end Sys2Proof.Machine
end

section
/-! PROOFS. The three commands that configure and reset (44_facade_commands.md rules R171, R173, R174;
70_reset_and_hazards.md rules R230, R233; 10_state.md rule R48). -/

namespace Sys2Proof.Machine

/-! `RESET` with accepted rates. -/

/-- The floor of an accepted `NOMINAL_SPS` gives an `OVERLAP` that `BUF_CAP` holds (R172). -/
theorem RateBounds.overlapOf_nominal {nom : F32} (h : RateBounds nom) :
    (overlapOf nom (intPart nom) : Int) = intPart nom + 4 ∧ overlapOf nom (intPart nom) ≤ hw.bufCap := by
  obtain ⟨hfour, _, hhigh⟩ := h.intPart_mem h.lo_le h.le_hi
  have hroom := h.room
  rw [overlapOf_of_nonneg (by omega)]
  omega

/-- `RESET` answers where the rates are accepted. -/
theorem resetOp_of_rateBounds {s : State} (h : RateBounds s.nominalSps) :
    resetOp hw s = .ok (resetState hw (intPart s.nominalSps) s) :=
  resetOp_eq_ok.mpr ⟨_, f32ToInt_floor h.nomFinite, h.overlapOf_nominal.2, rfl⟩

/-- A tap of `EQ_Q` at reset that is not the centre tap (R37). -/
theorem resetTaps_other {c : Cfg} {l : Nat} (hl : l < c.len) (hne : l ≠ c.n) : (resetTaps c)[l]? = some zeroF := by
  unfold Cfg.len at hl
  unfold resetTaps
  rcases Nat.lt_or_gt_of_ne hne with hlow | hhigh
  · rw [List.getElem?_append_left (by simpa using hlow), List.getElem?_replicate_of_lt hlow]
  · obtain ⟨k, rfl⟩ := Nat.exists_eq_add_of_lt hhigh
    rw [List.getElem?_append_right (by simp; omega), List.length_replicate, show c.n + k + 1 - c.n = k + 1 by omega,
      List.getElem?_cons_succ, List.getElem?_replicate_of_lt (by omega)]

/-- What `RESET` and the answer leave with accepted rates is the table of R48. -/
theorem afterReset_of_rateBounds {s : State} (h : RateBounds s.nominalSps) :
    AfterReset hw (respondOk [] (resetState hw (intPart s.nominalSps) s)) := by
  have hoverlap : (overlapOf s.nominalSps (intPart s.nominalSps) : Int) = intPart s.nominalSps - 4 + 8 := by
    rw [h.overlapOf_nominal.1]
    ring
  have hioff : f32ToInt (f32Floor s.nominalSps) = some (intPart s.nominalSps - 4 + 4) := by
    rw [f32ToInt_floor h.nomFinite, sub_add_cancel]
    rfl
  exact
    { observedSps := rfl, samplePoint := rfl, mu := rfl, ioff := hioff, overlap := hoverlap, bufLen := rfl
      ibuf := fun _ _ => rfl, qbuf := fun _ _ => rfl, previousPhase := rfl, ssr := rfl, noisy := rfl, seq := rfl
      dly := rfl, dlyPtr := rfl, eqZ := rfl, eqA := rfl, eqP := rfl, eqQlen := resetTaps_length hw
      eqQcentre := resetTaps_centre hw, eqQother := fun _ hl hne => resetTaps_other hl hne
      sdS := rfl, sdI := rfl, ddl := rfl, ddlPtr := rfl, outq := rfl }

/-! `CFG` and `SETFS`. -/

theorem exec_cfg (retune : Bool) (sr : Word) (fs : F32) (s : State) :
    exec (.cfg retune sr fs) s = outcome (configureOp hw sr fs retune s) := rfl

theorem exec_setfs (fs : F32) (s : State) :
    exec (.setfs fs) s = outcome (configureOp hw s.symbolRate fs s.retuneEn s) := rfl

/-- A configuration with accepted rates (R171). -/
theorem configureOp_of_accepted {sr : Word} {fs : F32} (h : check hw sr fs = 0) (retune : Bool) (s : State) :
    configureOp hw sr fs retune s =
      .ok (respondOk [] (resetState hw (intPart (nominalOf hw sr fs)) (setRates hw sr fs retune s))) := by
  have hreset := resetOp_of_rateBounds (s := setRates hw sr fs retune s) (rateBounds_of_check h)
  simp only [configureOp, if_pos h, hreset, ok_bind, setRates_nominalSps]

/-- A configuration with rates that `CHECK` refuses (R171, R207). -/
theorem configureOp_of_refused {sr : Word} {fs : F32} (h : check hw sr fs ≠ 0) (retune : Bool) (s : State) :
    configureOp hw sr fs retune s = .ok (raise .configError (natWord (check hw sr fs)) s) := by
  simp only [configureOp, if_neg h]

/-- Settles O11: `RESET` runs on the written rates. -/
theorem cfgAccepted : Obligations.CfgAccepted := by
  intro s retune sr fs h
  refine ⟨_, by rw [exec_cfg, configureOp_of_accepted h]; rfl,
    afterReset_of_rateBounds (s := setRates hw sr fs retune s) (rateBounds_of_check h), ?_⟩
  exact ⟨rfl, rfl, rfl, rfl, rfl, rfl, rfl, rfl⟩

/-- Settles O12: `SETFS` is the configuration with the state's own symbol rate and control bit. -/
theorem setfsAccepted : Obligations.SetfsAccepted := by
  intro s fs h
  exact cfgAccepted s s.retuneEn s.symbolRate fs h

/-- Settles O13: the refused configuration raises the fault with the code of `CHECK`. -/
theorem badRatesTakeConfigError : Obligations.BadRatesTakeConfigError := by
  intro s retune sr fs h
  refine ⟨by rw [exec_cfg, configureOp_of_refused h]; rfl, ?_⟩
  rintro rfl
  rw [exec_setfs, configureOp_of_refused h]
  rfl

/-! `RST`. -/

theorem exec_rst_of_ok {s t : State} (h : resetOp hw s = .ok t) : exec .rst s = .next (respondOk [] t) :=
  outcome_bind_of_ok (f := respondOk []) h

/-- `RESET` writes every row from `NOMINAL_SPS` alone, so after an answered `RESET` a second one writes the same. -/
theorem respondOk_resetState_twice (c : Cfg) (f : Int) (s : State) :
    respondOk [] (resetState c f (respondOk [] (resetState c f s))) = respondOk [] (resetState c f s) := rfl

/-- Settles O14: the second `RST` finds the same `NOMINAL_SPS`. -/
theorem rstResetsAndIsIdempotent : Obligations.RstResetsAndIsIdempotent := by
  intro s hs
  have hb := hs.rateBounds
  refine ⟨_, exec_rst_of_ok (resetOp_of_rateBounds hb), afterReset_of_rateBounds hb, rfl, rfl, rfl, rfl, rfl, rfl, rfl, rfl,
    ?_⟩
  rw [exec_rst_of_ok (resetOp_of_rateBounds (s := respondOk [] (resetState hw (intPart s.nominalSps) s)) hb)]
  exact congrArg _ (respondOk_resetState_twice hw (intPart s.nominalSps) s)

end Sys2Proof.Machine
end

section
/-! PROOFS. `RECV` from a sound state (44_facade_commands.md rules R167, R168, R170; 42_symbol_processor.md rule R133).

With `W = 1` step 2 of `RECV` is `sampleRun`, one sample after another. `RecvRun` says what stands before and after it, and
the statements about one batch are read off it. -/

namespace Sys2Proof.Machine

/-! One sample after another. -/

/-- `k` samples of a batch from the cursor `x` on, with `W = 1` (R167 step 2). -/
def sampleRun : Nat → Nat → State → Res State
  | 0, _, s => .ok s
  | k + 1, x, s => recvBlock hw x 1 s >>= sampleRun k (x + 1)

/-- Step 2 of `RECV` does not read the length of the batch while there are samples left. -/
theorem recvBlocks_eq_sampleRun {n k x : Nat} {s : State} (h : x + k ≤ n) :
    recvBlocks hw n k x s = sampleRun k x s := by
  induction k generalizing x s with
  | zero => rfl
  | succ k ih =>
    rw [recvBlocks_succ (by omega), sampleRun]
    exact congrArg (recvBlock hw x 1 s >>= ·) (funext fun _ => ih (by omega))

/-- A run of samples is the run of the first ones and then of the rest. -/
theorem sampleRun_add (k l x : Nat) (s : State) :
    sampleRun (k + l) x s = sampleRun k x s >>= sampleRun l (x + k) := by
  induction k generalizing x s with
  | zero => rw [Nat.zero_add]; rfl
  | succ k ih =>
    rw [Nat.succ_add, sampleRun, sampleRun, bind_assoc, show x + (k + 1) = x + 1 + k by omega]
    exact congrArg (recvBlock hw x 1 s >>= ·) (funext fun t => ih (x + 1) t)

theorem spSampleAll_singleton (c : Cfg) (ph : F32) (s : State) : spSampleAll c [ph] s = spSampleOp c ph s := by
  rw [spSampleAll]
  cases spSampleOp c ph s <;> rfl

/-- One sample: `DIFF`, `SPSAMPLE`, `UPDOBS` (R167, R168). -/
theorem recvBlock_one_eq_ok {x : Nat} {s u : State} :
    recvBlock hw x 1 s = .ok u ↔
      ∃ ph t, diffOp hw s x = .ok ph ∧ spSampleOp hw ph s = .ok t ∧ updObsOp hw t.observedSps t = .ok u := by
  simp only [recvBlock, readRun, bind_eq_ok, Except.ok.injEq]
  constructor
  · rintro ⟨_, ⟨ph, hdiff, _, rfl, rfl⟩, t, hsample, hu⟩
    exact ⟨ph, t, hdiff, (spSampleAll_singleton hw ph s).symm.trans hsample, hu⟩
  · rintro ⟨ph, t, hdiff, hsample, hu⟩
    exact ⟨[ph], ⟨ph, hdiff, [], rfl, rfl⟩, t, (spSampleAll_singleton hw ph s).trans hsample, hu⟩

theorem sampleRun_succ_eq_ok {k x : Nat} {s u : State} :
    sampleRun (k + 1) x s = .ok u ↔ ∃ t, recvBlock hw x 1 s = .ok t ∧ sampleRun k (x + 1) t = .ok u :=
  bind_eq_ok

/-! What a run of samples leaves. -/

theorem sampleRun_sameFacade {k x : Nat} {s u : State} (h : sampleRun k x s = .ok u) : SameFacade s u :=
  recvBlocks_sameFacade ((recvBlocks_eq_sampleRun (le_refl (x + k))).trans h)

theorem sampleRun_seq {k x : Nat} {s u : State} (h : sampleRun k x s = .ok u) (hs : s.seq = .await) : u.seq = .await :=
  recvBlocks_seq ((recvBlocks_eq_sampleRun (le_refl (x + k))).trans h) hs

/-- The latch is the slot's, so no sample of a batch writes it. -/
theorem sampleRun_ret {k x : Nat} {s u : State} (h : sampleRun k x s = .ok u) : u.ret = s.ret := by
  refine recvBlocks_keeps (P := fun v => v.ret = s.ret) (fun _ a b hb ha => ?_) (fun _ a b hb ha => ?_)
    ((recvBlocks_eq_sampleRun (le_refl (x + k))).trans h) rfl
  · obtain ⟨_, _, hframe⟩ := spSampleOp_frame hb
    rw [hframe]
    exact ha
  · obtain ⟨_, _, rfl⟩ := updObsOp_eq_ok.mp hb
    exact ha

/-- A sample gives one dibit at most (R131, R134). -/
theorem recvBlock_outq_length {x : Nat} {s u : State} (h : recvBlock hw x 1 s = .ok u) :
    u.outq.length ≤ s.outq.length + 1 := by
  obtain ⟨ph, t, _, hsample, hupd⟩ := recvBlock_one_eq_ok.mp h
  obtain ⟨_, _, rfl⟩ := updObsOp_eq_ok.mp hupd
  obtain ⟨hsame | ⟨out, hone⟩, _⟩ := spSampleOp_frame hsample
  · exact (congrArg List.length hsame).le.trans (Nat.le_succ _)
  · exact (congrArg List.length hone).le.trans List.length_append.le

theorem sampleRun_outq_length {k x : Nat} {s u : State} (h : sampleRun k x s = .ok u) :
    u.outq.length ≤ s.outq.length + k := by
  induction k generalizing x s with
  | zero => cases h; exact le_refl _
  | succ k ih =>
    obtain ⟨t, hblock, hrest⟩ := sampleRun_succ_eq_ok.mp h
    have hone := recvBlock_outq_length hblock
    have hmore := ih hrest
    omega

/-! `RECV` in a sound state. -/

/-- A batch placed in the memories of `s`, and the run of its samples to `u`. -/
structure RecvRun (batch : List (F32 × F32)) (s p u : State) : Prop where
  stored : BatchStored batch s p
  canonical : MemCanonical p
  before : BatchReady batch.length p
  run : sampleRun batch.length 0 p = .ok u
  after : BatchReady batch.length u

/-- A batch that fits runs, and the handing over ends it (R167). -/
theorem Inv.recvRun {s : State} {batch : List (F32 × F32)} (hi : Inv hw s)
    (hfit : s.overlap + batch.length ≤ hw.bufCap) (ts : BitVec 64) :
    ∃ p u, RecvRun batch s p u ∧ exec (.recv ts batch) s = .next (recvHandOver u) := by
  obtain ⟨p, hplace, hstored, hcanon⟩ := recvPlace_ok hi.buffered.tail hfit hi.memory
  have hready := hi.batchReady hstored
  obtain ⟨u, hblocks, hu, _⟩ := recvBlocks_batchReady hready batch.length 0
  refine ⟨p, u, ⟨hstored, hcanon, hready, ?_, hu⟩, exec_recv_of_ok ts ?_⟩
  · rw [← recvBlocks_eq_sampleRun (n := batch.length) (by omega)]
    exact hblocks
  · rw [recvOp, if_neg (by omega), hplace, ok_bind, hblocks, ok_bind]

section
variable {batch : List (F32 × F32)} {s p u : State}

/-- What stands before step 2 has the session, `OUTQ` and the slot of the state the command found. -/
theorem RecvRun.eq_withMemories (h : RecvRun batch s p u) :
    p = { s with ibuf := p.ibuf, qbuf := p.qbuf, bufLen := p.bufLen } :=
  h.stored.frame

theorem RecvRun.sameSession (h : RecvRun batch s p u) : SameSession s u := by
  have hk := (sampleRun_sameFacade h.run).sameSession
  rw [h.eq_withMemories] at hk
  exact ⟨hk.symbolRate, hk.sampleRate, hk.retuneEn, hk.nominalSps⟩

theorem RecvRun.host (h : RecvRun batch s p u) : u.port = s.port ∧ u.micro = s.micro ∧ u.ret = s.ret := by
  have hk := sampleRun_sameFacade h.run
  have hret := sampleRun_ret h.run
  rw [h.eq_withMemories] at hk hret
  exact ⟨hk.port, hk.micro, hret⟩

theorem RecvRun.outq_length (h : RecvRun batch s p u) (hs : s.outq = []) : u.outq.length ≤ batch.length := by
  have hlen := sampleRun_outq_length h.run
  have hp : p.outq = [] := by rw [h.eq_withMemories]; exact hs
  rw [hp] at hlen
  simpa using hlen

/-- `BUF_LEN` after a batch (R167, R170). -/
theorem BatchStored.bufLen_le (h : BatchStored batch s p) (hs : s.bufLen ≤ hw.bufCap)
    (hfit : s.overlap + batch.length ≤ hw.bufCap) : p.bufLen ≤ hw.bufCap := by
  rcases h with h | ⟨_, rfl⟩
  · rw [h.frame]; exact hfit
  · exact hs

/-- The next `OVERLAP` samples stand in the memories: `OVERLAP` moves by one sample at most, and only a batch of one sample
or more moves it (R170, R172). -/
theorem RecvRun.overlap_le_bufLen (h : RecvRun batch s p u) (hs : s.overlap ≤ s.bufLen) : u.overlap ≤ u.bufLen := by
  cases hn : batch with
  | nil =>
    have hroom := h.stored.room hs
    have hrun := h.run
    have hover : p.overlap = s.overlap := by rw [h.eq_withMemories]
    rw [hn] at hrun
    cases hrun
    omega
  | cons v vs =>
    have hroom := h.after.room
    have hadj : intPart (obsHi hw u) ≤ intPart (obsLo hw u) + 1 := h.after.running.rates.adjacent
    obtain ⟨_, _, hhigh⟩ := h.after.running.intPart_mem
    obtain ⟨_, hover⟩ := h.after.placed.intPart_eq h.after.running
    rw [hn, List.length_cons] at hroom
    omega

/-- `RECV` leaves a sound state (R133, R170, R172). -/
theorem RecvRun.inv (h : RecvRun batch s p u) (hi : Inv hw s) (hfit : s.overlap + batch.length ≤ hw.bufCap) :
    Inv hw (recvHandOver u) := by
  obtain ⟨hfiles, hrates, hfinite, hlow, hhigh⟩ := h.after.running
  obtain ⟨hmu, hioff, hnonneg, hoverlap⟩ := h.after.placed
  have hfacade := sampleRun_sameFacade h.run
  have hsession := h.sameSession
  have hbuf : u.bufLen = p.bufLen := hfacade.bufLen
  obtain ⟨_, hmicro, _⟩ := h.host
  have hfiles' : Files hw (recvHandOver u) := hfiles.congr rfl rfl rfl rfl rfl rfl rfl rfl rfl rfl
  have hseq : p.seq = .await := by rw [h.eq_withMemories]; exact hi.boundary.seq
  have hcap : u.overlap + 1 ≤ hw.bufCap := by
    have hroom := hrates.room
    obtain ⟨_, _, hle⟩ := h.after.running.intPart_mem
    obtain ⟨_, hover⟩ := h.after.placed.intPart_eq h.after.running
    unfold obsHi at hle
    omega
  refine ⟨hfiles'.shape, hfiles'.rings, hfiles'.centre, ⟨?_, ?_⟩, ⟨hfinite, hlow, hhigh⟩, h.after.armed,
    ⟨hmu, hioff, hnonneg, hoverlap⟩, ⟨h.overlap_le_bufLen hi.buffered.tail, ?_, hcap⟩, ?_, ?_⟩
  · show check hw u.symbolRate u.sampleRate = 0
    rw [hsession.symbolRate, hsession.sampleRate]
    exact hi.session.checked
  · show u.nominalSps = nominalOf hw u.symbolRate u.sampleRate
    rw [hsession.symbolRate, hsession.sampleRate, hsession.nominalSps]
    exact hi.session.nominal
  · show u.bufLen ≤ hw.bufCap
    rw [hbuf]
    exact h.stored.bufLen_le hi.buffered.fits hfit
  · obtain ⟨hibuf, hqbuf⟩ := hfacade.memCanonical h.canonical
    exact ⟨hibuf, hqbuf⟩
  · have hawait : u.seq = .await := sampleRun_seq h.run hseq
    exact ⟨rfl, hawait, hmicro.trans hi.boundary.micro⟩

end

/-- The response of a batch (R90). -/
theorem recvHandOver_resp_eq (u : State) :
    (recvHandOver u).resp = BitVec.ofNat 32 (u.outq.length * 256) :: u.outq.map Dibit.toWord := by
  rw [recvHandOver_resp, List.length_map, respHeader, Nat.add_zero]

/-- Settles O23: the run of `Inv.recvRun` keeps what `RecvRun.inv` needs, and a sample gives one dibit at most. -/
theorem recvCompletes : Obligations.RecvCompletes := by
  intro s ts batch hi hfit
  obtain ⟨p, u, hrun, hexec⟩ := hi.recvRun hfit ts
  have hfacade := sampleRun_sameFacade hrun.run
  obtain ⟨hsr, hfs, hre, hnom⟩ := hrun.sameSession
  obtain ⟨hport, hmicro, hret⟩ := hrun.host
  refine ⟨_, u.outq, hexec, hrun.inv hi hfit, hrun.outq_length hi.boundary.outq, recvHandOver_resp_eq u, ?_, hsr, hfs, hre,
    hnom, hport, hmicro, hret⟩
  simp only [recvHandOver_ibuf, recvHandOver_qbuf, recvHandOver_bufLen, hfacade.ibuf, hfacade.qbuf, hfacade.bufLen]
  rw [← hrun.eq_withMemories]
  exact hrun.stored

/-- Settles O25: the test of the capacity comes first. -/
theorem recvTooLargeTakesFault : Obligations.RecvTooLargeTakesFault := by
  intro s ts batch h
  exact exec_recv_of_ok ts (if_pos h)
/-! An empty batch. -/

/-- What the memories hold for both rails at one index. -/
def State.sampleAt (s : State) (i : Nat) : F32 × F32 := (s.ibuf.get i, s.qbuf.get i)

theorem PlacedBatch.sampleAt_tail {batch : List (F32 × F32)} {s p : State} (h : PlacedBatch batch s p) {j : Nat}
    (hj : j < s.overlap) : p.sampleAt j = s.sampleAt (s.bufLen - s.overlap + j) :=
  Prod.ext (h.tailI j hj) (h.tailQ j hj)

theorem PlacedBatch.sampleAt_new {batch : List (F32 × F32)} {s p : State} (h : PlacedBatch batch s p) {k : Nat}
    {v : F32 × F32} (hk : batch[k]? = some v) : p.sampleAt (s.overlap + k) = v :=
  Prod.ext (h.newI k v hk) (h.newQ k v hk)

theorem PlacedBatch.bufLen {batch : List (F32 × F32)} {s p : State} (h : PlacedBatch batch s p) :
    p.bufLen = s.overlap + batch.length := by
  rw [h.frame]

theorem recvHandOver_of_empty {u : State} (h : u.outq = []) : recvHandOver u = { u with resp := [0x00000000#32] } := by
  rw [recvHandOver, h]
  cases u
  cases h
  rfl

/-- Settles O26: no sample runs, so what an empty batch leaves is what stands after the placing, whichever of the two it
is. -/
theorem emptyRecvKeepsState : Obligations.EmptyRecvKeepsState := by
  intro s ts hi
  have hfit : s.overlap + ([] : List (F32 × F32)).length ≤ hw.bufCap := hi.buffered.tail.trans hi.buffered.fits
  obtain ⟨p, u, hrun, hexec⟩ := hi.recvRun hfit ts
  obtain rfl : p = u := Except.ok.inj hrun.run
  have hempty : p.outq = [] := by rw [hrun.eq_withMemories]; exact hi.boundary.outq
  refine ⟨_, hexec, ?_⟩
  rw [recvHandOver_of_empty hempty]
  rcases hrun.stored with h | ⟨_, rfl⟩
  · have htail : ∀ j, j < s.overlap →
        p.sampleAt (p.bufLen - s.overlap + j) = s.sampleAt (s.bufLen - s.overlap + j) := fun j hj => by
      rw [h.bufLen, List.length_nil, Nat.add_zero, Nat.sub_self, Nat.zero_add, h.sampleAt_tail hj]
    refine ⟨.inr ?_, fun j hj => congrArg Prod.fst (htail j hj), fun j hj => congrArg Prod.snd (htail j hj)⟩
    rw [h.frame]
    rfl
  · exact ⟨.inl rfl, fun _ _ => rfl, fun _ _ => rfl⟩

end Sys2Proof.Machine
end

section
/-! PROOFS. `RECV` as a run of unit operations (44_facade_commands.md rules R167, R168), and batches joined (R176).

`SPSAMPLE` and `UPDOBS` read nothing of the sample memories, of the response, of the latch and of what stands in `OUTQ`:
`State.withHost` puts values there, and what an operation answers in a state it answers in that state with the host's side
replaced. `DIFF` reads the sample memories too, so it answers the same where they read alike. -/

namespace Sys2Proof.Machine

/-! The host's side of the state. -/

/-- The fields through which the host's data reaches the block and leaves it, which no sample's operation reads but `DIFF`:
the sample memories, the dibits already in `OUTQ`, the response, and the latch. -/
structure HostSide where
  ibuf : SampleMem
  qbuf : SampleMem
  bufLen : Nat
  outq : List Dibit
  resp : List Word
  ret : Ret

/-- A state with this host's side; the dibits it has emitted stand behind the host's. -/
def State.withHost (h : HostSide) (s : State) : State :=
  { s with ibuf := h.ibuf, qbuf := h.qbuf, bufLen := h.bufLen, outq := h.outq ++ s.outq, resp := h.resp, ret := h.ret }

section
variable {c : Cfg} {s : State} (h : HostSide)

theorem timingAgrees_withHost (s : State) : TimingAgrees s (s.withHost h) := ⟨rfl, rfl, rfl, rfl, rfl, rfl, rfl⟩

theorem emit_withHost (d : Dibit) (s : State) : emit d (s.withHost h) = (emit d s).withHost h := by
  simp only [emit, State.withHost, List.append_assoc]

theorem eqInsertOp_withHost {d : Dibit} {ph : F32} {t : State} (ht : eqInsertOp c d ph s = .ok t) :
    eqInsertOp c d ph (s.withHost h) = .ok (t.withHost h) := by
  obtain ⟨hz, ha, rfl⟩ := eqInsertOp_eq_ok.mp ht
  exact eqInsertOp_eq_ok.mpr ⟨hz, ha, rfl⟩

theorem eqProcOp_withHost {d : Dibit} {ph : F32} {p : State × F32} (ht : eqProcOp c d ph s = .ok p) :
    eqProcOp c d ph (s.withHost h) = .ok (p.1.withHost h, p.2) := by
  obtain ⟨s1, rs, qs, zc, ac, hins, hrs, hqs, hzc, hac, hy, hp⟩ := eqProcOp_eq_ok.mp ht
  exact eqProcOp_eq_ok.mpr
    ⟨s1.withHost h, rs, qs, zc, ac, eqInsertOp_withHost h hins, hrs, hqs, hzc, hac, hy, by rw [hp]; rfl⟩

theorem symbolEqualize_withHost {phi : F32} {d0 : Dibit} {p : State × Dibit × F32}
    (ht : symbolEqualize c phi d0 s = .ok p) :
    symbolEqualize c phi d0 (s.withHost h) = .ok (p.1.withHost h, p.2) := by
  by_cases hn : s.noisy = true
  · rw [symbolEqualize, if_pos hn] at ht
    obtain ⟨t, hins, hp⟩ := bind_eq_ok.mp ht
    cases hp
    exact symbolEqualize_of_noisy (s := s.withHost h) hn (eqInsertOp_withHost h hins)
  · rw [symbolEqualize, if_neg hn] at ht
    obtain ⟨r, hproc, hp⟩ := bind_eq_ok.mp ht
    cases hp
    exact symbolEqualize_of_clean (s := s.withHost h) hn (eqProcOp_withHost h hproc)

theorem symbolCorrelate_withHost {d1 : Dibit} {pc : F32} {p : State × F32} (ht : symbolCorrelate c d1 pc s = .ok p) :
    symbolCorrelate c d1 pc (s.withHost h) = .ok (p.1.withHost h, p.2) := by
  obtain ⟨r, hcorr, hp⟩ := bind_eq_ok.mp ht
  cases hp
  obtain ⟨hins, hread, hr, hscore⟩ := syncCorrOp_eq_ok.mp hcorr
  have hcorr' : syncCorrOp c pc (s.withHost h) = .ok (r.1.withHost h, r.2) :=
    syncCorrOp_eq_ok.mpr ⟨hins, hread, by rw [hr]; rfl, hscore⟩
  rw [symbolCorrelate, hcorr']
  rfl

/-- The retuning that ends a sync event, made or left out as `b` says (R138). -/
theorem retune_withHost {b : Bool} {ds : List Dibit} {t : State} (ht : (if b then eqSyncOp c ds s else .ok s) = .ok t) :
    (if b then eqSyncOp c ds (s.withHost h) else .ok (s.withHost h)) = .ok (t.withHost h) := by
  cases b with
  | true =>
    obtain ⟨hlen, a, rs, qs, main, ha, hrs, hqs, hmain, rfl⟩ := eqSyncOp_eq_ok.mp ht
    exact eqSyncOp_eq_ok.mpr ⟨hlen, a, rs, qs, main, ha, hrs, hqs, hmain, rfl⟩
  | false => cases ht; rfl

theorem symbolEmit_withHost {score : F32} {d1 : Dibit} {t : State} (ht : symbolEmit c score d1 s = .ok t) :
    symbolEmit c score d1 (s.withHost h) = .ok (t.withHost h) := by
  rw [symbolEmit_eq_ok] at ht ⊢
  split_ifs at ht ⊢
  · obtain ⟨u, v, hsync, hretune, rfl⟩ := ht
    obtain ⟨ring, hring, rfl⟩ := ddlSyncOp_eq_ok.mp hsync
    exact ⟨_, v.withHost h, ddlSyncOp_eq_ok.mpr ⟨ring, hring, rfl⟩, retune_withHost h hretune, (emit_withHost h _ v).symm⟩
  · obtain ⟨p, hpush, rfl⟩ := ht
    obtain ⟨hout, hp⟩ := ddlPushOp_eq_ok.mp hpush
    exact ⟨(p.1.withHost h, p.2), ddlPushOp_eq_ok.mpr ⟨hout, by rw [hp]; rfl⟩, (emit_withHost h p.2 p.1).symm⟩

theorem symbolOp_withHost {t : State} (ht : symbolOp c s = .ok t) : symbolOp c (s.withHost h) = .ok (t.withHost h) := by
  obtain ⟨p, e, k, u, hdecide, hequalize, hcorrelate, hemit, rfl⟩ := symbolOp_eq_ok.mp ht
  have hdecide' : symbolDecide c (setSeq .decide (s.withHost h)) = .ok p :=
    (timingAgrees_withHost h (setSeq .decide s)).symbolDecide_eq.trans hdecide
  exact symbolOp_eq_ok.mpr ⟨p, (e.1.withHost h, e.2), (k.1.withHost h, k.2), u.withHost h, hdecide',
    symbolEqualize_withHost h hequalize, symbolCorrelate_withHost h hcorrelate, symbolEmit_withHost h hemit, rfl⟩

theorem spSampleOp_withHost {phi : F32} {t : State} (ht : spSampleOp c phi s = .ok t) :
    spSampleOp c phi (s.withHost h) = .ok (t.withHost h) := by
  obtain ⟨a, hins, hrest⟩ := bind_eq_ok.mp ht
  obtain ⟨hroom, ha⟩ := spInsertOp_eq_ok.mp hins
  have hins' : spInsertOp c phi (s.withHost h) = .ok (a.withHost h) :=
    spInsertOp_eq_ok.mpr ⟨hroom, by rw [ha]; rfl⟩
  rw [spSampleOp, hins', ok_bind]
  show (if c.num.flt a.samplePoint oneF = true then symbolOp c (a.withHost h) else .ok (a.withHost h)) = _
  split_ifs at hrest ⊢
  · exact symbolOp_withHost h hrest
  · cases hrest; rfl

theorem updObsOp_withHost {sps : F32} {t : State} (ht : updObsOp c sps s = .ok t) :
    updObsOp c sps (s.withHost h) = .ok (t.withHost h) := by
  obtain ⟨f, hf, rfl⟩ := updObsOp_eq_ok.mp ht
  exact updObsOp_eq_ok.mpr ⟨f, hf, rfl⟩

end

/-! `RECV` as a run of unit operations through `exec`, each of which writes the latch. -/

/-- The latch alone replaced. -/
theorem withHost_ret {s t : State} (h : SameFacade s t) (r : Ret) :
    t.withHost ⟨s.ibuf, s.qbuf, s.bufLen, [], s.resp, r⟩ = { t with ret := r } := by
  rw [← h.ibuf, ← h.qbuf, ← h.bufLen, ← h.resp]
  rfl

theorem spSampleOp_withRet {phi : F32} {s t : State} (ht : spSampleOp hw phi s = .ok t) (r : Ret) :
    spSampleOp hw phi { s with ret := r } = .ok { t with ret := r } := by
  have h := spSampleOp_withHost ⟨s.ibuf, s.qbuf, s.bufLen, [], s.resp, r⟩ ht
  rwa [withHost_ret (.refl s), withHost_ret (UnitEffect.spsample ht).sameFacade] at h

theorem exec_spsample_of_ok {phi : F32} {s t : State} (h : spSampleOp hw phi s = .ok t) :
    exec (.spsample phi) s = .next { t with ret := .none } :=
  outcome_bind_of_ok h

/-- One sample of `runSamples`, whatever the latch holds. -/
theorem runSamples_succ {k x : Nat} {s t : State} (h : recvBlock hw x 1 s = .ok t) (r : Ret) :
    runSamples (k + 1) x { s with ret := r } = runSamples k (x + 1) { t with ret := .none } := by
  obtain ⟨ph, a, hdiff, hsample, hupd⟩ := recvBlock_one_eq_ok.mp h
  have hdiff' : diffOp hw { s with ret := r } x = .ok ph := hdiff
  obtain ⟨f, hf, rfl⟩ := updObsOp_eq_ok.mp hupd
  have hupd' : updObsOp hw a.observedSps { a with ret := .none } = .ok _ := updObsOp_eq_ok.mpr ⟨f, hf, rfl⟩
  simp only [runSamples, exec_diff_of_ok hdiff', exec_spsample_of_ok (spSampleOp_withRet hsample (.f32 ph)),
    exec_updobs_of_ok hupd']

/-- A run of samples is a run of the unit operations, the latch apart. -/
theorem runSamples_of_sampleRun {k x : Nat} {s u : State} (h : sampleRun k x s = .ok u) (r : Ret) :
    ∃ r', runSamples k x { s with ret := r } = some { u with ret := r' } := by
  induction k generalizing x s r with
  | zero => cases h; exact ⟨r, rfl⟩
  | succ k ih =>
    obtain ⟨t, hblock, hrest⟩ := sampleRun_succ_eq_ok.mp h
    rw [runSamples_succ hblock]
    exact ih hrest .none

/-- Settles O24: the samples of the batch are the unit operations' run, and the handing over ends the command. -/
theorem recvRunsItsUnitOperations : Obligations.RecvRunsItsUnitOperations := by
  intro s ts batch hi hfit
  obtain ⟨p, u, hrun, hexec⟩ := hi.recvRun hfit ts
  obtain ⟨r, hunits⟩ := runSamples_of_sampleRun hrun.run p.ret
  obtain ⟨_, _, hret⟩ := hrun.host
  refine ⟨p, _, hrun.stored, hunits, ?_⟩
  rw [hexec, ← hret]
  simp only [recvHandOver, respondOk, respHeader, List.length_map, Nat.add_zero]

/-! Two runs of the same samples at different places in the memories. -/

/-- Two runs of reads, one `δ` cells further on, whose reads answer alike. -/
theorem readRun_shift {α : Type} {f g : Nat → Res α} {δ i n : Nat} (h : ∀ k, k < n → f (δ + (i + k)) = g (i + k)) :
    readRun f (δ + i) n = readRun g i n := by
  induction n generalizing i with
  | zero => rfl
  | succ n ih =>
    have hfirst : f (δ + i) = g i := h 0 (Nat.succ_pos n)
    have hrest : readRun f (δ + (i + 1)) n = readRun g (i + 1) n := ih fun k hk => by
      have := h (k + 1) (Nat.succ_lt_succ hk)
      rwa [Nat.add_comm k 1, ← Nat.add_assoc i] at this
    rw [readRun, readRun, hfirst, Nat.add_assoc, hrest]

/-- `INTERP` depends on the eight cells it reads only (R110). -/
theorem interpOp_congr {c : Cfg} {s s' : State} {sp sp' : Space} {off off' : Nat}
    (h : readRun (spaceRead s' sp') off' 8 = readRun (spaceRead s sp) off 8) (mu : F32) :
    interpOp c s' sp' off' mu = interpOp c s sp off mu := by
  rw [interpOp, interpOp, h]

/-- For the cursors of a batch of `n`, the host's memories read from `δ` on as those of `s` do from the start. -/
structure ReadsAlike (n δ : Nat) (h : HostSide) (s : State) : Prop where
  ibuf : ∀ i : Nat, (i : Int) < intPart (obsLo hw s) + 4 + n → ibufRead (s.withHost h) (δ + i) = ibufRead s i
  qbuf : ∀ i : Nat, (i : Int) < intPart (obsLo hw s) + 4 + n → qbufRead (s.withHost h) (δ + i) = qbufRead s i

/-- The memories and the rates do not change while a batch is taken. -/
theorem ReadsAlike.of_sameFacade {n δ : Nat} {h : HostSide} {s t : State} (hr : ReadsAlike n δ h s)
    (hk : SameFacade s t) : ReadsAlike n δ h t := by
  obtain ⟨hibuf, hqbuf⟩ := hr
  unfold obsLo ibufRead at hibuf
  unfold obsLo qbufRead at hqbuf
  constructor
  · unfold obsLo ibufRead
    rw [hk.nominalSps, hk.bufLen, hk.ibuf]
    exact hibuf
  · unfold obsLo qbufRead
    rw [hk.nominalSps, hk.bufLen, hk.qbuf]
    exact hqbuf

/-- A cursor of the batch and the eight cells it interpolates lie where the memories read alike. -/
theorem diffOp_withHost {n δ x : Nat} {h : HostSide} {s : State} (hb : BatchReady n s) (hr : ReadsAlike n δ h s)
    (hx : x < n) : diffOp hw (s.withHost h) (δ + x) = diffOp hw s x := by
  obtain ⟨hioff, _⟩ := hb.placed.intPart_eq hb.running
  obtain ⟨hfour, _, hhigh⟩ := hb.running.intPart_mem
  have hadj : intPart (obsHi hw s) ≤ intPart (obsLo hw s) + 1 := hb.running.rates.adjacent
  have hoff : s.ioff + x = ((s.ioff + x).toNat : Int) := by omega
  generalize (s.ioff + x).toNat = off at hoff
  have hoff' : (s.withHost h).ioff + ((δ + x : Nat) : Int) = ((δ + off : Nat) : Int) := by
    rw [Nat.cast_add, Nat.cast_add, ← hoff]
    exact Int.add_left_comm _ _ _
  have hI : interpOp hw (s.withHost h) .ibuf (δ + off) (s.withHost h).mu = interpOp hw s .ibuf off s.mu :=
    interpOp_congr (readRun_shift (f := spaceRead (s.withHost h) .ibuf) (g := spaceRead s .ibuf)
      fun k hk => hr.ibuf (off + k) (by omega)) s.mu
  have hQ : interpOp hw (s.withHost h) .qbuf (δ + off) (s.withHost h).mu = interpOp hw s .qbuf off s.mu :=
    interpOp_congr (readRun_shift (f := spaceRead (s.withHost h) .qbuf) (g := spaceRead s .qbuf)
      fun k hk => hr.qbuf (off + k) (by omega)) s.mu
  simp only [diffOp, hr.ibuf x (by omega), hr.qbuf x (by omega), natIndex_eq_ok.mpr hoff, natIndex_eq_ok.mpr hoff', ok_bind,
    hI, hQ]

theorem recvBlock_withHost {n δ x : Nat} {h : HostSide} {s t : State} (hb : BatchReady n s) (hr : ReadsAlike n δ h s)
    (hx : x < n) (ht : recvBlock hw x 1 s = .ok t) : recvBlock hw (δ + x) 1 (s.withHost h) = .ok (t.withHost h) := by
  obtain ⟨ph, a, hdiff, hsample, hupd⟩ := recvBlock_one_eq_ok.mp ht
  exact recvBlock_one_eq_ok.mpr ⟨ph, a.withHost h, (diffOp_withHost hb hr hx).trans hdiff, spSampleOp_withHost h hsample,
    updObsOp_withHost h hupd⟩

/-- A run of samples does what it does wherever the samples stand in the memories; a batch of none reads nothing (R176). -/
theorem sampleRun_withHost {n δ k x : Nat} {h : HostSide} {s u : State} (hb : BatchReady n s)
    (hr : 0 < n → ReadsAlike n δ h s) (hx : x + k ≤ n) (hu : sampleRun k x s = .ok u) :
    sampleRun k (δ + x) (s.withHost h) = .ok (u.withHost h) := by
  induction k generalizing x s with
  | zero => cases hu; rfl
  | succ k ih =>
    obtain ⟨t, hblock, hrest⟩ := sampleRun_succ_eq_ok.mp hu
    obtain ⟨t', hblock', ht, _⟩ := recvBlock_batchReady hb (x := x) (by omega)
    obtain rfl : t' = t := Except.ok.inj (hblock'.symm.trans hblock)
    have hk : SameFacade s t' := sampleRun_sameFacade (k := 1) (sampleRun_succ_eq_ok.mpr ⟨t', hblock, rfl⟩)
    exact sampleRun_succ_eq_ok.mpr ⟨_, recvBlock_withHost hb (hr (by omega)) (by omega) hblock,
      ih ht (fun hn => (hr hn).of_sameFacade hk) (by omega) hrest⟩

/-! Two batches and the one that joins them (R176). -/

theorem BatchStored.placed {batch : List (F32 × F32)} {s p : State} (h : BatchStored batch s p)
    (hne : 0 < batch.length) : PlacedBatch batch s p := by
  rcases h with h | ⟨rfl, _⟩
  · exact h
  · exact absurd hne (lt_irrefl 0)

section
variable {b d : List (F32 × F32)} {s t p q p' : State}

/-- Up to the end of the first batch the joined batch stands as the first one does. -/
theorem PlacedBatch.sampleAt_left (hp : PlacedBatch b s p) (hp' : PlacedBatch (b ++ d) s p') {i : Nat}
    (hi : i < s.overlap + b.length) : p'.sampleAt i = p.sampleAt i := by
  rcases Nat.lt_or_ge i s.overlap with hlow | hhigh
  · rw [hp'.sampleAt_tail hlow, hp.sampleAt_tail hlow]
  · obtain ⟨k, rfl⟩ := Nat.exists_eq_add_of_le hhigh
    have hk : b[k]? = some b[k] := List.getElem?_eq_getElem (by omega)
    rw [hp.sampleAt_new hk, hp'.sampleAt_new (by rw [List.getElem?_append_left (by omega), hk])]

/-- The joined batch stands in the memories as the second one does with the first one's last samples kept before it, as far
behind as the first batch is long. -/
theorem PlacedBatch.sampleAt_right (hp : BatchStored b s p) (hq : PlacedBatch d t q) (hp' : PlacedBatch (b ++ d) s p')
    (hmem : ∀ i, t.sampleAt i = p.sampleAt i) (hlen : t.bufLen = p.bufLen) (hover : t.overlap = s.overlap) {i : Nat}
    (hi : i < s.overlap + d.length) : p'.sampleAt (b.length + i) = q.sampleAt i := by
  rcases Nat.lt_or_ge i s.overlap with hlow | hhigh
  · rw [hq.sampleAt_tail (by omega), hmem, hlen, hover]
    rcases hp with hp | ⟨rfl, rfl⟩
    · rw [hp.bufLen, Nat.add_sub_cancel_left, hp.sampleAt_left hp' (by omega)]
    · rw [List.length_nil, Nat.zero_add, hp'.sampleAt_tail hlow]
  · obtain ⟨k, rfl⟩ := Nat.exists_eq_add_of_le hhigh
    have hk : d[k]? = some d[k] := List.getElem?_eq_getElem (by omega)
    have hk' : (b ++ d)[b.length + k]? = some d[k] := by
      rw [List.getElem?_append_right (by omega), Nat.add_sub_cancel_left, hk]
    rw [← hover, hq.sampleAt_new hk, Nat.add_left_comm, hover, hp'.sampleAt_new hk']

end

/-- Memories that agree cell by cell read alike. -/
theorem ReadsAlike.of_sampleAt {n δ m : Nat} {h : HostSide} {s : State} (hm : intPart (obsLo hw s) + 4 + n ≤ m)
    (hown : m ≤ s.bufLen) (hroom : δ + m ≤ h.bufLen)
    (hcell : ∀ i, i < m → (s.withHost h).sampleAt (δ + i) = s.sampleAt i) : ReadsAlike n δ h s := by
  have hroom' : δ + m ≤ (s.withHost h).bufLen := hroom
  constructor <;> intro i hi
  · exact (ibufRead_eq_ok.mpr ⟨by omega, congrArg Prod.fst (hcell i (by omega))⟩).trans
      (ibufRead_eq_ok.mpr ⟨by omega, rfl⟩).symm
  · exact (qbufRead_eq_ok.mpr ⟨by omega, congrArg Prod.snd (hcell i (by omega))⟩).trans
      (qbufRead_eq_ok.mpr ⟨by omega, rfl⟩).symm

theorem BatchReady.low_le_overlap {n : Nat} {s : State} (h : BatchReady n s) :
    intPart (obsLo hw s) + 4 ≤ (s.overlap : Int) := by
  obtain ⟨_, hlow, _⟩ := h.running.intPart_mem
  obtain ⟨_, hover⟩ := h.placed.intPart_eq h.running
  omega

section
variable {b d : List (F32 × F32)} {s p q p' u₁ u₂ u₃ : State}

/-- The first batch's samples in the joined batch's memories. -/
theorem RecvRun.run_left (h₁ : RecvRun b s p u₁) (h₃ : RecvRun (b ++ d) s p' u₃) :
    sampleRun b.length 0 p' = .ok (u₁.withHost ⟨p'.ibuf, p'.qbuf, p'.bufLen, [], s.resp, s.ret⟩) := by
  have hp' : p' = p.withHost ⟨p'.ibuf, p'.qbuf, p'.bufLen, [], s.resp, s.ret⟩ := by
    rw [h₁.eq_withMemories, h₃.eq_withMemories]
    rfl
  have hover : p.overlap = s.overlap := by rw [h₁.eq_withMemories]
  have hlow := h₁.before.low_le_overlap
  conv_lhs => rw [hp']
  refine sampleRun_withHost (δ := 0) h₁.before (fun hn => ?_) (by omega) h₁.run
  have hleft := h₁.stored.placed hn
  have hjoined := h₃.stored.placed (by rw [List.length_append]; omega)
  refine .of_sampleAt (m := s.overlap + b.length) (by omega) hleft.bufLen.ge ?_ fun i hi => ?_
  · show 0 + (s.overlap + b.length) ≤ p'.bufLen
    rw [hjoined.bufLen, List.length_append]
    omega
  · rw [Nat.zero_add]
    exact hleft.sampleAt_left hjoined hi

/-- The second batch's samples in the joined batch's memories, the first batch's dibits before theirs. -/
theorem RecvRun.run_right (h₁ : RecvRun b s p u₁) (h₂ : RecvRun d (recvHandOver u₁) q u₂)
    (h₃ : RecvRun (b ++ d) s p' u₃) (hover : u₁.overlap = s.overlap) :
    sampleRun d.length b.length (q.withHost ⟨p'.ibuf, p'.qbuf, p'.bufLen, u₁.outq, s.resp, s.ret⟩) =
      .ok (u₂.withHost ⟨p'.ibuf, p'.qbuf, p'.bufLen, u₁.outq, s.resp, s.ret⟩) := by
  have hfacade := sampleRun_sameFacade h₁.run
  have hqover : q.overlap = u₁.overlap := by rw [h₂.eq_withMemories]; rfl
  have hlow := h₂.before.low_le_overlap
  have hmem : ∀ i, (recvHandOver u₁).sampleAt i = p.sampleAt i := fun i => by
    rw [State.sampleAt, State.sampleAt, recvHandOver_ibuf, recvHandOver_qbuf, hfacade.ibuf, hfacade.qbuf]
  refine sampleRun_withHost (δ := b.length) h₂.before (fun hn => ?_) (by omega) h₂.run
  have hright := h₂.stored.placed hn
  have hjoined := h₃.stored.placed (by rw [List.length_append]; omega)
  have hqlen : q.bufLen = s.overlap + d.length := by rw [hright.bufLen, recvHandOver_overlap, hover]
  refine .of_sampleAt (m := s.overlap + d.length) (by omega) hqlen.ge ?_ fun i hi => ?_
  · show b.length + (s.overlap + d.length) ≤ p'.bufLen
    rw [hjoined.bufLen, List.length_append]
    omega
  · exact PlacedBatch.sampleAt_right h₁.stored hright hjoined hmem hfacade.bufLen hover hi

/-- With the same `OVERLAP` after the first batch, the joined batch's run ends as the second one's does, with the first
one's dibits before it (R176). -/
theorem RecvRun.joined (h₁ : RecvRun b s p u₁) (h₂ : RecvRun d (recvHandOver u₁) q u₂) (h₃ : RecvRun (b ++ d) s p' u₃)
    (hover : u₁.overlap = s.overlap) :
    u₃ = u₂.withHost ⟨p'.ibuf, p'.qbuf, p'.bufLen, u₁.outq, s.resp, s.ret⟩ := by
  have hmid : u₁.withHost ⟨p'.ibuf, p'.qbuf, p'.bufLen, [], s.resp, s.ret⟩ =
      q.withHost ⟨p'.ibuf, p'.qbuf, p'.bufLen, u₁.outq, s.resp, s.ret⟩ := by
    rw [h₂.eq_withMemories]
    simp only [State.withHost, recvHandOver, respondOk, List.nil_append, List.append_nil]
  have hrun := h₃.run
  rw [List.length_append, sampleRun_add, h₁.run_left h₃, ok_bind, hmid, Nat.zero_add, h₁.run_right h₂ h₃ hover] at hrun
  exact (Except.ok.inj hrun).symm

end

/-- With one floor between the clamp bounds `OVERLAP` is the same in every sound session at these rates (R25, R176). -/
theorem Running.overlap_eq {s : State} (hr : Running s) (hp : Placed hw s)
    (hfloor : f32Floor (obsLo hw s) = f32Floor (obsHi hw s)) : (s.overlap : Int) = intPart (obsLo hw s) + 4 := by
  have hlo := (f32Floor_intPart (x := obsLo hw s) hr.rates.loFinite).2
  have hhi := (f32Floor_intPart (x := obsHi hw s) hr.rates.hiFinite).2
  have heq : intPart (obsLo hw s) = intPart (obsHi hw s) := by
    refine mul_right_cancel₀ (ne_of_gt unitsPerOne_pos_int) ?_
    rw [← hlo, ← hhi, hfloor]
  obtain ⟨_, hlow, hhigh⟩ := hr.intPart_mem
  obtain ⟨_, hover⟩ := hp.intPart_eq hr
  omega

theorem RecvRun.overlap_eq {batch : List (F32 × F32)} {s p u : State} (h : RecvRun batch s p u) (hi : Inv hw s)
    (hfloor : f32Floor (obsLo hw s) = f32Floor (obsHi hw s)) : u.overlap = s.overlap := by
  have hnom := h.sameSession.nominalSps
  have hlo : obsLo hw u = obsLo hw s := by rw [obsLo, obsLo, hnom]
  have hhi : obsHi hw u = obsHi hw s := by rw [obsHi, obsHi, hnom]
  have hbefore := hi.running.overlap_eq hi.placed hfloor
  have hafter := h.after.running.overlap_eq h.after.placed (by rw [hlo, hhi, hfloor])
  rw [hlo] at hafter
  omega

/-- Settles O27: the three runs exist (`Inv.recvRun`), and the joined batch's is the second one's with the first one's dibits
before it (`RecvRun.joined`). -/
theorem batchBoundariesDoNotMatter : Obligations.BatchBoundariesDoNotMatter := by
  intro s ts b c hi hfloor hfit
  have hlen : (b ++ c).length = b.length + c.length := List.length_append
  have hfit₁ : s.overlap + b.length ≤ hw.bufCap := by omega
  obtain ⟨p, u₁, h₁, hexec₁⟩ := hi.recvRun hfit₁ ts
  have hover := h₁.overlap_eq hi hfloor
  obtain ⟨q, u₂, h₂, hexec₂⟩ := (h₁.inv hi hfit₁).recvRun (batch := c) (by rw [recvHandOver_overlap]; omega) ts
  obtain ⟨p', u₃, h₃, hexec₃⟩ := hi.recvRun hfit ts
  have hjoined := h₁.joined h₂ h₃ hover
  obtain ⟨_, _, hret₁⟩ := h₁.host
  obtain ⟨_, _, hret₂⟩ := h₂.host
  have hret : u₂.ret = s.ret := hret₂.trans hret₁
  refine ⟨_, _, _, _, _, hexec₁, hexec₂, hexec₃, rfl, rfl, ?_, ?_⟩
  · rw [hjoined]
    exact List.map_append
  · rw [hjoined]
    simp only [recvHandOver, respondOk, State.withHost, hret]

end Sys2Proof.Machine
end

section
/-! PROOFS. The hard decision (45_hard_decision.md rules R185 to R187): what `DECIDE` answers depends on a pattern's place in
the order of binary32 alone (`dibitAt`), and on nothing where the pattern is a NaN. The regions of the patterns, their
partition and the monotonicity are read off the places. -/

namespace Sys2Proof.Machine

/-! Places in the order. -/

theorem f32Neg_halfPiF : f32Neg halfPiF = 0xBFC90FDB#32 := by decide +kernel

theorem halfPiF_key : f32Key halfPiF = 1070141403 := by decide +kernel

theorem negHalfPi_key : f32Key 0xBFC90FDB#32 = -1070141403 := by rw [← f32Neg_halfPiF, f32Key_neg, halfPiF_key]

/-- No bound of `DECIDE`'s regions is a NaN. -/
theorem f32IsNaN_decideBounds :
    f32IsNaN halfPiF = false ∧ f32IsNaN zeroF = false ∧ f32IsNaN 0xBFC90FDB#32 = false := by decide +kernel

theorem f32Key_of_nonneg {x : F32} (h : x.toNat < 2147483648) : f32Key x = x.toNat := by
  have hsign : f32Sign x = false := by simpa [f32Sign, Bool.eq_false_iff, Nat.ble_eq] using h
  simp [f32Key, hsign, f32Body, Nat.mod_eq_of_lt h]

theorem f32Key_of_sign {x : F32} (h : 2147483648 ≤ x.toNat) : f32Key x = 2147483648 - (x.toNat : Int) := by
  have hsign : f32Sign x = true := by simpa [f32Sign, Nat.ble_eq] using h
  have hlt := x.isLt
  have hbody : f32Body x = x.toNat - 2147483648 := by unfold f32Body; omega
  rw [f32Key, if_pos hsign, hbody]
  omega

/-- The patterns that are not NaN, with their places: from `+0` up to `+inf`, and from `-0` down to `-inf`. -/
theorem f32IsNaN_eq_false_iff_place (x : F32) : f32IsNaN x = false ↔
    x.toNat ≤ 0x7F800000 ∧ f32Key x = x.toNat ∨
      0x80000000 ≤ x.toNat ∧ x.toNat ≤ 0xFF800000 ∧ f32Key x = 2147483648 - (x.toNat : Int) := by
  have hlt := x.isLt
  rw [Bool.eq_false_iff, Ne, f32IsNaN_iff, f32Body]
  rcases Nat.lt_or_ge x.toNat 2147483648 with hpos | hneg
  · rw [f32Key_of_nonneg hpos]; omega
  · rw [f32Key_of_sign hneg]; omega

/-! `DECIDE` by places. -/

/-- The dibit of a place in the order of binary32 (R185): the regions of `D01_PLUS_3`, `D00_PLUS_1` and `D11_MINUS_3`, and
`D10_MINUS_1` for the rest. `HALF_PI` has the place 1070141403 and its negation the opposite one. -/
def dibitAt (place : Int) : Dibit :=
  if 1070141403 < place then .d01Plus3
  else if 0 < place ∧ place ≤ 1070141403 then .d00Plus1
  else if place < -1070141403 then .d11Minus3
  else .d10Minus1

/-- R187: the order of the places is the order of the dibits. -/
theorem dibitRank_dibitAt_mono {j k : Int} (h : j ≤ k) : dibitRank (dibitAt j) ≤ dibitRank (dibitAt k) := by
  unfold dibitAt
  split_ifs <;> simp only [dibitRank] <;> omega

/-- R186: a NaN falls through all four comparisons. -/
theorem decideOp_of_nan {phi : F32} (h : f32IsNaN phi = true) : decideOp hw phi = .d10Minus1 := by
  simp [decideOp, f32Gt, f32Ge, f32Lt, f32Le, h]

/-- R185's comparisons are those of the places. -/
theorem decideOp_of_number {phi : F32} (h : f32IsNaN phi = false) : decideOp hw phi = dibitAt (f32Key phi) := by
  obtain ⟨hhalf, hzero, hneg⟩ := f32IsNaN_decideBounds
  simp only [decideOp, hw_num, ieee_fgt, ieee_fge, ieee_flt, ieee_fneg, f32Gt, f32Ge, f32Neg_halfPiF, f32Lt_iff hhalf h,
    f32Lt_iff hzero h, f32Le_iff hneg h, f32Lt_iff h hneg, negHalfPi_key, halfPiF_key, zeroF_key, dibitAt]
  split_ifs
  any_goals rfl
  all_goals omega

/-- Settles O47: each region of places is a range of patterns, and no NaN is in one of the three that are tested. -/
theorem decideByRegions : Obligations.DecideByRegions := by
  intro s phi
  rw [exec_decide]
  cases hn : f32IsNaN phi with
  | true =>
    have hbody := (f32IsNaN_iff phi).mp hn
    rw [f32Body] at hbody
    rw [decideOp_of_nan hn, if_neg (by omega), if_neg (by omega), if_neg (by omega)]
  | false =>
    have hplace := (f32IsNaN_eq_false_iff_place phi).mp hn
    have habove : 1070141403 < f32Key phi ↔ 0x3FC90FDB < phi.toNat ∧ phi.toNat ≤ 0x7F800000 := by omega
    have hpositive : 0 < f32Key phi ∧ f32Key phi ≤ 1070141403 ↔ 0 < phi.toNat ∧ phi.toNat ≤ 0x3FC90FDB := by omega
    have hbelow : f32Key phi < -1070141403 ↔ 0xBFC90FDB < phi.toNat ∧ phi.toNat ≤ 0xFF800000 := by omega
    simp only [decideOp_of_number hn, dibitAt, habove, hpositive, hbelow]

/-- R187: of the four regions and the NaNs exactly one holds each pattern. The comparisons with a NaN are all false, and the
others are those of the places, of which the bounds leave exactly one true. -/
theorem decideRegions_partition (phi : F32) :
    [f32Lt halfPiF phi, f32Lt zeroF phi && f32Le phi halfPiF, f32Le 0xBFC90FDB#32 phi && f32Le phi zeroF,
      f32Lt phi 0xBFC90FDB#32, f32IsNaN phi].count true = 1 := by
  obtain ⟨hhalf, hzero, hneg⟩ := f32IsNaN_decideBounds
  cases hn : f32IsNaN phi with
  | true => simp [f32Lt, f32Le, hn]
  | false =>
    simp only [f32Lt, f32Le, hhalf, hzero, hneg, hn, halfPiF_key, zeroF_key, negHalfPi_key, Bool.not_false, Bool.true_and]
    generalize f32Key phi = k
    simp only [List.count_cons, List.count_nil, beq_true, Bool.and_eq_true, decide_eq_true_eq, Bool.false_eq_true, if_false]
    split_ifs <;> omega

/-- Settles O48: `DECIDE` answers its one dibit, the regions are `decideRegions_partition`, and the ranks rise with the
places. -/
theorem decideIsTotalAndMonotone : Obligations.DecideIsTotalAndMonotone := by
  intro s
  refine ⟨fun phi => ⟨⟨_, exec_decide phi s⟩, decideRegions_partition phi⟩, fun x y hxy => ?_⟩
  obtain ⟨hx, hy, hplaces⟩ := f32Le_true hxy
  refine ⟨_, _, exec_decide x s, exec_decide y s, ?_⟩
  rw [decideOp_of_number hx, decideOp_of_number hy]
  exact dibitRank_dibitAt_mono hplaces

end Sys2Proof.Machine
end

section
/-! PROOFS. The timing-error calculator (46_timing_error.md rules R190, R191, R193): `TERR` in binary32, and its magnitude as
the lesser of `EIGHTH_PI` and the distance from the ideal phase. -/

namespace Sys2Proof.Machine

/-! The clamp and the difference. -/

/-- A clamp to `[-bound, bound]` cuts the magnitude of a number at `bound`. -/
theorem f32Body_clampSym {bound v : F32} (hbound : f32IsNaN bound = false) (hpositive : f32Sign bound = false)
    (hv : f32IsNaN v = false) : f32Body (clampSym hw bound v) = min (f32Body v) (f32Body bound) := by
  have hneg : f32IsNaN (f32Neg bound) = false := by rwa [f32IsNaN_neg]
  have hkey : f32Key bound = f32Body bound := by simp [f32Key, hpositive]
  have hmagnitude := f32Key_natAbs v
  simp only [clampSym, hw_num, ieee_fgt, ieee_flt, ieee_fneg, f32Gt, f32Lt_iff hbound hv, f32Lt_iff hv hneg, f32Key_neg, hkey]
  split_ifs
  · omega
  · rw [f32Body_neg]; omega
  · omega

/-- A finite pattern less a number is a number, also where that number is an infinity. -/
theorem f32IsNaN_sub_of_finite_left {x y : F32} (hx : f32IsFinite x = true) (hy : f32IsNaN y = false) :
    f32IsNaN (f32Sub x y) = false := by
  by_cases hfinite : f32IsFinite y = true
  · exact (f32Sub_key hx hfinite).1
  · have hinf : f32IsInf y = true := by
      rw [f32IsFinite_iff] at hfinite
      rw [Bool.eq_false_iff, Ne, f32IsNaN_iff] at hy
      rw [f32IsInf_iff]
      omega
    have hsub : f32Sub x y = f32Neg y := by
      simp [f32Sub, f32AddNum, f32IsNaN_eq_false hx, f32IsInf_eq_false hx, hy, hinf]
    rw [hsub, f32IsNaN_neg, hy]

/-- A finite pattern less itself is `+0`, whatever its sign. -/
theorem f32Sub_self {x : F32} (hx : f32IsFinite x = true) : f32Sub x x = zeroF := by
  have hzero : f32Sub x x = f32Zero false := by
    simp [f32Sub, f32AddNum, f32IsNaN_eq_false hx, f32IsInf_eq_false hx, f32Val_neg]
  rw [hzero]; rfl

theorem f32IsFinite_ideal (d : Dibit) : f32IsFinite (ideal d) = true := by cases d <;> decide +kernel

/-! `TERR` (R190). -/

/-- The slope chooses between the clamped distance and its negation. -/
theorem terrOp_eq (d : Dibit) (prec cur foll : F32) :
    terrOp hw d prec cur foll =
      if f32Lt prec foll then clampSym hw eighthPiF (f32Sub (ideal d) cur)
      else f32Neg (clampSym hw eighthPiF (f32Sub (ideal d) cur)) := rfl

theorem f32Neg_eighthPiF : f32Neg eighthPiF = 0xBEC90FDB#32 := by decide +kernel

/-- The two tests of the clamp and the test of the slope in binary32, on the one rounded difference. -/
theorem terrOp_hw (d : Dibit) (prec cur foll e0 : F32)
    (he0 : e0 = if f32Lt 0x3EC90FDB#32 (f32Sub (ideal d) cur) then 0x3EC90FDB#32
      else if f32Lt (f32Sub (ideal d) cur) 0xBEC90FDB#32 then 0xBEC90FDB#32
      else f32Sub (ideal d) cur) :
    terrOp hw d prec cur foll = if f32Lt prec foll then e0 else f32Neg e0 := by
  have hclamp : clampSym hw eighthPiF (f32Sub (ideal d) cur) = e0 := by
    rw [he0]
    simp only [clampSym, hw_num, ieee_fgt, ieee_flt, ieee_fneg, f32Neg_eighthPiF]
    rfl
  rw [terrOp_eq, hclamp]

/-- Settles O49: the latch takes the error of `terrOp_hw`. -/
theorem terrClampsAndSigns : Obligations.TerrClampsAndSigns := by
  intro s d prec cur foll e0 he0
  rw [exec_terr, terrOp_hw d prec cur foll e0 he0]

/-! Its magnitude (R191) and its zero (R193). -/

/-- The slope chooses the sign of the timing error only: the magnitude is the clamped distance's. -/
theorem f32Body_terrOp {d : Dibit} {prec cur foll : F32} (hcur : f32IsNaN cur = false) :
    f32Body (terrOp hw d prec cur foll) = min (f32Body (f32Sub (ideal d) cur)) (f32Body eighthPiF) := by
  obtain ⟨hnumber, hpositive⟩ : f32IsNaN eighthPiF = false ∧ f32Sign eighthPiF = false := by decide +kernel
  rw [← f32Body_clampSym hnumber hpositive (f32IsNaN_sub_of_finite_left (f32IsFinite_ideal d) hcur), terrOp_eq]
  cases f32Lt prec foll with
  | true => rw [if_pos rfl]
  | false => rw [if_neg Bool.false_ne_true, f32Body_neg]

theorem eighthPi_body : f32Body eighthPiF = 1053364187 := by rw [← f32Key_natAbs, eighthPi_key]; rfl

/-- Magnitudes compare as their bits 30:0 do. -/
theorem f32Key_abs (x : F32) : f32Key (f32Abs x) = f32Body x := by simp [f32Key]

/-- R193, P5: at the ideal phase, on a rising slope, the timing error is `+0`. -/
theorem terrOp_ideal {d : Dibit} {prec foll : F32} (hslope : f32Lt prec foll = true) :
    terrOp hw d prec (ideal d) foll = zeroF := by
  have hclamp : clampSym hw eighthPiF zeroF = zeroF := by decide +kernel
  rw [terrOp_eq, if_pos hslope, f32Sub_self (f32IsFinite_ideal d), hclamp]

/-- Settles O50: a minimum with `EIGHTH_PI` is at most `EIGHTH_PI`, and is `EIGHTH_PI` where the distance is no less. -/
theorem terrIsBounded : Obligations.TerrIsBounded := by
  intro s d prec cur foll hcur
  have hbody : f32Body (terrOp hw d prec cur foll) = min (f32Body (f32Sub (ideal d) cur)) (f32Body eighthPiF) :=
    f32Body_terrOp hcur
  have hpi := eighthPi_body
  have hkey : f32Key 0x3EC90FDB#32 = 1053364187 := eighthPi_key
  refine ⟨terrOp hw d prec cur foll, exec_terr d prec cur foll s, ?bound, fun hfar => ?equal, ?zero⟩
  case bound =>
    have hnumber : f32IsNaN (f32Abs (terrOp hw d prec cur foll)) = false := by
      rw [Bool.eq_false_iff, Ne, f32IsNaN_iff, f32Body_abs]
      omega
    rw [f32Le_iff hnumber (by decide +kernel), f32Key_abs, hkey]
    omega
  case equal =>
    obtain ⟨-, -, hplaces⟩ := f32Le_true hfar
    rw [f32Key_abs, hkey] at hplaces
    refine f32_ext (f32Sign_abs _) ?_
    rw [f32Body_abs, hbody]
    exact min_eq_right (by omega)
  case zero =>
    rintro rfl hslope
    exact terrOp_ideal hslope

end Sys2Proof.Machine
end

section
/-! PROOFS. The dibit delay line (47_sync_detector_dibit_delay.md rules R198 to R200). Read from the oldest dibit on
(`State.delayed`) it is a queue: a push takes the head and appends the new dibit, so that over any run what comes out
followed by what is left is what was stored followed by what went in (`pushAll_fifo`). -/

namespace Sys2Proof.Machine

/-- Settles O55: in the right shape `DDL_PTR` is inside the delay line, so the push answers. -/
theorem ddlpushSwapsOldest : Obligations.DdlpushSwapsOldest := by
  intro s d hs
  obtain ⟨p, hp⟩ := hs.ddlPushOp_ok d
  obtain ⟨hout, hstate⟩ := ddlPushOp_eq_ok.mp hp
  exact ⟨p.2, hout, by rw [exec_ddlpush_of_ok hp, hstate]⟩

/-! The delay line as a queue. -/

/-- The stored dibits, oldest first (R41, R198). -/
def State.delayed (s : State) : List Dibit := s.ddl.rotate s.ddlPtr

theorem Shape.delayed_eq {c : Cfg} {s : State} (hs : Shape c s) :
    s.delayed = s.ddl.drop s.ddlPtr ++ s.ddl.take s.ddlPtr :=
  List.rotate_eq_drop_append_take (by rw [hs.ddl]; exact hs.ddlPtr.le)

theorem Shape.delayed_length {c : Cfg} {s : State} (hs : Shape c s) : s.delayed.length = 24 := by
  rw [State.delayed, List.length_rotate, hs.ddl]

/-- A ring read from `p` on has the cell at `p` first. -/
theorem rotate_eq_cons {α : Type} {xs : List α} {p : Nat} {x : α} (h : xs[p]? = some x) :
    xs.rotate p = x :: (xs.drop (p + 1) ++ xs.take p) := by
  obtain ⟨hp, rfl⟩ := List.getElem?_eq_some_iff.mp h
  rw [List.rotate_eq_drop_append_take hp.le, List.drop_eq_getElem_cons hp, List.cons_append]

/-- A ring with the cell at `p` replaced, read from the cell after it, has the new value last. -/
theorem rotate_succ_set {α : Type} {xs : List α} {p : Nat} (x : α) (hp : p < xs.length) :
    (xs.set p x).rotate (p + 1) = xs.drop (p + 1) ++ xs.take p ++ [x] := by
  rw [List.rotate_eq_drop_append_take (by rw [List.length_set]; exact hp), List.drop_set_of_lt (Nat.lt_succ_self p),
    List.take_succ_eq_append_getElem (by rw [List.length_set]; exact hp), List.getElem_set_self,
    List.take_set_of_le le_rfl, List.append_assoc]

/-- A push takes the head of the queue and appends its operand (R198). -/
theorem Shape.ddlpush_runs {s : State} (hs : Shape hw s) (d : Dibit) :
    ∃ out rest t, exec (.ddlpush d) s = .next t ∧ t.ret = .dibit out ∧ Shape hw t ∧ t.ddlPtr = (s.ddlPtr + 1) % 24 ∧
      s.delayed = out :: rest ∧ t.delayed = rest ++ [d] := by
  obtain ⟨out, hout, hexec⟩ := ddlpushSwapsOldest s d hs
  have hp : s.ddlPtr < s.ddl.length := by rw [hs.ddl]; exact hs.ddlPtr
  refine ⟨out, _, _, hexec, rfl, { hs with ddl := ?_, ddlPtr := Nat.mod_lt _ (by decide) }, rfl, rotate_eq_cons hout, ?_⟩
  · rw [List.length_set, hs.ddl]
  · have hlength : (s.ddl.set s.ddlPtr d).length = 24 := by rw [List.length_set, hs.ddl]
    rw [State.delayed, ← rotate_succ_set d hp, ← List.rotate_mod _ (s.ddlPtr + 1), hlength]

theorem pushAll_cons {s t : State} {d out : Dibit} (ds : List Dibit) (hexec : exec (.ddlpush d) s = .next t)
    (hret : t.ret = .dibit out) : pushAll (d :: ds) s = (pushAll ds t).map fun p => (p.1, out :: p.2) := by
  simp only [pushAll, hexec, hret]

/-- Any run of pushes completes and returns one dibit for each: first in, first out. -/
theorem pushAll_fifo (ds : List Dibit) {s : State} (hs : Shape hw s) :
    ∃ t outs, pushAll ds s = some (t, outs) ∧ Shape hw t ∧ t.ddlPtr = (s.ddlPtr + ds.length) % 24 ∧
      outs.length = ds.length ∧ outs ++ t.delayed = s.delayed ++ ds := by
  induction ds generalizing s with
  | nil => exact ⟨s, [], rfl, hs, (Nat.mod_eq_of_lt hs.ddlPtr).symm, rfl, (List.append_nil _).symm⟩
  | cons d ds ih =>
    obtain ⟨out, rest, t, hexec, hret, ht, hptr, hold, hnew⟩ := hs.ddlpush_runs d
    obtain ⟨u, outs, hrun, hu, huptr, hlength, hfifo⟩ := ih ht
    refine ⟨u, out :: outs, by rw [pushAll_cons ds hexec hret, hrun, Option.map_some], hu, ?_, by simp [hlength], ?_⟩
    · rw [huptr, hptr, List.length_cons]; omega
    · rw [List.cons_append, hfifo, hnew, hold, List.append_assoc, List.singleton_append, List.cons_append]

/-- A run of 24 pushes returns all that was stored and leaves all that was pushed, with the pointer where it was. -/
theorem pushAll_exchanges {ds : List Dibit} {s : State} (hs : Shape hw s) (hds : ds.length = 24) :
    ∃ t, pushAll ds s = some (t, s.delayed) ∧ Shape hw t ∧ t.ddlPtr = s.ddlPtr ∧ t.delayed = ds := by
  obtain ⟨t, outs, hrun, ht, hptr, hlength, hfifo⟩ := pushAll_fifo ds hs
  obtain ⟨rfl, hleft⟩ := List.append_inj hfifo (by rw [hlength, hds, hs.delayed_length])
  have hwrap : (s.ddlPtr + 24) % 24 = s.ddlPtr := by have := hs.ddlPtr; omega
  exact ⟨t, hrun, ht, by rw [hptr, hds, hwrap], hleft⟩

/-- Settles O56: two exchanges, of which the second returns what the first left. -/
theorem delayLineLatencyIs24 : Obligations.DelayLineLatencyIs24 := by
  intro s ds es hs hds hes
  obtain ⟨t, hfirst, ht, hptr, hstored⟩ := pushAll_exchanges hs hds
  obtain ⟨u, hsecond, -⟩ := pushAll_exchanges ht hes
  rw [hs.delayed_eq] at hfirst
  rw [hstored] at hsecond
  exact ⟨t, u, hfirst, hsecond, hptr⟩

/-! `DDLSYNC` (R199). -/

/-- A queue of 24 is known by the cells of its ring, counted from the pointer on. -/
theorem Shape.delayed_eq_of_cells {c : Cfg} {s : State} {ds : List Dibit} (hs : Shape c s) (hds : ds.length = 24)
    (hcell : ∀ k d, ds[k]? = some d → s.ddl[(s.ddlPtr + k) % 24]? = some d) : s.delayed = ds := by
  refine List.ext_getElem? fun k => ?_
  rcases Nat.lt_or_ge k 24 with hk | hk
  · have hkey : ds[k]? = some ds[k] := List.getElem?_eq_getElem (by rw [hds]; exact hk)
    rw [State.delayed, List.getElem?_rotate (by rw [hs.ddl]; exact hk), hs.ddl, Nat.add_comm k, hkey, hcell k _ hkey]
  · rw [List.getElem?_eq_none (by rw [hs.delayed_length]; exact hk), List.getElem?_eq_none (by rw [hds]; exact hk)]

/-- Settles O57: the overwrite leaves the pattern in the queue (`ddlOverwrite_at`), and an exchange returns it. -/
theorem ddlsyncReleasesPattern : Obligations.DdlsyncReleasesPattern := by
  intro s es hs hes
  obtain ⟨t, ht⟩ := hs.ddlSyncOp_ok
  obtain ⟨ring, hring, rfl⟩ := ddlSyncOp_eq_ok.mp ht
  have hlength : ring.length = 24 := (ddlOverwrite_length hring).trans hs.ddl
  have hcell : ∀ k d, syncDibits[k]? = some d → ring[(s.ddlPtr + k) % 24]? = some d := fun k d hk => by
    simpa only [Nat.zero_add] using ddlOverwrite_at hring (by rw [syncDibits_length]) hk
  have hshape : Shape hw { s with ddl := ring, ret := .none } := { hs with ddl := hlength }
  obtain ⟨u, hrun, -⟩ := pushAll_exchanges hshape hes
  rw [hshape.delayed_eq_of_cells syncDibits_length hcell] at hrun
  exact ⟨_, u, exec_ddlsync_of_ok ht, rfl, hlength, hcell, hrun⟩

end Sys2Proof.Machine
end

section
/-! PROOFS. The sync detector (47_sync_detector_dibit_delay.md rules R196, R197; 00_scope.md rule R8): what `SYNCCORR`
scores, and the bound on the score.

Rounding once to nearest is monotone and symmetric in the sign, so a bound on the magnitudes of the operands bounds the
magnitude of a rounded product or sum by that of the bounds (`WithinMag.mul`, `WithinMag.add`). Every term of the score is
thus bounded by the pattern's own term, `THREEQ_PI * THREEQ_PI`, and every partial sum by the pattern's own. -/

namespace Sys2Proof.Machine

/-! `SYNCCORR` (R196, R197). -/

theorem f32Neg_threeQPiF : f32Neg threeQPiF = 0xC016CBE4#32 := by decide +kernel

/-- The two tests of the clamp in binary32. -/
theorem clampSym_threeQPi (ph : F32) : clampSym hw threeQPiF ph =
    if f32Lt 0x4016CBE4#32 ph then 0x4016CBE4#32 else if f32Lt ph 0xC016CBE4#32 then 0xC016CBE4#32 else ph := by
  simp only [clampSym, hw_num, ieee_fgt, ieee_flt, ieee_fneg, f32Neg_threeQPiF]
  rfl

theorem syncRef_length : syncRef.length = 24 := rfl

/-- The pattern's phases against a window of as many. -/
theorem dot_syncRef {window : List F32} (h : window.length = 24) :
    dot hw syncRef window = (List.range 23).foldl
      (fun acc k => f32Add acc
        (f32Mul (ideal (syncDibits.getD (k + 1) .d00Plus1)) (window.getD (k + 1) (ideal .d00Plus1))))
      (f32Mul (ideal (syncDibits.getD 0 .d00Plus1)) (window.getD 0 (ideal .d00Plus1))) := by
  rw [dot_eq_foldl (ideal .d00Plus1) syncRef_length h]
  simp only [syncRef, List.getD_map, hw_num, ieee_fadd, ieee_fmul]

/-- Settles O51: `syncCorrOp_eq_ok` gives the ring and its window, and `dot_syncRef` the sum. -/
theorem synccorrScoresAfterInsert : Obligations.SynccorrScoresAfterInsert := by
  intro s ph c hs hc
  rw [← clampSym_threeQPi] at hc
  subst hc
  obtain ⟨p, hp⟩ := hs.syncCorrOp_ok ph
  obtain ⟨-, hfits, hstate, hscore⟩ := syncCorrOp_eq_ok.mp hp
  obtain ⟨ring, hring⟩ : ∃ ring, ring =
      (s.sdS.set s.sdI (clampSym hw threeQPiF ph)).set (s.sdI + 24) (clampSym hw threeQPiF ph) := ⟨_, rfl⟩
  obtain ⟨window, hwindow⟩ : ∃ window, window = (ring.drop ((s.sdI + 1) % 24)).take 24 := ⟨_, rfl⟩
  rw [← hring] at hstate hscore
  rw [← hwindow] at hscore
  have hlength : window.length = 24 := by
    rw [hwindow, List.length_take, List.length_drop, hring, List.length_set, List.length_set]
    omega
  refine ⟨ring, fun k => window.getD k (ideal .d00Plus1), _, hring, fun k hk => ?_, rfl, ?_⟩
  · rw [← getElem?_eq_getD _ (hlength ▸ hk), hwindow, List.getElem?_take_of_lt hk, List.getElem?_drop]
  · rw [exec_synccorr_of_ok hp, hstate, hscore, dot_syncRef hlength]

/-! Magnitudes under rounding. -/

/-- A ratio and its magnitude round to the same bits 30:0. -/
theorem natAbs_roundKey (v : Int) (d : Nat) : ((roundKey v d).natAbs : Int) = roundKey |v| d := by
  unfold roundKey
  rw [if_neg (not_lt.mpr (abs_nonneg v)), Int.natAbs_abs]
  generalize f32RoundBody v.natAbs d = body
  split_ifs <;> omega

theorem f32Val_abs (x : F32) : f32Val (f32Abs x) = |f32Val x| := by
  rw [f32Val_eq, Int.abs_eq_natAbs, f32Val_natAbs, f32Mag_eq, f32Sign_abs, f32Body_abs, if_neg Bool.false_ne_true]

/-- `x` is no larger in magnitude than the finite bound `b`, which is not negative. -/
structure WithinMag (x b : F32) : Prop where
  finite : f32IsFinite b = true
  place : (f32Body x : Int) ≤ f32Key b

section
variable {x y a b : F32}

theorem WithinMag.isFinite (h : WithinMag x b) : f32IsFinite x = true := by
  have hb := (f32IsFinite_iff b).mp h.finite
  have hplace := h.place
  have hkey := f32Key_natAbs b
  rw [f32IsFinite_iff]
  omega

theorem WithinMag.val_le (h : WithinMag x b) : |f32Val x| ≤ f32Val b := by
  rw [← f32Val_abs, f32Val_le_iff, f32Key_abs]
  exact h.place

/-- A pattern that stands where a ratio rounds to is within one that stands where a bound on the ratio's magnitude does. -/
theorem WithinMag.of_roundKey {v w : Int} {d : Nat} (hd : 0 < d) (hb : f32IsFinite b = true)
    (hx : f32Key x = roundKey v d) (hkey : f32Key b = roundKey w d) (h : |v| ≤ w) : WithinMag x b where
  finite := hb
  place := by
    rw [← f32Key_natAbs, hx, natAbs_roundKey, hkey]
    exact roundKey_mono hd hd (mul_le_mul_of_nonneg_right h (by positivity))

/-- A rounded sum is within the rounded sum of the bounds. -/
theorem WithinMag.add (hx : WithinMag x a) (hy : WithinMag y b) (h : f32IsFinite (f32Add a b) = true) :
    WithinMag (f32Add x y) (f32Add a b) :=
  .of_roundKey one_pos h (f32Add_key hx.isFinite hy.isFinite).2 (f32Add_key hx.finite hy.finite).2
    ((abs_add_le _ _).trans (add_le_add hx.val_le hy.val_le))

/-- A rounded product is within the rounded product of the bounds. -/
theorem WithinMag.mul (hx : WithinMag x a) (hy : WithinMag y b) (h : f32IsFinite (f32Mul a b) = true) :
    WithinMag (f32Mul x y) (f32Mul a b) := by
  refine .of_roundKey unitsPerOne_pos h (f32Mul_key hx.isFinite hy.isFinite).2 (f32Mul_key hx.finite hy.finite).2 ?_
  rw [abs_mul]
  exact mul_le_mul hx.val_le hy.val_le (abs_nonneg _) ((abs_nonneg _).trans hx.val_le)

/-- Every partial sum of terms within `b` is within the partial sum of as many `b`, as long as those stay finite. -/
theorem WithinMag.foldl_add {ts : List F32} (hx : WithinMag x a) (hts : ∀ t ∈ ts, WithinMag t b)
    (hfinite : ∀ k, k ≤ ts.length → f32IsFinite ((List.replicate k b).foldl f32Add a) = true) :
    WithinMag (ts.foldl f32Add x) ((List.replicate ts.length b).foldl f32Add a) := by
  induction ts generalizing x a with
  | nil => exact hx
  | cons t ts ih =>
    have hstep : WithinMag (f32Add x t) (f32Add a b) :=
      hx.add (hts t List.mem_cons_self) (hfinite 1 (by simp))
    exact ih hstep (fun u hu => hts u (List.mem_cons_of_mem t hu))
      fun k hk => hfinite (k + 1) (Nat.succ_le_succ hk)

theorem WithinMag.le_bound (h : WithinMag x b) : f32Le x b = true := by
  have hkey := f32Key_natAbs x
  have hplace := h.place
  rw [f32Le_iff (f32IsNaN_eq_false h.isFinite) (f32IsNaN_eq_false h.finite)]
  omega

end

/-! The bound on the score (R197). -/

/-- `THREEQ_PI * THREEQ_PI`, rounded: the pattern's own term (`ideal_square_of_outer`). -/
def syncTermF : F32 := 0x40B1A723#32

/-- Up to 24 of the pattern's own terms add up to a finite sum. -/
theorem syncTerm_partialSum_finite : ∀ k, k ≤ 23 →
    f32IsFinite ((List.replicate k syncTermF).foldl f32Add syncTermF) = true := by decide +kernel

/-- All 24 of them add up to the pattern's score against itself (R84). -/
theorem syncTerm_sum : (List.replicate 23 syncTermF).foldl f32Add syncTermF = 0x43053D59#32 := by
  obtain ⟨-, -, hscore⟩ := syncPatternTables
  rw [dot, syncRef_products] at hscore
  exact hscore

/-- A stored phase within `THREEQ_PI`, as the comparison of R197 says it. -/
theorem withinMag_of_abs_le {x : F32} (h : f32Le (f32Abs x) threeQPiF = true) : WithinMag x threeQPiF := by
  obtain ⟨-, -, hplaces⟩ := f32Le_true h
  rw [f32Key_abs] at hplaces
  exact ⟨by decide +kernel, hplaces⟩

theorem withinMag_ideal (d : Dibit) : WithinMag (ideal d) threeQPiF :=
  withinMag_of_abs_le (by cases d <;> decide +kernel)

/-- The clamp brings every number within `THREEQ_PI` (R196). -/
theorem withinMag_clampSym {ph : F32} (h : f32IsNaN ph = false) : WithinMag (clampSym hw threeQPiF ph) threeQPiF := by
  obtain ⟨hnumber, hpositive⟩ : f32IsNaN threeQPiF = false ∧ f32Sign threeQPiF = false := by decide +kernel
  have hbody := f32Body_clampSym hnumber hpositive h
  have hkey : f32Key threeQPiF = f32Body threeQPiF := by simp [f32Key, hpositive]
  exact ⟨by decide +kernel, by omega⟩

/-- A term of the score is within the pattern's own term. -/
theorem withinMag_syncTerm {r x : F32} (hr : WithinMag r threeQPiF) (hx : WithinMag x threeQPiF) :
    WithinMag (f32Mul r x) syncTermF := by
  have hideal : ideal .d01Plus3 = threeQPiF := rfl
  have hterm : f32Mul threeQPiF threeQPiF = syncTermF := by
    rw [← hideal]
    exact ideal_square_of_outer (.inl rfl)
  have hfinite : f32IsFinite syncTermF = true := by decide +kernel
  rw [← hterm] at hfinite ⊢
  exact hr.mul hx hfinite

/-- The score of a window of phases within `THREEQ_PI` is within the pattern's score against itself. -/
theorem withinMag_dot_syncRef {window : List F32} (hlength : window.length = 24)
    (hwindow : ∀ v ∈ window, WithinMag v threeQPiF) : WithinMag (dot hw syncRef window) 0x43053D59#32 := by
  have hterms : ∀ t ∈ List.zipWith f32Mul syncRef window, WithinMag t syncTermF := fun t ht => by
    rw [← List.map_uncurry_zip_eq_zipWith, List.mem_map] at ht
    obtain ⟨⟨r, v⟩, hrv, rfl⟩ := ht
    obtain ⟨hr, hv⟩ := List.of_mem_zip hrv
    obtain ⟨d, -, rfl⟩ := List.mem_map.mp hr
    exact withinMag_syncTerm (withinMag_ideal d) (hwindow v hv)
  have hcount : (List.zipWith f32Mul syncRef window).length = 24 := by
    rw [List.length_zipWith, syncRef_length, hlength, Nat.min_self]
  rw [dot, hw_num, ieee_fmul]
  generalize List.zipWith f32Mul syncRef window = terms at hterms hcount
  cases terms with
  | nil => cases hcount
  | cons t ts =>
    have hrest : ts.length = 23 := Nat.succ.inj hcount
    have hsum := (hterms t List.mem_cons_self).foldl_add (fun u hu => hterms u (List.mem_cons_of_mem t hu))
      fun k hk => syncTerm_partialSum_finite k (hk.trans hrest.le)
    rwa [hrest, syncTerm_sum] at hsum

/-- A value of a ring after a pair was written is the written one or was there before. -/
theorem mem_or_eq_of_mem_set_set {α : Type} {xs : List α} {i j : Nat} {v x : α} (h : x ∈ (xs.set i v).set j v) :
    x ∈ xs ∨ x = v := by
  rcases List.mem_or_eq_of_mem_set h with hx | hx
  · exact List.mem_or_eq_of_mem_set hx
  · exact .inr hx

/-- Settles O52: the window holds stored phases and the clamped one (`withinMag_clampSym`), so `withinMag_dot_syncRef`
bounds the score. -/
theorem syncScoreIsBounded : Obligations.SyncScoreIsBounded := by
  intro s ph hs hph hstored
  obtain ⟨p, hp⟩ := hs.syncCorrOp_ok ph
  obtain ⟨-, hfits, -, hscore⟩ := syncCorrOp_eq_ok.mp hp
  refine ⟨_, p.2, exec_synccorr_of_ok hp, rfl, ?_⟩
  rw [hscore]
  refine (withinMag_dot_syncRef ?_ fun v hv => ?_).le_bound
  · simp only [List.length_take, List.length_drop, List.length_set]
    omega
  · rcases mem_or_eq_of_mem_set_set (List.mem_of_mem_drop (List.mem_of_mem_take hv)) with hold | rfl
    · obtain ⟨k, hk⟩ := List.mem_iff_getElem?.mp hold
      exact withinMag_of_abs_le (hstored k v hk)
    · exact withinMag_clampSym hph

end Sys2Proof.Machine
end

section
/-! PROOFS. Steps that stop nowhere (60_exceptions.md rules R207, R211, R215; 70_reset_and_hazards.md rule R223): a step
with no whole command holds the state, a command that ends in a fault leaves it, and from a sound state every command
completes in a sound state. -/

namespace Sys2Proof.Machine

/-! A step with no whole command on the port. -/

/-- The word an illegal command is refused with is the header that was read (R95). -/
theorem eq_of_decode_illegal {w h : Word} {ws : List Word} (hd : decode (w :: ws) = .error (.illegal h)) : w = h := by
  unfold decode at hd
  dsimp only at hd
  split_ifs at hd
  · split at hd <;> cases hd
  · split at hd <;> cases hd
  · split at hd <;> cases hd
  · cases hd
    rfl

/-- A header is illegal whatever words follow it (R95). -/
theorem decode_append_of_illegal {ws : List Word} {h : Word} (hd : decode ws = .error (.illegal h)) (rest : List Word) :
    decode (ws ++ rest) = .error (.illegal h) := by
  cases ws with
  | nil => cases hd
  | cons w ws =>
    obtain rfl := eq_of_decode_illegal hd
    exact decode_illegal_iff.mpr (decode_illegal_iff.mp hd)

/-- A part of a command's words is no illegal header, for the command itself would be one. -/
theorem decode_part_ne_illegal {i : Instr} {p ws : List Word} (hwf : i.WellFormed) (hi : i.isCommand = true)
    (hp : p ++ ws = encode i) (h : Word) : decode p ≠ .error (.illegal h) := by
  intro hd
  have hwhole := commandDecodeEncode i [] hwf hi
  rw [List.append_nil, ← hp, decode_append_of_illegal hd] at hwhole
  cases hwhole

/-- A proper part of a command's words holds no command: the words of that command would also be those of `i`, which leave
nothing on the port. -/
theorem decode_part_ne_ok {i : Instr} {p ws : List Word} (hwf : i.WellFormed) (hi : i.isCommand = true)
    (hp : p ++ ws = encode i) (hws : ws ≠ []) (r : Instr × List Word) : decode p ≠ .ok r := by
  intro hd
  obtain ⟨j, rest⟩ := r
  obtain ⟨hjwf, hj, rfl⟩ := commandsDecodeFromEncodingsOnly p j rest hd
  have hwhole := commandDecodeEncode i [] hwf hi
  rw [List.append_nil, ← hp, List.append_assoc, commandDecodeEncode j (rest ++ ws) hjwf hj] at hwhole
  cases hrest : rest ++ ws with
  | nil => exact hws (List.append_eq_nil_iff.mp hrest).2
  | cons w l => rw [hrest] at hwhole; cases hwhole

/-- With the slot empty, a step that finds neither a command nor an illegal header holds the state (R223). -/
theorem step_idle {s : State} (hm : s.micro = []) (hok : ∀ r, decode s.port ≠ .ok r)
    (hill : ∀ h, decode s.port ≠ .error (.illegal h)) : step s = .next s := by
  rw [step_of_micro_nil hm]
  unfold stepPort
  split
  next i rest hd => exact absurd hd (hok (i, rest))
  next h hd => exact absurd hd (hill h)
  next => rfl

/-- Settles O7: an empty port holds nothing to decode, and a proper part of a command's words is neither a command nor an
illegal header. -/
theorem idleStepHoldsState : Obligations.IdleStepHoldsState := by
  rintro s hm (hempty | ⟨i, ws, hwf, hi, hp, hws⟩)
  · exact step_idle hm (by rw [hempty]; exact nofun) (by rw [hempty]; exact nofun)
  · exact step_idle hm (decode_part_ne_ok hwf hi hp hws) (decode_part_ne_illegal hwf hi hp)

/-! A command that ends in a fault. -/

/-- A response with status `OK` has zero in bits 7:0 of its header (R90). -/
theorem respHeader_ok_status (count : Nat) : (respHeader 0 count).toNat % 256 = 0 := by
  rw [respHeader, BitVec.toNat_ofNat]
  omega

/-- A command leaves all but the response as it was, or answers `OK` (R207, R211). -/
theorem CommandEffect.unchanged_or_ok {i : Instr} {s t : State} (h : CommandEffect s i t) :
    t = { s with resp := t.resp } ∨ ∃ payload u, t = respondOk payload u := by
  cases h with
  | fault f w => exact .inl rfl
  | cfg _ _ => exact .inr ⟨_, _, rfl⟩
  | setfs _ _ => exact .inr ⟨_, _, rfl⟩
  | rst _ => exact .inr ⟨_, _, rfl⟩
  | recv _ _ => exact .inr ⟨_, _, rfl⟩
  | rdcsr addr w => exact .inr ⟨_, _, rfl⟩

/-- Settles O20: a step that changes more than the port and the response has run a command that answers `OK`. -/
theorem faultLeavesStateAsItWas : Obligations.FaultLeavesStateAsItWas := by
  intro s t h payload hm hstep hresp hstatus
  rcases step_cases hstep with ⟨_, rfl | ⟨w, ws, rfl⟩ | ⟨i, ws, hc⟩⟩ | ⟨hm', _⟩
  · rfl
  · rfl
  · rcases hc.unchanged_or_ok with ht | ⟨words, u, rfl⟩
    · rw [ht]
    · rw [respondOk_resp] at hresp
      cases hresp
      exact absurd (respHeader_ok_status _) hstatus
  · exact absurd hm hm'

/-! From a sound state every command completes. -/

/-- The part of a sound state that depends on where the loop stands: the countdown armed, the block position and the room in
the sample memories (R23 to R25, R133, R170). -/
structure Timed (s : State) : Prop where
  armed : Armed hw s
  placed : Placed hw s
  buffered : Buffered hw s

theorem Inv.timed {s : State} (h : Inv hw s) : Timed s := ⟨h.armed, h.placed, h.buffered⟩

/-- The port and the response are no part of the timing. -/
theorem Timed.withPort {s : State} (h : Timed s) (port resp : List Word) : Timed { s with port := port, resp := resp } :=
  ⟨h.armed, ⟨h.placed.mu, h.placed.ioff, h.placed.ioffNonneg, h.placed.overlap⟩,
    ⟨h.buffered.tail, h.buffered.fits, h.buffered.room⟩⟩

/-- A value of 4 or more is not below 1. -/
theorem f32Lt_oneF_of_four {x : F32} (hx : f32IsFinite x = true) (h4 : 4 ≤ intPart x) : f32Lt x oneF = false := by
  have hval := le_intPart.mp h4
  have hunits := unitsPerOne_pos_int
  rw [f32Lt_false_iff (f32IsNaN_eq_false hx) (f32IsNaN_eq_false f32IsFinite_literals.2.1), ← f32Val_le_iff, f32Val_oneF]
  omega

/-- What `RESET` leaves with accepted rates is sound: `NOMINAL_SPS` is at least 4, and its floor plus 5 fits `BUF_CAP`
(R172, R230). -/
theorem AfterReset.timed {t : State} (h : AfterReset hw t) (hb : RateBounds t.nominalSps) : Timed t := by
  obtain ⟨hfour, _, hhigh⟩ := hb.intPart_mem hb.lo_le hb.le_hi
  have hroom := hb.room
  have hfloor : t.ioff + 4 = intPart t.nominalSps :=
    Option.some.inj (h.ioff.symm.trans (f32ToInt_floor hb.nomFinite))
  have hoverlap := h.overlap
  have hlen := h.bufLen
  refine ⟨?_, ⟨?_, ?_, by omega, hoverlap⟩, ⟨hlen.ge, by omega, by omega⟩⟩
  · unfold Armed
    rw [h.samplePoint]
    exact f32Lt_oneF_of_four hb.nomFinite hfour
  · rw [h.observedSps]
    exact h.mu
  · rw [h.observedSps]
    exact h.ioff

/-- A cell of a window that its register file has is read. -/
theorem windowRead_ok {α : Type} {st : Store} {xs : List α} {i : Nat} (f : α → Word) (h : i < xs.length) :
    ∃ v, (cellGet st xs i >>= fun a => .ok (some (f a))) = .ok v :=
  ⟨_, by rw [cellGet_eq_ok.mpr (List.getElem?_eq_getElem h), ok_bind]⟩

/-- `RDCSR` reads no cell outside a register file (R46, R215). -/
theorem Shape.csrRead_ok {s : State} (h : Shape hw s) (addr : Nat) : ∃ v, csrRead hw s addr = .ok v := by
  obtain ⟨hdly, _, hz, ha, hq, _, hsd, _, hddl, _⟩ := h
  rw [hw_len] at hz ha hq
  unfold csrRead
  simp only [inWindow_eq_true, hw_len]
  split_ifs
  · exact windowRead_ok id (by omega)
  · exact windowRead_ok id (by omega)
  · exact windowRead_ok Dibit.toWord (by omega)
  · exact windowRead_ok id (by omega)
  · exact windowRead_ok id (by omega)
  · exact windowRead_ok id (by omega)
  · exact ⟨_, rfl⟩

/-- `RDCSR` completes, with a word or with a fault, and changes the response only (R175). -/
theorem Shape.exec_rdcsr {s : State} (h : Shape hw s) (addr : BitVec 12) :
    ∃ ws, exec (.rdcsr addr) s = .next { s with resp := ws } := by
  obtain ⟨v, hv⟩ := h.csrRead_ok addr.toNat
  cases v with
  | none => exact ⟨_, rdcsr_of_none hv⟩
  | some w => exact ⟨_, rdcsr_of_some hv⟩

/-- A configuration completes, accepted or refused, and leaves the timing sound (R171, R172). -/
theorem Timed.exec_cfg {s : State} (h : Timed s) (retune : Bool) (sr : Word) (fs : F32) :
    ∃ t, exec (.cfg retune sr fs) s = .next t ∧ Timed t := by
  by_cases hcheck : check hw sr fs = 0
  · obtain ⟨t, hexec, hreset, _, _, _, hnom, _⟩ := cfgAccepted s retune sr fs hcheck
    refine ⟨t, hexec, hreset.timed ?_⟩
    rw [hnom]
    exact rateBounds_of_check hcheck
  · exact ⟨_, (badRatesTakeConfigError s retune sr fs hcheck).1, h.withPort s.port _⟩

/-- Every command completes from a sound state and leaves the timing sound (R215). -/
theorem Inv.exec_timed {i : Instr} {s : State} (hi : Inv hw s) (hc : i.isCommand = true) :
    ∃ t, exec i s = .next t ∧ Timed t := by
  cases i with
  | cfg retune sr fs => exact hi.timed.exec_cfg retune sr fs
  | setfs fs => exact hi.timed.exec_cfg s.retuneEn s.symbolRate fs
  | rst =>
    obtain ⟨t, hexec, hreset, _, _, _, hnom, _⟩ := rstResetsAndIsIdempotent s hi.session
    exact ⟨t, hexec, hreset.timed (hnom ▸ hi.session.rateBounds)⟩
  | recv ts batch =>
    by_cases hfit : s.overlap + batch.length ≤ hw.bufCap
    · obtain ⟨t, _, hexec, hinv, _⟩ := recvCompletes s ts batch hi hfit
      exact ⟨t, hexec, hinv.timed⟩
    · exact ⟨_, recvTooLargeTakesFault s ts batch (not_le.mp hfit), hi.timed.withPort s.port _⟩
  | rdcsr addr =>
    obtain ⟨ws, hexec⟩ := hi.shape.exec_rdcsr addr
    exact ⟨_, hexec, hi.timed.withPort s.port ws⟩
  | interp _ _ _ | cmulc _ _ _ _ | phase _ _ | diff _ | unwrap _ _ | spsample _ | symbol | loopupd _ | eqproc _ _
  | eqnoupd _ _ | eqsync _ | updobs _ | decidePhi _ | terr _ _ _ _ | synccorr _ | ddlpush _ | ddlsync => cases hc

/-- What a step from a sound state leaves is sound if its timing is: every step keeps the rest (`stepKeepsRegisterFiles` and
the other invariants of every step). -/
theorem Inv.of_step {s t : State} (hi : Inv hw s) (h : step s = .next t) (ht : Timed t) : Inv hw t := by
  obtain ⟨hshape, hrings, hcentre⟩ := stepKeepsRegisterFiles s t hi.shape hi.rings hi.centre h
  obtain ⟨hsession, hloop⟩ := stepKeepsLoopInBounds s t hi.session hi.loop h
  exact
    { shape := hshape, rings := hrings, centre := hcentre, session := hsession, loop := hloop
      armed := ht.armed, placed := ht.placed, buffered := ht.buffered
      memory := stepKeepsMemoryCanonical s t hi.memory h
      boundary := commandsKeepBoundary s t hi.boundary h }

/-- The words on the port are the host's to choose. -/
theorem Inv.withPort {s : State} (hi : Inv hw s) (port : List Word) : Inv hw { s with port := port } := by
  have hfiles : Files hw { s with port := port } :=
    Files.congr ⟨hi.shape, hi.rings, hi.centre⟩ rfl rfl rfl rfl rfl rfl rfl rfl rfl rfl
  obtain ⟨harmed, hplaced, hbuffered⟩ := hi.timed.withPort port s.resp
  exact
    { shape := hfiles.shape, rings := hfiles.rings, centre := hfiles.centre
      session := ⟨hi.session.checked, hi.session.nominal⟩
      loop := ⟨hi.loop.finite, hi.loop.low, hi.loop.high⟩
      armed := harmed, placed := hplaced, buffered := hbuffered
      memory := ⟨hi.memory.ibuf, hi.memory.qbuf⟩
      boundary := ⟨hi.boundary.outq, hi.boundary.seq, hi.boundary.micro⟩ }

/-- A step from a sound state runs a command, refuses a header, or holds the state; each answers a next state. -/
theorem Inv.step_timed {s : State} (hi : Inv hw s) : ∃ t, step s = .next t ∧ Timed t := by
  rw [step_of_micro_nil hi.boundary.micro]
  unfold stepPort
  split
  next i rest hd => exact (hi.withPort rest).exec_timed (decode_isCommand hd)
  next h _ => exact ⟨_, rfl, hi.timed.withPort _ _⟩
  next => exact ⟨s, rfl, hi.timed⟩

/-- Settles O19: the step completes with the timing sound (`Inv.step_timed`), and every step keeps the rest. -/
theorem everyCommandCompletes : Obligations.EveryCommandCompletes := by
  intro s hi
  obtain ⟨t, hstep, ht⟩ := hi.step_timed
  exact ⟨t, hstep, hi.of_step hstep ht⟩

end Sys2Proof.Machine
end

section
/-! PROOFS. Pairs of rates (60_exceptions.md rule R208), and the configuration the block comes up with
(70_reset_and_hazards.md rule R231). -/

namespace Sys2Proof.Machine

/-! `CHECK` on given rates. -/

/-- Settles O10: the checks that give the codes 1 to 4 here do not read `BUF_CAP`, and the two accepted pairs are accepted
with the least capacity the spec allows. -/
theorem configCodeExamples : Obligations.ConfigCodeExamples :=
  ⟨by decide +kernel, by decide +kernel, by decide +kernel, by decide +kernel, by decide +kernel, by decide +kernel,
    by decide +kernel, by decide +kernel, check_capacity_mono hw_bufCap_ge (by decide +kernel),
    check_capacity_mono hw_bufCap_ge (by decide +kernel)⟩

/-! The default configuration. -/

/-- 50000 samples per 4800 symbols is 10 and a fraction (R231). -/
theorem intPart_defaultNominal : intPart State.reset.nominalSps = 10 := by decide +kernel

/-- `RESET` on the default rates writes the power-on state, but for what the host and the slot hold (R230, R231). -/
theorem resetState_defaultRates (s : State) :
    resetState hw 10 (setRates hw State.reset.symbolRate State.reset.sampleRate true s) =
      { State.reset with port := s.port, resp := s.resp, micro := s.micro, ret := s.ret } := by
  have hmu : State.reset.mu = hw.num.fsub State.reset.nominalSps (hw.num.ffloor State.reset.nominalSps) := reset_placed.mu
  have hrates : setRates hw State.reset.symbolRate State.reset.sampleRate true s =
      { s with symbolRate := State.reset.symbolRate, sampleRate := State.reset.sampleRate, retuneEn := true
               nominalSps := State.reset.nominalSps } := by
    rw [setRates, ← reset_session.nominal]
  rw [hrates, resetState, ← hmu]
  rfl

/-- The default rates are accepted (`reset_session`), so configuring with them is `RESET` on them (R171, R231). -/
theorem configureOp_defaultRates (s : State) :
    configureOp hw State.reset.symbolRate State.reset.sampleRate true s =
      .ok (respondOk [] { State.reset with port := s.port, resp := s.resp, micro := s.micro, ret := s.ret }) := by
  have hfloor : intPart (nominalOf hw State.reset.symbolRate State.reset.sampleRate) = 10 := by
    rw [← reset_session.nominal]
    exact intPart_defaultNominal
  rw [configureOp_of_accepted reset_session.checked, hfloor, resetState_defaultRates]

/-- Settles O9: configuring with the default rates writes the power-on state and answers `OK`, and the rest reads its fields
off. -/
theorem powerOnIsDefaultConfiguration : Obligations.PowerOnIsDefaultConfiguration := by
  refine ⟨fun s => ?_, rfl, rfl, rfl, rfl, rfl, rfl, rfl, rfl, rfl, rfl, rfl⟩
  rw [exec_cfg]
  exact outcome_eq_next.mpr (configureOp_defaultRates s)

end Sys2Proof.Machine
end
